-- ==== Sys2Proof/Word.lean ====
section
/-! DEFINITION. The words of HFC (spec/00_scope.md R6 to R8, spec/30_encoding.md R90): every quantity is unsigned,
bit 0 is the least significant bit, nothing is sign-extended. -/

namespace Sys2Proof

/-- A command word, the value written to CMD (R90). -/
abbrev Word := BitVec 16

/-- One byte of a buffer; also a symbol, "a byte value in [0,255]" (R6). -/
abbrev Byte := BitVec 8

/-- A 64-bit unsigned quantity: a count, a size, an address, a node weight (R6, R7). -/
abbrev U64 := BitVec 64

/-- A code pattern, 255 bits (R7, R35). -/
abbrev Pattern := BitVec 255

/-- A handle of the node store: 9 bits wide, the values 0 to 510 (R7, R31). -/
abbrev Handle := Fin 511

/-- The widest value a host access moves: a CODE entry is 264 bits (R44, R102). -/
abbrev HostWord := BitVec 264

end Sys2Proof
end

