-- ==== Sys2Proof/Syntax.lean ====
section
/-! DEFINITION. The thirteen commands of HFC (spec/30_encoding.md R90, R91): one constructor per row of
spec/opcode_table.json. -/

namespace Sys2Proof

/-- The three formats of a command word (R90). -/
inductive Format where
  /-- no operand: bits 15:8 must be 0 -/
  | N
  /-- bit operand: bits 15:9 must be 0, bit 8 is the operand -/
  | B
  /-- symbol operand: bits 15:8 are the symbol -/
  | S
deriving DecidableEq, Repr

/-- A command. BW.BITS takes its value and its length from WB_VAL and WB_LEN (R92), so it has no operand here. -/
inductive Instr where
  /-- FC.RUN: count the bytes of the input buffer (R120) -/
  | fcRun
  /-- TB.BUILD: build the prefix tree from the frequency table (R130) -/
  | tbBuild
  /-- CG.GEN: derive the code table from the tree (R150) -/
  | cgGen
  /-- BW.BIT b: write one bit (R160) -/
  | bwBit (b : Bool)
  /-- BW.BITS: write WB_LEN bits of WB_VAL (R161) -/
  | bwBits
  /-- BW.FLUSH: emit the pending bits as a padded byte (R162) -/
  | bwFlush
  /-- BR.BIT: read one bit (R170) -/
  | brBit
  /-- CF.WRHDR: append the header (R180) -/
  | cfWrhdr
  /-- CF.RDHDR: parse and validate the header (R182) -/
  | cfRdhdr
  /-- ENC.SYM s: emit the code of one symbol (R190) -/
  | encSym (s : Byte)
  /-- ENC.RUN: compress (R193) -/
  | encRun
  /-- DEC.SYM: decode one symbol (R195) -/
  | decSym
  /-- DEC.RUN: decompress (R196) -/
  | decRun
deriving DecidableEq, Repr

/-- The format of each command (R90, R91). -/
def Instr.format : Instr → Format
  | .fcRun => .N
  | .tbBuild => .N
  | .cgGen => .N
  | .bwBit _ => .B
  | .bwBits => .N
  | .bwFlush => .N
  | .brBit => .N
  | .cfWrhdr => .N
  | .cfRdhdr => .N
  | .encSym _ => .S
  | .encRun => .N
  | .decSym => .N
  | .decRun => .N

end Sys2Proof
end

