-- ==== Sys2Proof/WellFormed.lean ====
section
/-! DEFINITION. Well-formedness (spec/30_encoding.md R90, R92, R93). A command as syntax carries its operand in a type
of exactly the field's width ("one bit, used as is"; "an unsigned 8-bit symbol, used as is"), so every term of `Instr`
is well-formed. What can be ill-formed is a command WORD: the must-be-zero bits of its format. -/

namespace Sys2Proof

/-- R92: each operand already has its field's width; a term-level check has nothing left to refuse. -/
def Instr.wellFormed : Instr → Bool
  | .fcRun => true
  | .tbBuild => true
  | .cgGen => true
  | .bwBit _ => true
  | .bwBits => true
  | .bwFlush => true
  | .brBit => true
  | .cfWrhdr => true
  | .cfRdhdr => true
  | .encSym _ => true
  | .encRun => true
  | .decSym => true
  | .decRun => true

/-- The must-be-zero bits of a word of format `f` are zero (R90). -/
def Format.mbzClear (f : Format) (w : Word) : Bool :=
  match f with
  | .N => w.extractLsb' 8 8 == 0#8
  | .B => w.extractLsb' 9 7 == 0#7
  | .S => true

end Sys2Proof
end

