-- ==== Sys2Proof/Decode.lean ====
section
/-! DEFINITION. The decoder and the encoder (spec/30_encoding.md R90 to R93). HFC fetches no instructions (R22): a
command is the 16-bit word written to CMD, one whole value, so no byte order enters (R67). -/

namespace Sys2Proof

/-- Why a word is no command (R93). Both are answered by the machine with `ERR <- 7`, IllegalCommand (R218). -/
inductive IllegalWord where
  /-- "an op byte outside the thirteen" -/
  | unknownOpcode (op : Byte)
  /-- "a nonzero must-be-zero bit in format N or B" -/
  | mustBeZero (op : Byte) (arg : Byte)
deriving DecidableEq, Repr

/-- What the decoder answers for a word: exactly one command, or the reason why it is illegal (R93). -/
inductive Decoded where
  | command (i : Instr)
  | illegal (r : IllegalWord)
deriving DecidableEq, Repr

/-- A row of the opcode map of R91. -/
structure OpcodeRow where
  mnemonic : String
  pattern  : Word
  mask     : Word
  make     : Word → Instr

/-- The bit operand of format B, `b = word[8]` (R92). -/
def bitOperand (w : Word) : Bool := w.getLsbD 8

/-- The symbol operand of format S, `s = word[15:8]` (R92). -/
def symbolOperand (w : Word) : Byte := w.extractLsb' 8 8

/-- The `op` field, bits 7:0 (R90). -/
def opField (w : Word) : Byte := w.extractLsb' 0 8

/-- The opcode map, row by row as R91 prints it. -/
def opcodeTable : List OpcodeRow :=
  [⟨"FC.RUN",   0x0010#16, 0xFFFF#16, fun _ => .fcRun⟩,
   ⟨"TB.BUILD", 0x0020#16, 0xFFFF#16, fun _ => .tbBuild⟩,
   ⟨"CG.GEN",   0x0030#16, 0xFFFF#16, fun _ => .cgGen⟩,
   ⟨"BW.BIT",   0x0040#16, 0xFEFF#16, fun w => .bwBit (bitOperand w)⟩,
   ⟨"BW.BITS",  0x0041#16, 0xFFFF#16, fun _ => .bwBits⟩,
   ⟨"BW.FLUSH", 0x0042#16, 0xFFFF#16, fun _ => .bwFlush⟩,
   ⟨"BR.BIT",   0x0050#16, 0xFFFF#16, fun _ => .brBit⟩,
   ⟨"CF.WRHDR", 0x0060#16, 0xFFFF#16, fun _ => .cfWrhdr⟩,
   ⟨"CF.RDHDR", 0x0061#16, 0xFFFF#16, fun _ => .cfRdhdr⟩,
   ⟨"ENC.SYM",  0x0070#16, 0x00FF#16, fun w => .encSym (symbolOperand w)⟩,
   ⟨"ENC.RUN",  0x0071#16, 0xFFFF#16, fun _ => .encRun⟩,
   ⟨"DEC.SYM",  0x0078#16, 0xFFFF#16, fun _ => .decSym⟩,
   ⟨"DEC.RUN",  0x0079#16, 0xFFFF#16, fun _ => .decRun⟩]

/-- "A word selects a command when `(word AND mask) = match`" (R91). -/
def OpcodeRow.selects (r : OpcodeRow) (w : Word) : Bool := (w &&& r.mask) == r.pattern

/-- Why a word that selects no row is illegal (R93). -/
def illegalReason (w : Word) : IllegalWord :=
  if opcodeTable.any (fun r => opField r.pattern == opField w) then
    .mustBeZero (opField w) (symbolOperand w)
  else
    .unknownOpcode (opField w)

/-- The decoder: total on all 65,536 words (R93). -/
def decode (w : Word) : Decoded :=
  match opcodeTable.find? (fun r => r.selects w) with
  | some r => .command (r.make w)
  | none => .illegal (illegalReason w)

/-- The instruction the decoder reads from the low `nbits` bits of `w`, every bit above them 0. CMD is 16 bits wide
(R24), so a number with a bit set above bit 15 is no command word. -/
def decodeTableWord (nbits w : Nat) : Option Instr :=
  let v := w % 2 ^ nbits
  if v < 2 ^ 16 then
    match decode (BitVec.ofNat 16 v) with
    | .command i => some i
    | .illegal _ => none
  else
    none

/-- The encoder: the word of each command, written from R90 and R91 (format N: the opcode alone; format B: `b` in bit
8; format S: `s` in bits 15:8). -/
def encode : Instr → Word
  | .fcRun => 0x0010#16
  | .tbBuild => 0x0020#16
  | .cgGen => 0x0030#16
  | .bwBit b => 0x0040#16 ||| ((BitVec.ofBool b).setWidth 16 <<< 8)
  | .bwBits => 0x0041#16
  | .bwFlush => 0x0042#16
  | .brBit => 0x0050#16
  | .cfWrhdr => 0x0060#16
  | .cfRdhdr => 0x0061#16
  | .encSym s => 0x0070#16 ||| (s.setWidth 16 <<< 8)
  | .encRun => 0x0071#16
  | .decSym => 0x0078#16
  | .decRun => 0x0079#16

end Sys2Proof
end

