-- ==== Sys2Proof/Config.lean ====
section
/-! DEFINITION. What is fixed for every HFC (spec/00_scope.md R6, R7; spec/20_memory.md R71), and the free values:
what the spec leaves open and nothing in Lean can evaluate. -/

namespace Sys2Proof.Config

/-- HDR_BYTES = 3 + 1 + 8 + 256 * 8 (R6). -/
abbrev hdrBytes : Nat := 2060

/-- MAGIC, the ASCII characters "HF1" (R6, R95). -/
abbrev magic0 : Byte := 0x48#8
abbrev magic1 : Byte := 0x46#8
abbrev magic2 : Byte := 0x31#8

/-- VERSION (R6, R96). -/
abbrev version : Byte := 0x01#8

/-- The offset of the 8-byte original size in a container (R71, R97). -/
abbrev sizeOffset : Nat := 4

/-- The offset of the count of symbol `s` in a container: 12 + 8 s (R71, R98). -/
abbrev countOffset (s : Nat) : Nat := 12 + 8 * s

/-- FREE VALUE (log 4). What a byte of IBUF that nothing has written since the last reset holds: "The contents of IBUF
and OBUF after reset are unspecified" (R45; U2 of spec/93_implementation_defined.md: any value).
The first argument is the number of resets so far, the second the address. -/
opaque freeIbufByte : Nat → Nat → Byte

/-- FREE VALUE (log 6). What the host sees at an IBUF address at or above ILEN (U3: any value).
Arguments: resets so far, the bytes written, ILEN, the address. -/
opaque freeHostIbufRead : Nat → List Host.Cell → Nat → Nat → Byte

/-- FREE VALUE (log 6). What the host sees at an OBUF address at or above OLEN (U4: any value; old bytes may still
stand there and may not). Arguments: resets so far, the bytes written, OLEN, the address. -/
opaque freeHostObufRead : Nat → List Host.Cell → Nat → Nat → Byte

end Sys2Proof.Config
end

