-- ==== Sys2Proof/Machine/State.lean ====
section
/-! DEFINITION. The state of HFC as plain data (spec/10_state.md), its reset value (R45, R240), and the reasons a step
can stop. Every field is named after the spec's register; INVENTORY.md lists each with its rule. -/

namespace Sys2Proof.Machine

/-- Byte memory: (address, byte) pairs, addresses strictly rising. An address that is not listed has no byte of its own
(log 4), so no listed entry can repeat what an unlisted address reads as. -/
abbrev Mem := List Host.Cell

/-- A table indexed by symbol (R30, R35). -/
abbrev Table (α : Type) := Vector α 256

/-- `kind` of a NODE entry (R31): 0 = Leaf, 1 = Internal. -/
inductive NodeKind where
  | leaf
  | internal
deriving DecidableEq, Repr

/-- One entry of the node store (R31, R104). -/
structure Node where
  kind   : NodeKind
  sym    : Byte
  left   : Handle
  right  : Handle
  weight : U64
deriving DecidableEq, Repr

/-- One entry of the code table (R35, R102). -/
structure CodeEntry where
  valid : Bool
  len   : BitVec 8
  pat   : Pattern
deriving DecidableEq, Repr

/-- One pending right branch of CG.GEN's traversal (R155). -/
structure Frame where
  handle : Handle
  pat    : Pattern
  len    : BitVec 8
deriving DecidableEq, Repr

/-- The state of unit TB: NODE, NN, ROOT, ACTIVE, NACT (R31, R32, R34). -/
structure Tree where
  node   : Vector Node 511
  nn     : BitVec 10
  root   : Handle
  active : Vector Handle 256
  nact   : BitVec 9
deriving DecidableEq, Repr

/-- The error kinds of R211. -/
inductive ErrKind where
  | emptyInput
  | formatError
  | truncatedStream
  | invalidCode
  | streamExhausted
  | illegalCommand
deriving DecidableEq, Repr

/-- A place of one of the six address spaces (R60), as the host names it. -/
inductive Port where
  /-- a register by its number (R23) -/
  | reg (no : Nat)
  /-- a byte of the input buffer -/
  | ibuf (a : Nat)
  /-- a byte of the output buffer -/
  | obuf (a : Nat)
  /-- an entry of the FREQ window (R44) -/
  | freq (i : Nat)
  /-- an entry of the CODE window (R44) -/
  | code (i : Nat)
  /-- an entry of the NODE window (R44) -/
  | node (i : Nat)
deriving DecidableEq, Repr

/-- One transaction of the host (R23, R24, R44, R240). A write to register 0x00, CMD, issues a command. -/
inductive HostAct where
  | write (p : Port) (v : HostWord)
  | read (p : Port)
  | reset
deriving DecidableEq, Repr

structure State where
  -- STATUS (R25)
  busy      : Bool
  treeValid : Bool
  outValid  : Bool
  -- ERR (R26)
  err       : BitVec 4
  -- buffer and header registers (R27, R28, R29, R39)
  ilen      : U64
  olen      : U64
  rpos      : U64
  origSize  : U64
  -- BW operands (R37)
  wbLen     : BitVec 8
  wbVal     : Pattern
  -- writer (R36)
  acc       : Byte
  nbits     : BitVec 3
  -- reader (R38, R40)
  cur       : Byte
  rem       : BitVec 4
  rbit      : Bool
  sym       : Byte
  -- tables (R30, R31, R32, R34, R35)
  freq      : Table U64
  tree      : Tree
  code      : Table CodeEntry
  -- hidden state (R42)
  eidx      : U64
  dcnt      : U64
  curn      : Handle
  stack     : List Frame
  -- buffers (R61, R62)
  ibuf      : Mem
  obuf      : Mem
  -- parameters (R7, D25; log 5): no step changes them
  ibufCap   : U64
  obufCap   : U64
  -- the model's own (log 1, log 4): the host's pending transactions, oldest first; the number of resets so far
  host      : List HostAct
  resets    : Nat
deriving DecidableEq, Repr

/-- Why a step faults. Safe: the model stops where the spec gives no run at all. -/
inductive Fault where
  /-- Raised by CG.GEN (and so by ENC.RUN) when the node store under ROOT is not a tree of children below their parents
  (R138), so that the traversal of R150 has no end. TB.BUILD never leaves such a store (log 13). Safe. -/
  | nodeStoreNotATree
deriving DecidableEq, Repr

/-- Why a step is refused. Safe: the spec gives each of these no meaning. -/
inductive Refusal where
  /-- Raised by exec's arms for an instruction that has no meaning yet; no arm is left so. Safe. -/
  | notModelled (mnemonic : String)
  /-- Raised by every Emit when OLEN has reached OBUF_CAP: "this spec gives it no meaning and a model refuses it" (R62,
  U6). Safe. -/
  | obufFull
  /-- Raised by a host transaction, but for a read of STATUS and RESET, while BUSY = 1 (R250, U1). Safe. -/
  | hostAccessWhileBusy
  /-- Raised by a step with no transaction pending while BUSY = 1: the inside of a command is below the transaction
  level (R15, U1; log 2). Safe. -/
  | commandInProgress
  /-- Raised by a host write of ILEN above IBUF_CAP (R243, U5). Safe. -/
  | ilenAboveCap
  /-- Raised by a host access to IBUF at or above IBUF_CAP, or a host read of OBUF at or above OBUF_CAP. DESIGN CHOICE
  (log 20): no rule says what such an access does. Safe. -/
  | noSuchAddress (a : Nat)
  /-- Raised by a host access to a window index out of range (R44, U9). Safe. -/
  | indexOutOfRange (i : Nat)
  /-- Raised by a host access to a register number above 0x10 (U9). Safe. -/
  | noSuchRegister (no : Nat)
  /-- Raised by a host write of a value with bits above the width of the place written (log 7). Safe. -/
  | valueTooWide
  /-- Raised by a host write to OBUF, which the host only reads (R60, R62; log 9). Safe. -/
  | hostWritesObuf
deriving DecidableEq, Repr

/-- How a piece of a command's pseudocode ends: it runs on, it executes `raise` (R11), or it stops by name. -/
inductive Res where
  | ok (s : State)
  | raise (k : ErrKind) (s : State)
  | fault (f : Fault)
  | refused (r : Refusal)
deriving DecidableEq, Repr

/-- A NODE entry with all fields 0 (R31). -/
abbrev Node.zero : Node := ⟨.leaf, 0#8, 0, 0, 0#64⟩

/-- A CODE entry with all fields 0 (R35). -/
abbrev CodeEntry.zero : CodeEntry := ⟨false, 0#8, 0#255⟩

/-- The tree state after reset (R240). -/
def Tree.reset : Tree where
  node   := Vector.replicate 511 Node.zero
  nn     := 0#10
  root   := 0
  active := Vector.replicate 256 0
  nact   := 0#9

/-- The machine right after reset (R45, R240). The buffers list nothing (log 4); the capacities are the largest a real
buffer can have (log 5); the host has nothing pending (log 1). -/
def State.reset : State where
  busy      := false
  treeValid := false
  outValid  := false
  err       := 0#4
  ilen      := 0#64
  olen      := 0#64
  rpos      := 0#64
  origSize  := 0#64
  wbLen     := 0#8
  wbVal     := 0#255
  acc       := 0#8
  nbits     := 0#3
  cur       := 0#8
  rem       := 0#4
  rbit      := false
  sym       := 0#8
  freq      := Vector.replicate 256 0#64
  tree      := Tree.reset
  code      := Vector.replicate 256 CodeEntry.zero
  eidx      := 0#64
  dcnt      := 0#64
  curn      := 0
  stack     := []
  ibuf      := []
  obuf      := []
  ibufCap   := 0xFFFFFFFFFFFFFFFF#64
  obufCap   := 0xFFFFFFFFFFFFFFFF#64
  host      := []
  resets    := 0

end Sys2Proof.Machine
end

