-- ==== Sys2Proof/Machine/Ops.lean ====
section
/-! DEFINITION. The shared operations: byte memory, table access, the access primitives MemRead and Emit
(spec/20_memory.md R61 to R66), how a command ends (spec/00_scope.md R11, spec/60_exceptions.md R210, R211, R221) and
how pieces of pseudocode are put one after the other (R11, R12). -/

namespace Sys2Proof.Machine

/-! ### Byte memory -/

/-- The byte listed at an address, if one is. -/
def Mem.read : Mem → Nat → Option Byte
  | [], _ => none
  | (b, v) :: m, a => if b = a then some v else Mem.read m a

/-- Write one byte, keeping the addresses strictly rising. -/
def Mem.write : Mem → Nat → Byte → Mem
  | [], a, v => [(a, v)]
  | (b, w) :: m, a, v =>
    if b < a then (b, w) :: Mem.write m a v
    else if b = a then (a, v) :: m
    else (a, v) :: (b, w) :: m

/-- Every address of the memory is at least `lo` and they rise strictly. -/
def Mem.wfFrom : Nat → Mem → Bool
  | _, [] => true
  | lo, (a, _) :: m => decide (lo ≤ a) && Mem.wfFrom (a + 1) m

/-- The canonical form. -/
def Mem.wf (m : Mem) : Bool := Mem.wfFrom 0 m

/-- Every listed address is below `n`. -/
def Mem.below (n : Nat) (m : Mem) : Bool := m.all (fun c => decide (c.1 < n))

/-! ### Tables indexed by symbol -/

/-- Entry `s` of a table (R9). -/
def Table.at {α : Type} (t : Table α) (s : Byte) : α := t[s.toNat]'(s.isLt)

/-- Table with entry `s` written (R9). -/
def Table.put {α : Type} (t : Table α) (s : Byte) (v : α) : Table α := t.set s.toNat v s.isLt

/-- The symbols 0 to 255 in ascending order, the order of every `for s in 0..255` (R12). -/
def allSymbols : List Byte := (List.range 256).map (BitVec.ofNat 8)

/-- Entry `h` of the node store. -/
def Tree.nodeAt (t : Tree) (h : Handle) : Node := t.node[h.val]'(h.isLt)

/-! ### MemRead (R63, R64, R66) -/

/-- `MemRead(a, 1)`: the byte of IBUF at `a`. A byte nothing has written since the last reset is free (log 4). -/
def ibufByte (s : State) (a : Nat) : Byte :=
  (Mem.read s.ibuf a).getD (Config.freeIbufByte s.resets a)

/-- Eight bytes as one number, the first at the low end (R64, R66). -/
def le64Value (b0 b1 b2 b3 b4 b5 b6 b7 : Byte) : U64 :=
  (b7 ++ b6 ++ b5 ++ b4 ++ b3 ++ b2 ++ b1 ++ b0).setWidth 64

/-- `MemRead(a, 8)` (R64). -/
def ibufWord64 (s : State) (a : Nat) : U64 :=
  le64Value (ibufByte s a) (ibufByte s (a + 1)) (ibufByte s (a + 2)) (ibufByte s (a + 3))
    (ibufByte s (a + 4)) (ibufByte s (a + 5)) (ibufByte s (a + 6)) (ibufByte s (a + 7))

/-- The eight bytes of a 64-bit field on the wire, `v[7:0]` first (R65, R181). -/
def le64 (v : U64) : List Byte :=
  [v.extractLsb' 0 8, v.extractLsb' 8 8, v.extractLsb' 16 8, v.extractLsb' 24 8,
   v.extractLsb' 32 8, v.extractLsb' 40 8, v.extractLsb' 48 8, v.extractLsb' 56 8]

/-! ### How a command ends -/

/-- The code of each kind in ERR (R211). -/
def ErrKind.code : ErrKind → BitVec 4
  | .emptyInput => 1#4
  | .formatError => 2#4
  | .truncatedStream => 3#4
  | .invalidCode => 4#4
  | .streamExhausted => 5#4
  | .illegalCommand => 7#4

/-- A command that reaches its end: `ERR <- 0`, and HFC is idle again (R11, R210). -/
def State.finish (s : State) : State := { s with err := 0#4, busy := false }

/-- The one "trap entry" of HFC, the abort of a command (R221): `ERR` takes the code of the kind, `BUSY <- 0`, nothing
is saved, no mode changes and control goes nowhere. There is no return to pair with it (R223): the next command
runs as after a success. -/
def State.abort (k : ErrKind) (s : State) : State := { s with err := k.code, busy := false }

/-- The end of a command, from how its pseudocode ended (R210). -/
def endCommand : Res → Host.Outcome State Fault Refusal
  | .ok s => .next s.finish
  | .raise k s => .next (s.abort k)
  | .fault f => .fault f
  | .refused r => .refused r

/-! ### Sequencing (R11, R12) -/

/-- The next line of pseudocode runs only if the ones before it ran to their end. -/
def Res.bind (r : Res) (f : State → Res) : Res :=
  match r with
  | .ok s => f s
  | .raise k s => .raise k s
  | .fault e => .fault e
  | .refused e => .refused e

/-- A catch, `on <Kind>: <steps>`: the steps run in place of the abort when `k` is raised (R11). -/
def Res.onRaise (k : ErrKind) (r : Res) (f : State → Res) : Res :=
  match r with
  | .ok s => .ok s
  | .raise k' s => if k' = k then f s else .raise k' s
  | .fault e => .fault e
  | .refused e => .refused e

/-! ### Emit (R62, R65) -/

/-- One byte appended: `OBUF[OLEN] <- b; OLEN <- OLEN + 1`. -/
def State.append (s : State) (b : Byte) : State :=
  { s with obuf := Mem.write s.obuf s.olen.toNat b, olen := s.olen + 1#64 }

/-- `Emit(b)` (R65). With `OLEN = OBUF_CAP` it is refused (R62, U6; log 5), so OLEN never wraps (R22). -/
def emit (b : Byte) (s : State) : Res :=
  if s.olen.toNat < s.obufCap.toNat then .ok (s.append b) else .refused .obufFull

/-- Several bytes appended in order. `Emit64(v)` is `emitAll (le64 v)` (R65). -/
def emitAll : List Byte → State → Res
  | [], s => .ok s
  | b :: bs, s => (emit b s).bind (emitAll bs)

/-! ### Named updates of the units' registers -/

/-- ACC and NBITS written (R36). -/
def State.setWriter (s : State) (acc : Byte) (nbits : BitVec 3) : State := { s with acc := acc, nbits := nbits }

/-- The writer empty: `ACC <- 0; NBITS <- 0`. -/
def State.clearWriter (s : State) : State := s.setWriter 0#8 0#3

/-- The reader at an address with no bits held (R174). -/
def State.startReader (s : State) (a : U64) : State := { s with cur := 0#8, rem := 0#4, rpos := a }

/-- TB's state written. -/
def State.setTree (s : State) (t : Tree) : State := { s with tree := t }

end Sys2Proof.Machine
end

