-- ==== Sys2Proof/Machine/Flags.lean ====
section
/-! DEFINITION. The flags (spec/10_state.md R25, R33, R41, R43). HFC has no arithmetic condition codes. -/

namespace Sys2Proof.Machine

/-- STATUS as the host reads it: bit 0 BUSY, bit 1 TREE_VALID, bit 2 OUT_VALID (R25). -/
def State.status (s : State) : BitVec 3 :=
  BitVec.ofBool s.outValid ++ BitVec.ofBool s.treeValid ++ BitVec.ofBool s.busy

/-- TREE_VALID written (R33). -/
def State.setTreeValid (s : State) (v : Bool) : State := { s with treeValid := v }

/-- OUT_VALID written (R41). -/
def State.setOutValid (s : State) (v : Bool) : State := { s with outValid := v }

/-- The precondition of CG.GEN and DEC.SYM: `if TREE_VALID = 0: raise IllegalCommand` (R219). -/
def requireTree (s : State) : Res :=
  if s.treeValid then .ok s else .raise .illegalCommand s

end Sys2Proof.Machine
end

