-- ==== Sys2Proof/Machine/CodeTable.lean ====
section
/-! DEFINITION. Unit CG, the code table generator (spec/43_code_table_generator.md). -/

namespace Sys2Proof.Machine

/-- Appending branch bit `b` to a path: `((pat << 1) OR b, len + 1)` (R101). -/
def extendPath (pat : Pattern) (b : Bool) : Pattern := (pat <<< 1) ||| (BitVec.ofBool b).setWidth 255

/-- All 256 entries of CODE cleared (R150). -/
def clearCode (s : State) : State := { s with code := Vector.replicate 256 CodeEntry.zero }

/-- A leaf met by the traversal: `CODE[sym] <- (valid, len, pat)` (R150). -/
def recordCode (s : State) (sym : Byte) (len : BitVec 8) (pat : Pattern) : State :=
  { s with code := s.code.put sym ⟨true, len, pat⟩ }

/-- A pending right branch pushed on the traversal stack (R155). -/
def State.pushFrame (s : State) (f : Frame) : State := { s with stack := f :: s.stack }

/-- `visit(h, pat, len)` (R150): at a leaf the code is recorded; at an internal node the right branch is kept on the
stack, the left subtree is visited wholly, then the branch is taken back and the right subtree visited. `n` bounds
the depth; a store whose children lie below their parents (R138) never runs out of it (log 13). -/
def visit : Nat → Handle → Pattern → BitVec 8 → State → Res
  | 0, _, _, _, _ => .fault .nodeStoreNotATree
  | n + 1, h, pat, len, s =>
    let nd := s.tree.nodeAt h
    match nd.kind with
    | .leaf => .ok (recordCode s nd.sym len pat)
    | .internal =>
      (visit n nd.left (extendPath pat false) (len + 1#8)
        (s.pushFrame ⟨nd.right, extendPath pat true, len + 1#8⟩)).bind fun s1 =>
      match s1.stack with
      | [] => .fault .nodeStoreNotATree
      | f :: rest => visit n f.handle f.pat f.len { s1 with stack := rest }

/-- `visit(ROOT, 0, 0)` from an empty stack (R150, R155). -/
def traverse (s : State) : Res := visit 511 s.tree.root 0#255 0#8 { s with stack := [] }

/-- The body of CG.GEN (R150). -/
def generateCodes (s : State) : Res := (requireTree s).bind fun s => traverse (clearCode s)

/-- CG.GEN (R150). -/
def execCgGen (s : State) : Host.Outcome State Fault Refusal := endCommand (generateCodes s)

end Sys2Proof.Machine
end

