-- ==== Sys2Proof/Machine/Operands.lean ====
section
/-! DEFINITION. Where the commands' operands come from (spec/30_encoding.md R92): the command word (Decode.lean), the
registers WB_VAL and WB_LEN, the buffer extents, and a code's bits in the order they are sent (R101, R103). -/

namespace Sys2Proof.Machine

/-- The bits of `write_bits(value, length)` in order: `value[length-1]` first, `value[0]` last (R103, R161). -/
def bitsMsbFirst (value : Pattern) (length : Nat) : List Bool :=
  (List.range length).map (fun k => value.getLsbD (length - 1 - k))

/-- The bits of BW.BITS: `WB_VAL[WB_LEN-1:0]`, the bits above ignored (R92). -/
def State.wbBits (s : State) : List Bool := bitsMsbFirst s.wbVal s.wbLen.toNat

/-- The bits of a code (R101): its path from the root. -/
def CodeEntry.bits (e : CodeEntry) : List Bool := bitsMsbFirst e.pat e.len.toNat

/-- The input buffer `IBUF[0..ILEN-1]` as a byte sequence (R27). -/
def State.input (s : State) : List Byte := (List.range s.ilen.toNat).map (ibufByte s)

/-- How many bits the reader can still deliver: those held in CUR and those of the bytes not yet pulled (R172). -/
def State.bitsLeft (s : State) : Nat := s.rem.toNat + 8 * (s.ilen.toNat - s.rpos.toNat)

end Sys2Proof.Machine
end

