-- ==== Sys2Proof/Machine/Container.lean ====
section
/-! DEFINITION. Unit CF, the container formatter (spec/46_container_formatter.md). -/

namespace Sys2Proof.Machine

/-- The function `header` (R181): magic, version, original size, then the 256 counts in symbol order. -/
def header (n : U64) (f : Table U64) : List Byte :=
  [Config.magic0, Config.magic1, Config.magic2, Config.version] ++ le64 n ++
    allSymbols.flatMap (fun s => le64 (f.at s))

/-- `write_header()` (R180). -/
def writeHeader (s : State) : Res := emitAll (header s.origSize s.freq) s

/-- The three checks at the head of `read_header()` (R182): length, magic, version. -/
def headerOk (s : State) : Bool :=
  decide (Config.hdrBytes ≤ s.ilen.toNat) &&
    (ibufByte s 0 == Config.magic0 && ibufByte s 1 == Config.magic1 && ibufByte s 2 == Config.magic2) &&
    ibufByte s 3 == Config.version

/-- The counts of the container in IBUF: `FREQ[s] <- MemRead(12 + 8*s, 8)` (R182). -/
def storedCounts (s : State) : Table U64 :=
  Vector.ofFn (fun i : Fin 256 => ibufWord64 s (Config.countOffset i.val))

/-- The header taken: ORIG_SIZE and FREQ loaded, the reader at the body (R182). -/
def loadHeader (s : State) : State :=
  { s.startReader (BitVec.ofNat 64 Config.hdrBytes) with
    origSize := ibufWord64 s Config.sizeOffset
    freq := storedCounts s }

/-- `read_header()` (R182): all checks come before any write. -/
def readHeader (s : State) : Res :=
  if headerOk s then .ok (loadHeader s) else .raise .formatError s

/-- CF.WRHDR (R180). -/
def execCfWrhdr (s : State) : Host.Outcome State Fault Refusal := endCommand (writeHeader s)

/-- CF.RDHDR (R182). -/
def execCfRdhdr (s : State) : Host.Outcome State Fault Refusal := endCommand (readHeader s)

end Sys2Proof.Machine
end

