-- ==== Sys2Proof/Machine/Frequency.lean ====
section
/-! DEFINITION. Unit FC, the frequency counter (spec/41_frequency_counter.md). -/

namespace Sys2Proof.Machine

/-- `FREQ[b] <- (FREQ[b] + 1) mod 2^64` (R120, R122). -/
def bump (f : Table U64) (b : Byte) : Table U64 := f.put b (f.at b + 1#64)

/-- The function `tally` (R121): the table cleared, then one pass over the bytes in order (R120). -/
def tally (x : List Byte) : Table U64 := x.foldl bump (Vector.replicate 256 0#64)

/-- The body of FC.RUN (R120): `FREQ <- tally(IBUF[0..ILEN-1])`. -/
def countInput (s : State) : State := { s with freq := tally s.input }

/-- FC.RUN (R120). -/
def execFcRun (s : State) : Host.Outcome State Fault Refusal := endCommand (.ok (countInput s))

end Sys2Proof.Machine
end

