-- ==== Sys2Proof/Machine/Reader.lean ====
section
/-! DEFINITION. Unit BR, the bit-stream reader (spec/45_bitstream_reader.md). -/

namespace Sys2Proof.Machine

/-- "pull the next byte from the source": CUR, RPOS and REM after it (R170). -/
def State.pullByte (s : State) : State :=
  { s with cur := ibufByte s s.rpos.toNat, rpos := s.rpos + 1#64, rem := 8#4 }

/-- "the next most-significant unconsumed bit", `CUR[REM - 1]` (R170). -/
def State.nextBit (s : State) : Bool := s.cur.getLsbD (s.rem.toNat - 1)

/-- The bit taken: `REM <- REM - 1; RBIT <- bit` (R170). -/
def State.takeBit (s : State) : State := { s with rem := s.rem - 1#4, rbit := s.nextBit }

/-- `read_bit()` (R170). The bit it returns is RBIT of the state it leaves. -/
def readBit (s : State) : Res :=
  if s.rem = 0#4 then
    if s.ilen.toNat ≤ s.rpos.toNat then .raise .streamExhausted s
    else .ok s.pullByte.takeBit
  else .ok s.takeBit

/-- BR.BIT (R170). -/
def execBrBit (s : State) : Host.Outcome State Fault Refusal := endCommand (readBit s)

end Sys2Proof.Machine
end

