-- ==== Sys2Proof/Machine/TreeBuilder.lean ====
section
/-! DEFINITION. Unit TB, the Huffman tree builder (spec/42_tree_builder.md). -/

namespace Sys2Proof.Machine

/-- A new leaf (R132). -/
def Node.leafOf (sym : Byte) (weight : U64) : Node := ⟨.leaf, sym, 0, 0, weight⟩

/-- A new internal node (R134, R135). -/
def Node.internalOf (left right : Handle) (weight : U64) : Node := ⟨.internal, 0#8, left, right, weight⟩

/-- A node number as a handle. NN is at most 510 wherever a node is made (log 14). -/
def handleOf (n : Nat) : Handle := Fin.ofNat 511 n

/-- `NODE[NN] <- n; NN <- NN + 1`. -/
def Tree.addNode (t : Tree) (n : Node) : Tree :=
  { t with node := t.node.setIfInBounds t.nn.toNat n, nn := t.nn + 1#10 }

/-- `ACTIVE[i]`. Every `i` used is below NACT, hence below 256 (log 14). -/
def Tree.activeAt (t : Tree) (i : Nat) : Handle := t.active[i]?.getD 0

/-- `ACTIVE[i] <- h`. -/
def Tree.setActive (t : Tree) (i : Nat) (h : Handle) : Tree :=
  { t with active := t.active.setIfInBounds i h }

/-- `W(i) = NODE[ACTIVE[i]].weight` (R135). -/
def Tree.weightAt (t : Tree) (i : Nat) : U64 := (t.nodeAt (t.activeAt i)).weight

/-- One symbol of phase collect (R132): a leaf for it if its count is not 0. -/
def collectSym (freq : Table U64) (t : Tree) (s : Byte) : Tree :=
  if freq.at s = 0#64 then t
  else
    let t1 := t.setActive t.nact.toNat (handleOf t.nn.toNat)
    let t2 := { t1 with nact := t1.nact + 1#9 }
    t2.addNode (Node.leafOf s (freq.at s))

/-- Phase collect (R132): "Collects all symbols with nonzero count", in ascending symbol order. -/
def collect (freq : Table U64) (t : Tree) : Tree :=
  allSymbols.foldl (collectSym freq) { t with nn := 0#10, nact := 0#9 }

/-- Phase degenerate (R134): the duplicate leaf, then a root whose weight is the one count. -/
def degenerate (t : Tree) : Tree :=
  let leaf := t.nodeAt 0
  let node := (t.node.setIfInBounds 1 (Node.leafOf leaf.sym leaf.weight)).setIfInBounds 2
    (Node.internalOf 0 1 leaf.weight)
  { node := node, nn := 3#10, root := 2, active := t.active.setIfInBounds 0 2, nact := 1#9 }

/-- The first scan (R135): the slot of the smallest weight, the first-encountered one on a tie. -/
def firstMin (t : Tree) : Nat :=
  (List.range' 1 (t.nact.toNat - 1)).foldl (fun m i => if t.weightAt i < t.weightAt m then i else m) 0

/-- The second scan (R135): the same among the slots other than `m1`. -/
def secondMin (t : Tree) (m1 : Nat) : Nat :=
  (List.range t.nact.toNat).foldl
    (fun m i => if i ≠ m1 ∧ t.weightAt i < t.weightAt m then i else m) (if m1 = 0 then 1 else 0)

/-- Slot `m2` removed, the order of the others kept (R135): every later entry moves down one place. -/
def closeSlot (t : Tree) (m2 : Nat) : Tree :=
  (List.range' m2 (t.nact.toNat - 1 - m2)).foldl (fun t i => t.setActive i (t.activeAt (i + 1))) t

/-- One pass of phase merge (R135): the first-selected node becomes the left child, the second-selected the right; the
sum wraps (R137); the new node takes slot `m1`; slot `m2` is closed. -/
def mergePass (t : Tree) : Tree :=
  let m1 := firstMin t
  let m2 := secondMin t m1
  let node := Node.internalOf (t.activeAt m1) (t.activeAt m2) (t.weightAt m1 + t.weightAt m2)
  let t1 := (t.setActive m1 (handleOf t.nn.toNat)).addNode node
  let t2 := closeSlot t1 m2
  { t2 with nact := t2.nact - 1#9 }

/-- `while NACT > 1` (R135). Each pass takes one from NACT, so NACT passes are enough. -/
def mergeLoop : Nat → Tree → Tree
  | 0, t => t
  | n + 1, t => if t.nact.toNat > 1 then mergeLoop n (mergePass t) else t

/-- Phase merge (R135), ending with `ROOT <- ACTIVE[0]`. -/
def merge (t : Tree) : Tree :=
  let t1 := mergeLoop t.nact.toNat t
  { t1 with root := t1.activeAt 0 }

/-- TB.BUILD on the tree state alone (R130): `none` is the failure EmptyInput, with the state phase fail leaves beside
it (R133). -/
def buildOver (freq : Table U64) (t : Tree) : Bool × Tree :=
  let c := collect freq t
  if c.nact = 0#9 then (false, { c with root := 0 })
  else if c.nact = 1#9 then (true, degenerate c)
  else (true, merge c)

/-- The function `build` (R131): what TB.BUILD leaves for the table, nothing being there before. -/
def build (freq : Table U64) : Bool × Tree := buildOver freq Tree.reset

/-- The body of TB.BUILD (R130): success sets TREE_VALID, failure clears it and raises EmptyInput (R133). -/
def buildTree (s : State) : Res :=
  let (built, t) := buildOver s.freq s.tree
  if built then .ok ((s.setTree t).setTreeValid true)
  else .raise .emptyInput ((s.setTree t).setTreeValid false)

/-- TB.BUILD (R130). -/
def execTbBuild (s : State) : Host.Outcome State Fault Refusal := endCommand (buildTree s)

end Sys2Proof.Machine
end

