-- ==== Sys2Proof/Machine/Writer.lean ====
section
/-! DEFINITION. Unit BW, the bit-stream writer (spec/44_bitstream_writer.md). -/

namespace Sys2Proof.Machine

/-- "shift accumulator left, OR in the new bit" (R160). -/
def shiftIn (acc : Byte) (b : Bool) : Byte := (acc <<< 1) ||| (BitVec.ofBool b).setWidth 8

/-- `write_bit(b)` (R160). The count 8 exists only in here (C2 of spec/90_conflicts.md). -/
def writeBit (b : Bool) (s : State) : Res :=
  let n := s.nbits.toNat + 1
  if n = 8 then (emit (shiftIn s.acc b) s).bind fun s => .ok s.clearWriter
  else .ok (s.setWriter (shiftIn s.acc b) (BitVec.ofNat 3 n))

/-- The bits of a sequence written in order. `write_bits(value, length)` is this on `bitsMsbFirst value length` (R161). -/
def writeBits : List Bool → State → Res
  | [], s => .ok s
  | b :: bs, s => (writeBit b s).bind (writeBits bs)

/-- The padded last byte: "bits to the high-order positions, zeros below" (R162). -/
def padded (acc : Byte) (nbits : Nat) : Byte := acc <<< (8 - nbits)

/-- `flush()` (R162). -/
def flush (s : State) : Res :=
  if s.nbits = 0#3 then .ok s
  else (emit (padded s.acc s.nbits.toNat) s).bind fun s => .ok s.clearWriter

/-- BW.BIT b (R160). -/
def execBwBit (b : Bool) (s : State) : Host.Outcome State Fault Refusal := endCommand (writeBit b s)

/-- BW.BITS (R161). -/
def execBwBits (s : State) : Host.Outcome State Fault Refusal := endCommand (writeBits s.wbBits s)

/-- BW.FLUSH (R162). -/
def execBwFlush (s : State) : Host.Outcome State Fault Refusal := endCommand (flush s)

end Sys2Proof.Machine
end

