-- ==== Sys2Proof/Machine/Sequencer.lean ====
section
/-! DEFINITION. The sequencer (spec/47_sequencer.md): ENC.SYM, ENC.RUN, DEC.SYM, DEC.RUN. -/

namespace Sys2Proof.Machine

/-- `init()`, the first step of a compound command (R192). -/
def State.init (s : State) : State :=
  { s with
    outValid := false, olen := 0#64, acc := 0#8, nbits := 0#3
    cur := 0#8, rem := 0#4, rpos := 0#64, treeValid := false }

/-! ### The encoder -/

/-- `encode_symbol(s)` (R190): "if no valid entry exists or length is 0, fail with `InvalidCode`". -/
def encodeSymbol (sym : Byte) (s : State) : Res :=
  let e := s.code.at sym
  if e.valid = false ∨ e.len = 0#8 then .raise .invalidCode s else writeBits e.bits s

/-- Step 5 of ENC.RUN (R193) for `n` more input bytes, the next at EIDX (log 11). -/
def encodeLoop : Nat → State → Res
  | 0, s => .ok s
  | n + 1, s =>
    (encodeSymbol (ibufByte s s.eidx.toNat) s).bind fun s => encodeLoop n { s with eidx := s.eidx + 1#64 }

/-- `on InvalidCode: flush(); raise InvalidCode` around step 5 (R193, R217). -/
def encodeBody (s : State) : Res :=
  Res.onRaise .invalidCode (encodeLoop s.ilen.toNat { s with eidx := 0#64 }) fun s =>
    (flush s).bind fun s => .raise .invalidCode s

/-- The tree "is discarded after code-table generation (encode)", and `ORIG_SIZE <- ILEN` (R193). -/
def State.discardTreeForHeader (s : State) : State := { s with treeValid := false, origSize := s.ilen }

/-- The body of ENC.RUN (R193). -/
def compressInput (s : State) : Res :=
  (buildTree (countInput s.init)).bind fun s =>
  (generateCodes s).bind fun s =>
  (writeHeader s.discardTreeForHeader).bind fun s =>
  (encodeBody s).bind fun s =>
  (flush s).bind fun s =>
  .ok (s.setOutValid true)

/-- ENC.SYM s (R190). -/
def execEncSym (sym : Byte) (s : State) : Host.Outcome State Fault Refusal := endCommand (encodeSymbol sym s)

/-- ENC.RUN (R193). -/
def execEncRun (s : State) : Host.Outcome State Fault Refusal := endCommand (compressInput s)

/-! ### The decoder -/

/-- The node the walk stands on. -/
def State.walkNode (s : State) : Node := s.tree.nodeAt s.curn

/-- One transition of the walk after a bit was read: left on 0, right on 1 (R194). -/
def State.descend (s : State) : State :=
  { s with curn := if s.rbit then s.walkNode.right else s.walkNode.left }

/-- `while NODE[CURN].kind = Internal` (R195), with `n` bits left in the reader: each pass takes one bit, and with none
left the read_bit of the next pass would fail, which is `on StreamExhausted: raise TruncatedStream`. -/
def walk : Nat → State → Res
  | 0, s => match s.walkNode.kind with
    | .leaf => .ok s
    | .internal => .raise .truncatedStream s
  | n + 1, s => match s.walkNode.kind with
    | .leaf => .ok s
    | .internal =>
      (Res.onRaise .streamExhausted (readBit s) fun s => .raise .truncatedStream s).bind fun s =>
        walk n s.descend

/-- `SYM <- NODE[CURN].sym` (R195). -/
def State.setSym (s : State) : State := { s with sym := s.walkNode.sym }

/-- `decode_symbol()` (R195). -/
def decodeSymbol (s : State) : Res :=
  (walk s.bitsLeft { s with curn := s.tree.root }).bind fun s => emit s.setSym.sym s.setSym

/-- Step 3 of DEC.RUN (R196) for `n` more output positions; DCNT counts the bytes produced so far (R42, log 11). -/
def decodeLoop : Nat → State → Res
  | 0, s => .ok s
  | n + 1, s => (decodeSymbol s).bind fun s => decodeLoop n { s with dcnt := s.dcnt + 1#64 }

/-- `on TruncatedStream: TREE_VALID <- 0; raise TruncatedStream` around step 3 (R196). -/
def decodeBody (s : State) : Res :=
  Res.onRaise .truncatedStream (decodeLoop s.origSize.toNat { s with dcnt := 0#64 }) fun s =>
    .raise .truncatedStream (s.setTreeValid false)

/-- The body of DEC.RUN (R196). -/
def decompressInput (s : State) : Res :=
  (readHeader s.init).bind fun s =>
  (buildTree s).bind fun s =>
  (decodeBody s).bind fun s =>
  .ok ((s.setTreeValid false).setOutValid true)

/-- DEC.SYM (R195). -/
def execDecSym (s : State) : Host.Outcome State Fault Refusal :=
  endCommand ((requireTree s).bind decodeSymbol)

/-- DEC.RUN (R196). -/
def execDecRun (s : State) : Host.Outcome State Fault Refusal := endCommand (decompressInput s)

end Sys2Proof.Machine
end

