-- ==== Sys2Proof/Machine/Dispatch.lean ====
section
/-! DEFINITION. What each command does: one arm per constructor of Instr. -/

namespace Sys2Proof.Machine

def exec (i : Instr) (s : State) : Host.Outcome State Fault Refusal :=
  match i with
  | .fcRun => Sys2Proof.Machine.execFcRun s
  | .tbBuild => Sys2Proof.Machine.execTbBuild s
  | .cgGen => Sys2Proof.Machine.execCgGen s
  | .bwBit b => Sys2Proof.Machine.execBwBit b s
  | .bwBits => Sys2Proof.Machine.execBwBits s
  | .bwFlush => Sys2Proof.Machine.execBwFlush s
  | .brBit => Sys2Proof.Machine.execBrBit s
  | .cfWrhdr => Sys2Proof.Machine.execCfWrhdr s
  | .cfRdhdr => Sys2Proof.Machine.execCfRdhdr s
  | .encSym sym => Sys2Proof.Machine.execEncSym sym s
  | .encRun => Sys2Proof.Machine.execEncRun s
  | .decSym => Sys2Proof.Machine.execDecSym s
  | .decRun => Sys2Proof.Machine.execDecRun s

end Sys2Proof.Machine
end

