-- ==== Sys2Proof/Machine/HostPort.lean ====
section
/-! DEFINITION. What the host sees and writes (spec/10_state.md R23, R24, R44; spec/20_memory.md R60 to R62, R73;
spec/60_exceptions.md R228; spec/70_reset_and_hazards.md R240, R250), but for the write to CMD, which is Command.lean's. -/

namespace Sys2Proof.Machine

/-- `kind` as one bit: 0 = Leaf, 1 = Internal (R104). -/
def NodeKind.bit : NodeKind → BitVec 1
  | .leaf => 0#1
  | .internal => 1#1

/-- A handle as the 9 bits of its field (R104). -/
def handleBits (h : Handle) : BitVec 9 := BitVec.ofNat 9 h.val

/-- A NODE entry as 91 bits: kind, sym, left, right, weight from the top (R104). -/
def Node.pack (n : Node) : BitVec 91 :=
  n.kind.bit ++ n.sym ++ handleBits n.left ++ handleBits n.right ++ n.weight

/-- A CODE entry as 264 bits: valid, len, pat from the top (R102). -/
def CodeEntry.pack (e : CodeEntry) : BitVec 264 := BitVec.ofBool e.valid ++ e.len ++ e.pat

/-- A value as the host's widest word. -/
def toHost {w : Nat} (v : BitVec w) : HostWord := v.setWidth 264

/-- The register a number names, as a value of its own width (R23). CMD reads 0 (WO). -/
def regValue (s : State) : Nat → Option HostWord
  | 0x00 => some 0#264
  | 0x01 => some (toHost s.status)
  | 0x02 => some (toHost s.err)
  | 0x03 => some (toHost s.ilen)
  | 0x04 => some (toHost s.olen)
  | 0x05 => some (toHost s.rpos)
  | 0x06 => some (toHost s.origSize)
  | 0x07 => some (toHost s.wbLen)
  | 0x08 => some (toHost s.wbVal)
  | 0x09 => some (toHost s.acc)
  | 0x0A => some (toHost s.nbits)
  | 0x0B => some (toHost s.cur)
  | 0x0C => some (toHost s.rem)
  | 0x0D => some (toHost (BitVec.ofBool s.rbit))
  | 0x0E => some (toHost s.sym)
  | 0x0F => some (toHost (handleBits s.tree.root))
  | 0x10 => some (toHost s.tree.nn)
  | _ => none

/-- What the host reads from IBUF: the byte there below ILEN, any value at or above it (U3, log 6). -/
def hostIbufByte (s : State) (a : Nat) : Byte :=
  if a < s.ilen.toNat then ibufByte s a else Config.freeHostIbufRead s.resets s.ibuf s.ilen.toNat a

/-- What the host reads from OBUF: the byte emitted there below OLEN, any value at or above it (R62, U4, log 6). -/
def hostObufByte (s : State) (a : Nat) : Byte :=
  if a < s.olen.toNat then (Mem.read s.obuf a).getD (Config.freeHostObufRead s.resets s.obuf s.olen.toNat a)
  else Config.freeHostObufRead s.resets s.obuf s.olen.toNat a

/-- What a place holds, for a host read while HFC is idle (R23, R44, R60). An address at or above the buffer's capacity is
refused: DESIGN CHOICE (log 20). -/
def portValue (s : State) : Port → Host.Outcome HostWord Fault Refusal
  | .reg no => match regValue s no with
    | some v => .next v
    | none => .refused (.noSuchRegister no)
  | .ibuf a => if a < s.ibufCap.toNat then .next (toHost (hostIbufByte s a)) else .refused (.noSuchAddress a)
  | .obuf a => if a < s.obufCap.toNat then .next (toHost (hostObufByte s a)) else .refused (.noSuchAddress a)
  | .freq i => if h : i < 256 then .next (toHost s.freq[i]) else .refused (.indexOutOfRange i)
  | .code i => if h : i < 256 then .next (s.code[i]).pack else .refused (.indexOutOfRange i)
  | .node i => if h : i < 511 then .next (toHost (s.tree.node[i]).pack) else .refused (.indexOutOfRange i)

/-- A host read: allowed while idle, and of STATUS always (R73, R250, U1). It changes nothing (R70). -/
def hostRead (s : State) (p : Port) : Host.Outcome HostWord Fault Refusal :=
  if s.busy ∧ p ≠ .reg 0x01 then .refused .hostAccessWhileBusy else portValue s p

/-- The value fits in the width of the place (log 7). -/
def fits (w : Nat) (v : HostWord) : Bool := decide (v.toNat < 2 ^ w)

/-- A write of a place of width `w`, refused when the value has bits above it (log 7). -/
def writeField (w : Nat) (v : HostWord) (f : BitVec w → State) : Host.Outcome State Fault Refusal :=
  if fits w v then .next (f (v.setWidth w)) else .refused .valueTooWide

/-- A host write to a register other than CMD while idle (R23): the RW registers ILEN, ORIG_SIZE, WB_LEN, WB_VAL take
the value; a write to an RO register is ignored (R228). ILEN above IBUF_CAP is refused (U5). -/
def writeReg (s : State) (no : Nat) (v : HostWord) : Host.Outcome State Fault Refusal :=
  if no = 0x03 then
    if fits 64 v && !decide (v.toNat ≤ s.ibufCap.toNat) then .refused .ilenAboveCap
    else writeField 64 v fun x => { s with ilen := x }
  else if no = 0x06 then writeField 64 v fun x => { s with origSize := x }
  else if no = 0x07 then writeField 8 v fun x => { s with wbLen := x }
  else if no = 0x08 then writeField 255 v fun x => { s with wbVal := x }
  else if no ≤ 0x10 then .next s
  else .refused (.noSuchRegister no)

/-- A host write while idle to any place but CMD: IBUF and FREQ are writable, CODE and NODE are read-only windows, so a
write is ignored (log 8), and OBUF is the host's to read only (log 9). A write of IBUF at or above IBUF_CAP is refused:
DESIGN CHOICE (log 20). -/
def writePort (s : State) (v : HostWord) : Port → Host.Outcome State Fault Refusal
  | .reg no => writeReg s no v
  | .ibuf a =>
    if a < s.ibufCap.toNat then writeField 8 v fun x => { s with ibuf := Mem.write s.ibuf a x }
    else .refused (.noSuchAddress a)
  | .obuf _ => .refused .hostWritesObuf
  | .freq i =>
    if i < 256 then writeField 64 v fun x => { s with freq := s.freq.setIfInBounds i x }
    else .refused (.indexOutOfRange i)
  | .code i => if i < 256 then .next s else .refused (.indexOutOfRange i)
  | .node i => if i < 511 then .next s else .refused (.indexOutOfRange i)

/-- The reset event (R240): every register, table and hidden counter to its reset value; the buffers' contents any
value, so they list nothing and the free bytes are new ones (log 4); the parameters and what the host is still going
to do are not HFC's (log 18). -/
def resetEvent (s : State) : State :=
  { State.reset with ibufCap := s.ibufCap, obufCap := s.obufCap, host := s.host, resets := s.resets + 1 }

end Sys2Proof.Machine
end

