-- ==== Sys2Proof/Machine/Command.lean ====
section
/-! DEFINITION. The CMD write and one transaction of the host (spec/10_state.md R24, R25; spec/30_encoding.md R93;
spec/60_exceptions.md R218, R233; spec/70_reset_and_hazards.md R240, R242, R250). -/

namespace Sys2Proof.Machine

/-- BUSY is 1 from the write of CMD until the command has ended (R25). -/
def State.setBusy (s : State) : State := { s with busy := true }

/-- A command word written to CMD while idle: the command it selects is executed; a word that selects none "executes
nothing and sets `ERR <- 7`" (R93, R218). -/
def issue (w : Word) (s : State) : Host.Outcome State Fault Refusal :=
  match decode w with
  | .command i => exec i s.setBusy
  | .illegal _ => .next (s.setBusy.abort .illegalCommand)

/-- A host write (R23, R24): to register 0x00 it issues a command. While BUSY it is refused (R250, U1). -/
def hostWrite (s : State) (p : Port) (v : HostWord) : Host.Outcome State Fault Refusal :=
  if s.busy then .refused .hostAccessWhileBusy
  else if p = .reg 0x00 then
    if fits 16 v then issue (v.setWidth 16) s else .refused .valueTooWide
  else writePort s v p

/-- One transaction of the host. A read answers `hostRead` and changes nothing (R70). -/
def transact (a : HostAct) (s : State) : Host.Outcome State Fault Refusal :=
  match a with
  | .write p v => hostWrite s p v
  | .read p => match hostRead s p with
    | .next _ => .next s
    | .fault f => .fault f
    | .refused r => .refused r
  | .reset => .next (resetEvent s)

/-- No transaction pending: "idle keeps all state; nothing wakes it but a CMD write" (R233). The inside of a command
(BUSY = 1) is below the transaction level (log 2). -/
def idle (s : State) : Host.Outcome State Fault Refusal :=
  if s.busy then .refused .commandInProgress else .next s

/-- The transaction taken from the host's pending ones. -/
def State.popHost (s : State) (rest : List HostAct) : State := { s with host := rest }

/-- One step: the oldest pending transaction, or idling (log 1). -/
def stepTransaction (s : State) : Host.Outcome State Fault Refusal :=
  match s.host with
  | [] => idle s
  | a :: rest => transact a (s.popHost rest)

/-- The write of a command word to CMD, as a transaction. -/
def cmdWrite (w : Nat) : HostAct := .write (.reg 0x00) (BitVec.ofNat 264 w)

/-- A host that is idle and whose next transaction is the given one. -/
def State.pushHost (s : State) (a : HostAct) : State := { s with host := a :: s.host, busy := false }

end Sys2Proof.Machine
end

