-- ==== Sys2Proof/Machine/Step.lean ====
section
/-! DEFINITION. One step of HFC and its host (log 1), and where a step takes its next command from. -/

namespace Sys2Proof.Machine

/-- One step (Command.lean). -/
def step (s : State) : Host.Outcome State Fault Refusal := stepTransaction s

/-- The state whose very next step runs the command with bits `w` (`nbits` of them, the bits above 0): the host's next
transaction is the write of that word to CMD (log 1, log 16). -/
def State.withFetchWord (s : State) (nbits w : Nat) : State := s.pushHost (cmdWrite (w % 2 ^ nbits))

end Sys2Proof.Machine
end

