-- ==== Sys2Proof/Machine/Functions.lean ====
section
/-! DEFINITION. The pure functions of spec/00_scope.md R13 that no command calls but the claims speak of: `codes`
(R151), `pack` (R164), `compress` (R197), `decompress` (R198). `tally` is in Frequency.lean, `build` in TreeBuilder.lean
and `header` in Container.lean. -/

namespace Sys2Proof.Machine

/-! ### codes -/

/-- The code table after the leaves under `h` have been met in order, the left subtree wholly before the right (R151).
`n` bounds the depth. -/
def codesUnder (t : Tree) : Nat → Handle → Pattern → BitVec 8 → Table CodeEntry → Table CodeEntry
  | 0, _, _, _, c => c
  | n + 1, h, pat, len, c =>
    let nd := t.nodeAt h
    match nd.kind with
    | .leaf => c.put nd.sym ⟨true, len, pat⟩
    | .internal =>
      codesUnder t n nd.right (extendPath pat true) (len + 1#8)
        (codesUnder t n nd.left (extendPath pat false) (len + 1#8) c)

/-- `codes(T)` (R151). -/
def codes (t : Tree) : Table CodeEntry :=
  codesUnder t 511 t.root 0#255 0#8 (Vector.replicate 256 CodeEntry.zero)

/-! ### pack -/

/-- Byte `j` of a packed bit sequence: bit `7 - i` is bit `8 j + i` of the sequence, 0 beyond its end (R164). -/
def packByte (bits : List Bool) (j : Nat) : Byte :=
  (List.range 8).foldl (fun acc i => shiftIn acc (bits.getD (8 * j + i) false)) 0#8

/-- `pack` (R164): `ceil(T / 8)` bytes, most significant bit first, the last zero-padded. -/
def pack (bits : List Bool) : List Byte := (List.range ((bits.length + 7) / 8)).map (packByte bits)

/-- The bits of a byte sequence, most significant bit of each byte first (R105, R198). -/
def bitsOfBytes (bs : List Byte) : List Bool :=
  bs.flatMap fun b => (List.range 8).map fun i => b.getLsbD (7 - i)

/-! ### compress -/

/-- `K[x0] ++ K[x1] ++ ...` (R103, R197). -/
def bodyBits (k : Table CodeEntry) (x : List Byte) : List Bool := x.flatMap fun s => (k.at s).bits

/-- `compress` (R197). -/
def compress (x : List Byte) : Except ErrKind (List Byte) :=
  if x = [] then .error .emptyInput
  else
    let f := tally x
    .ok (header (BitVec.ofNat 64 x.length) f ++ pack (bodyBits (codes (build f).2) x))

/-! ### decompress -/

/-- Eight bytes of a sequence as a number, least significant first (R64, R198). -/
def le64At (c : List Byte) (a : Nat) : U64 :=
  le64Value (c.getD a 0#8) (c.getD (a + 1) 0#8) (c.getD (a + 2) 0#8) (c.getD (a + 3) 0#8)
    (c.getD (a + 4) 0#8) (c.getD (a + 5) 0#8) (c.getD (a + 6) 0#8) (c.getD (a + 7) 0#8)

/-- The counts a container stores (R98, R198). -/
def countsOf (c : List Byte) : Table U64 :=
  Vector.ofFn fun i : Fin 256 => le64At c (Config.countOffset i.val)

/-- Walking the tree from `h` along a bit sequence to a leaf: its symbol and the bits left, or `none` if the bits run
out first (R194, R198). -/
def walkBits (t : Tree) : Handle → List Bool → Option (Byte × List Bool)
  | h, [] => match (t.nodeAt h).kind with
    | .leaf => some ((t.nodeAt h).sym, [])
    | .internal => none
  | h, b :: bs => match (t.nodeAt h).kind with
    | .leaf => some ((t.nodeAt h).sym, b :: bs)
    | .internal => walkBits t (if b then (t.nodeAt h).right else (t.nodeAt h).left) bs

/-- Up to `n` symbols, each by a walk from the root, and whether there were bits for all of them (R198). -/
def decodeBits (t : Tree) : Nat → List Bool → List Byte × Bool
  | 0, _ => ([], true)
  | n + 1, bits => match walkBits t t.root bits with
    | none => ([], false)
    | some (sym, rest) => (sym :: (decodeBits t n rest).1, (decodeBits t n rest).2)

/-- The format checks on a container as bytes (R198). -/
def formatOk (c : List Byte) : Bool :=
  decide (Config.hdrBytes ≤ c.length) &&
    (c.take 4 == [Config.magic0, Config.magic1, Config.magic2, Config.version])

/-- `decompress` (R198). -/
def decompress (c : List Byte) : Except ErrKind (List Byte) :=
  if formatOk c then
    let built := build (countsOf c)
    if built.1 then
      let out := decodeBits built.2 (le64At c Config.sizeOffset).toNat (bitsOfBytes (c.drop Config.hdrBytes))
      if out.2 then .ok out.1 else .error .truncatedStream
    else .error .emptyInput
  else .error .formatError

end Sys2Proof.Machine
end

