-- ==== Sys2Proof/Safety.lean ====
section
/-! DEFINITION. The terms the claims use: a step that goes on, a run of commands, what has been appended to OBUF, what a
command leaves alone, and the invariant of the machine. -/

namespace Sys2Proof.Machine

/-- A step that goes on. Every stop of this machine (a fault or a refusal) is a step that is not safe. -/
def Safe (s : State) : Prop := ∃ t, step s = .next t

/-- Several commands, one after the other, stopping at the first that does not go on. -/
def execAll : List Instr → State → Host.Outcome State Fault Refusal
  | [], s => .next s
  | i :: is, s => match exec i s with
    | .next t => execAll is t
    | .fault f => .fault f
    | .refused r => .refused r

/-- From `s` to `t` exactly the bytes `bs` were appended to OBUF: they stand from OLEN on, OLEN grew by their number,
and every other byte reads as before (R62, R65). -/
def Appended (s t : State) (bs : List Byte) : Prop :=
  t.olen.toNat = s.olen.toNat + bs.length ∧
  (∀ i, (h : i < bs.length) → Mem.read t.obuf (s.olen.toNat + i) = some bs[i]) ∧
  (∀ a, a < s.olen.toNat ∨ s.olen.toNat + bs.length ≤ a → Mem.read t.obuf a = Mem.read s.obuf a)

/-- The bytes OBUF holds as output: `OBUF[0..OLEN-1]` is exactly `bs` (R28). -/
def OutputIs (t : State) (bs : List Byte) : Prop :=
  t.olen.toNat = bs.length ∧ ∀ i, (h : i < bs.length) → Mem.read t.obuf i = some bs[i]

/-! ### The validity of output (R222) -/

/-- The commands run from `s` one after the other all go on, and none appends to OBUF or restarts it: each leaves OLEN as
it was (R28, R222). -/
def AppendNothing : List Instr → State → Prop
  | [], _ => True
  | i :: is, s => ∃ t, exec i s = .next t ∧ t.olen = s.olen ∧ AppendNothing is t

/-- R222's condition under which "a host takes OBUF as a container or as decoded output", as the host sees it: OUT_VALID
is 1 and OLEN is still what the most recent compound command left, in the state `t`. -/
def ResultStands (t u : State) : Prop := u.outValid = true ∧ u.olen = t.olen

/-! ### Frames: groups of state a command leaves alone -/

/-- What only the host writes, and the model's own fields: ILEN, WB_LEN, WB_VAL, IBUF (every byte), the parameters, the
host's pending transactions, the number of resets (R27, R37, R61). -/
def SameHostSide (s t : State) : Prop :=
  t.ilen = s.ilen ∧ t.wbLen = s.wbLen ∧ t.wbVal = s.wbVal ∧ t.ibuf = s.ibuf ∧ t.ibufCap = s.ibufCap ∧
  t.obufCap = s.obufCap ∧ t.host = s.host ∧ t.resets = s.resets

/-- OBUF (every byte) and OLEN. -/
def SameOutput (s t : State) : Prop := t.olen = s.olen ∧ ∀ a, Mem.read t.obuf a = Mem.read s.obuf a

/-- ACC and NBITS. -/
def SameWriter (s t : State) : Prop := t.acc = s.acc ∧ t.nbits = s.nbits

/-- CUR, REM, RPOS, RBIT. -/
def SameReader (s t : State) : Prop := t.cur = s.cur ∧ t.rem = s.rem ∧ t.rpos = s.rpos ∧ t.rbit = s.rbit

/-- FREQ and ORIG_SIZE. -/
def SameHeader (s t : State) : Prop := t.freq = s.freq ∧ t.origSize = s.origSize

/-- NODE, NN, ROOT, ACTIVE, NACT and TREE_VALID. -/
def SameTree (s t : State) : Prop := t.tree = s.tree ∧ t.treeValid = s.treeValid

/-- EIDX, DCNT, CURN and the traversal stack (R42). -/
def SameHidden (s t : State) : Prop :=
  t.eidx = s.eidx ∧ t.dcnt = s.dcnt ∧ t.curn = s.curn ∧ t.stack = s.stack

/-! ### What a command may raise, what reset leaves -/

/-- The column "Raised by" of R211, by command. A word that is no command is not here (R218). -/
def raisedBy : Instr → List ErrKind
  | .fcRun => []
  | .tbBuild => [.emptyInput]
  | .cgGen => [.illegalCommand]
  | .bwBit _ => []
  | .bwBits => []
  | .bwFlush => []
  | .brBit => [.streamExhausted]
  | .cfWrhdr => []
  | .cfRdhdr => [.formatError]
  | .encSym _ => [.invalidCode]
  | .encRun => [.emptyInput, .invalidCode]
  | .decSym => [.illegalCommand, .truncatedStream]
  | .decRun => [.formatError, .emptyInput, .truncatedStream]

/-- The compound commands (R2, R41); the other eleven are primitive. -/
def compound : Instr → Bool
  | .fcRun => false
  | .tbBuild => false
  | .cgGen => false
  | .bwBit _ => false
  | .bwBits => false
  | .bwFlush => false
  | .brBit => false
  | .cfWrhdr => false
  | .cfRdhdr => false
  | .encSym _ => false
  | .encRun => true
  | .decSym => false
  | .decRun => true

/-- The table of R240, row by row, but for the rows of the buffers' contents (unspecified) and of CMD (holds nothing). -/
def State.IsReset (t : State) : Prop :=
  t.busy = false ∧ t.treeValid = false ∧ t.outValid = false ∧ t.err = 0#4 ∧
  t.ilen = 0#64 ∧ t.olen = 0#64 ∧ t.rpos = 0#64 ∧ t.origSize = 0#64 ∧ t.wbVal = 0#255 ∧ t.wbLen = 0#8 ∧
  t.acc = 0#8 ∧ t.nbits = 0#3 ∧ t.cur = 0#8 ∧ t.rem = 0#4 ∧ t.rbit = false ∧ t.sym = 0#8 ∧
  t.tree.root = 0 ∧ t.tree.nn = 0#10 ∧ t.tree.nact = 0#9 ∧
  (∀ c, t.freq.at c = 0#64) ∧ (∀ h, t.tree.nodeAt h = Node.zero) ∧ (∀ i, (hi : i < 256) → t.tree.active[i] = 0) ∧
  (∀ c, t.code.at c = CodeEntry.zero) ∧
  t.eidx = 0#64 ∧ t.dcnt = 0#64 ∧ t.curn = 0 ∧ t.stack = []

/-! ### Bits on their way out and in -/

/-- `write_bits(v, len)` as arithmetic (R160, R161): the pending bits and the new ones are one number of
`NBITS + len` bits; its whole bytes from the top are appended to OBUF, what is left over is pending; `ERR <- 0`; nothing
else changes. (`ACC < 2^NBITS`, R165, is a premise where this is used.) -/
def WritesBits (s t : State) (v len : Nat) : Prop :=
  let n := s.nbits.toNat + len
  let all := s.acc.toNat * 2 ^ len + v % 2 ^ len
  Appended s t ((List.range (n / 8)).map fun j => BitVec.ofNat 8 (all / 2 ^ (n - 8 * (j + 1)))) ∧
  t.nbits = BitVec.ofNat 3 (n % 8) ∧ t.acc = BitVec.ofNat 8 (all % 2 ^ (n % 8)) ∧
  t = { s with obuf := t.obuf, olen := t.olen, acc := t.acc, nbits := t.nbits, err := 0#4, busy := false }

/-- The bits of one byte of IBUF, most significant first (R67, R105). -/
def ibufBits (s : State) (a : Nat) : List Bool := (List.range 8).map fun i => (ibufByte s a).getLsbD (7 - i)

/-- The bits of the `n` bytes of IBUF from `a` on. -/
def ibufBitsFrom (s : State) : Nat → Nat → List Bool
  | _, 0 => []
  | a, n + 1 => ibufBits s a ++ ibufBitsFrom s (a + 1) n

/-- The bits held in CUR, next one first (R38). -/
def State.held (s : State) : List Bool := (List.range s.rem.toNat).map fun k => s.cur.getLsbD (s.rem.toNat - 1 - k)

/-- All the bits the reader can still deliver, in order (R170). -/
def State.unread (s : State) : List Bool :=
  s.held ++ ibufBitsFrom s s.rpos.toNat (s.ilen.toNat - s.rpos.toNat)

/-- The reader `n` bits further on (R38, R39, R170, R172): a byte is pulled only when a bit of it is asked for, so the bytes
pulled are those that the bits not held before need; REM is what is left of the last of them; CUR is the last byte
pulled, the old one if none was. -/
def ReaderAfter (s t : State) (n : Nat) : Prop :=
  let pulled := (n - s.rem.toNat + 7) / 8
  t.rpos.toNat = s.rpos.toNat + pulled ∧
  t.rem.toNat + n = s.rem.toNat + 8 * pulled ∧
  (s.rem.toNat ≤ 7 → t.rem.toNat ≤ 7) ∧
  t.cur = if pulled = 0 then s.cur else ibufByte s (s.rpos.toNat + pulled - 1)

/-- The bits left after up to `n` symbols have been decoded, each by a walk from the root; none once a walk runs out of
bits (R196, R198). -/
def bitsAfter (t : Tree) : Nat → List Bool → List Bool
  | 0, bits => bits
  | n + 1, bits => match walkBits t t.root bits with
    | none => []
    | some (_, rest) => bitsAfter t n rest

/-! ### Trees -/

/-- The symbols with a nonzero count, in ascending order (R132). -/
def occurring (freq : Table U64) : List Byte := allSymbols.filter fun c => freq.at c ≠ 0#64

/-- The handles reachable from `h`, `n` levels deep at most. -/
def Tree.handlesUnder (t : Tree) : Nat → Handle → List Handle
  | 0, _ => []
  | n + 1, h => match (t.nodeAt h).kind with
    | .leaf => [h]
    | .internal => t.handlesUnder n (t.nodeAt h).left ++ t.handlesUnder n (t.nodeAt h).right ++ [h]

/-- The leaves under `h` from left to right, `n` levels deep at most: each leaf's symbol and its depth below `h`. -/
def Tree.leavesUnder (t : Tree) : Nat → Handle → List (Byte × Nat)
  | 0, _ => []
  | n + 1, h => match (t.nodeAt h).kind with
    | .leaf => [((t.nodeAt h).sym, 0)]
    | .internal => (t.leavesUnder n (t.nodeAt h).left ++ t.leavesUnder n (t.nodeAt h).right).map
        fun p => (p.1, p.2 + 1)

/-! ### The invariant -/

/-- Every internal node's children have lower handles than it has (R138 (d)), so a walk down ends. It holds of all 511
entries: TB.BUILD writes no other, and the all-zero store has no internal node. -/
def Tree.Descending (t : Tree) : Prop :=
  ∀ h : Handle, (t.nodeAt h).kind = .internal → (t.nodeAt h).left < h ∧ (t.nodeAt h).right < h

/-- The height of the subtree under `h`, `n` levels deep at most. -/
def Tree.height (t : Tree) : Nat → Handle → Nat
  | 0, _ => 0
  | n + 1, h => match (t.nodeAt h).kind with
    | .leaf => 0
    | .internal => max (t.height n (t.nodeAt h).left) (t.height n (t.nodeAt h).right) + 1

/-- What holds of the tree while TREE_VALID is 1: ROOT is internal (R138 (c)) and the last node made (R32), every leaf
is at most 255 deep (R138 (f)), and ACTIVE holds the root alone (R34). -/
def Tree.Rooted (t : Tree) : Prop :=
  (t.nodeAt t.root).kind = .internal ∧ t.nn.toNat = t.root.val + 1 ∧ t.height 511 t.root ≤ 255 ∧
  t.nact = 1#9 ∧ t.active[0] = t.root

/-- A CODE entry as CG.GEN and reset leave it: a valid one has a length of at least 1 and no pattern bit at or above its
length, an invalid one is all zero (R35, R150, R154). -/
def CodeEntry.Proper (e : CodeEntry) : Prop :=
  (e.valid = true → 1 ≤ e.len.toNat ∧ e.pat.toNat < 2 ^ e.len.toNat) ∧ (e.valid = false → e = CodeEntry.zero)

/-- The invariant of the machine between transactions. -/
structure State.Inv (s : State) : Prop where
  /-- every host read sees BUSY = 0 (R25) -/
  idle : s.busy = false
  /-- "Legal values 0 to 5 and 7; 6 is never written by HFC" (R26) -/
  errLegal : s.err ≠ 6#4 ∧ s.err.toNat ≤ 7
  /-- `ACC < 2^NBITS` (R165) -/
  writer : s.acc.toNat < 2 ^ s.nbits.toNat
  /-- between commands REM holds 0 to 7 (R170) -/
  reader : s.rem.toNat ≤ 7
  /-- both buffers in canonical form, within their capacities (R62, D25) -/
  ibufWf : Mem.wf s.ibuf = true ∧ Mem.below s.ibufCap.toNat s.ibuf = true
  obufWf : Mem.wf s.obuf = true ∧ Mem.below s.obufCap.toNat s.obuf = true
  /-- `ILEN ≤ IBUF_CAP`, `OLEN ≤ OBUF_CAP` (R22, R27) -/
  lengths : s.ilen.toNat ≤ s.ibufCap.toNat ∧ s.olen.toNat ≤ s.obufCap.toNat
  /-- every byte below OLEN is one that was emitted (R28) -/
  outputListed : ∀ a, a < s.olen.toNat → (Mem.read s.obuf a).isSome = true
  /-- the traversal stack is empty before and after a command (R155) -/
  stackEmpty : s.stack = []
  /-- the node store (R31, R32, R138) -/
  nodes : s.tree.nn.toNat ≤ 511 ∧ s.tree.Descending
  rooted : s.treeValid = true → s.tree.Rooted
  /-- the code table (R35) -/
  codeProper : ∀ c, (s.code.at c).Proper

end Sys2Proof.Machine
end

