-- ==== Sys2Proof/Certificates/Slice0/Obligations.lean ====
section
/-! DEFINITION. The statements about HFC that the provers are given. Each docstring names the rules of spec/ it rests on;
a clause that rests on a choice of this model names the log entry. -/

open Sys2Proof Sys2Proof.Machine

/-! ### Command words -/

/-- R90 to R92. A word decodes to a command exactly when it is that command's encoding, for every command and every
value of its operand. -/
def Obligations.DecodeEncodeAgree : Prop :=
  ∀ (i : Instr) (w : Word), i.wellFormed = true → (decode w = .command i ↔ w = encode i)

/-- R91. The map has thirteen rows, and no two rows select the same word. -/
def Obligations.OpcodeRowsDisjoint : Prop :=
  opcodeTable.length = 13 ∧
  opcodeTable.Pairwise fun r q => ∀ w, ¬ (r.selects w = true ∧ q.selects w = true)

/-- R93, R218. Exactly 269 words are commands, and a word that matches no row of R91, written to CMD, executes nothing and
changes no state except `ERR <- 7`. -/
def Obligations.IllegalWordOnlySetsErr : Prop :=
  (∃ l : List Word, l.Nodup ∧ l.length = 269 ∧ ∀ w, w ∈ l ↔ ∃ i, decode w = .command i) ∧
  (∀ w : Word, (∀ r ∈ opcodeTable, w &&& r.mask ≠ r.pattern) ↔ ∀ i, decode w ≠ .command i) ∧
  ∀ (s : State) (w : Word) (rest : List HostAct), s.busy = false →
    (∀ r ∈ opcodeTable, w &&& r.mask ≠ r.pattern) →
    s.host = .write (.reg 0x00) (w.setWidth 264) :: rest →
    step s = .next { s with host := rest, err := 7#4 }

/-- R91, R92. A few words written out bit by bit from the spec's table decode to the commands they stand for, and words
with a must-be-zero bit set do not. -/
def Obligations.SpecWordsDecode : Prop :=
  decode 0b0000000000010000#16 = .command .fcRun ∧
  decode 0b0000000000100000#16 = .command .tbBuild ∧
  decode 0b0000000000110000#16 = .command .cgGen ∧
  decode 0b0000000001000000#16 = .command (.bwBit false) ∧
  decode 0b0000000101000000#16 = .command (.bwBit true) ∧
  decode 0b0000000001000001#16 = .command .bwBits ∧
  decode 0b0000000001000010#16 = .command .bwFlush ∧
  decode 0b0000000001010000#16 = .command .brBit ∧
  decode 0b0000000001100000#16 = .command .cfWrhdr ∧
  decode 0b0000000001100001#16 = .command .cfRdhdr ∧
  decode 0b0110000101110000#16 = .command (.encSym 0x61#8) ∧
  decode 0b0000000001110001#16 = .command .encRun ∧
  decode 0b0000000001111000#16 = .command .decSym ∧
  decode 0b0000000001111001#16 = .command .decRun ∧
  decode 0b0000000100010000#16 = .illegal (.mustBeZero 0x10#8 0x01#8) ∧
  decode 0b0000001001000000#16 = .illegal (.mustBeZero 0x40#8 0x02#8) ∧
  decode 0b0000000000000000#16 = .illegal (.unknownOpcode 0x00#8)

/-! ### One step -/

/-- R24, R93. When the host's next transaction (log 1) writes a word that decodes to a command to CMD while HFC is idle,
the step is `exec` of that command, with BUSY raised and the transaction taken; and the same through `withFetchWord`. -/
def Obligations.StepRunsDecodedCommand : Prop :=
  (∀ (s : State) (w : Word) (i : Instr) (rest : List HostAct), s.busy = false →
    s.host = .write (.reg 0x00) (w.setWidth 264) :: rest → decode w = .command i →
    step s = exec i { s with host := rest, busy := true }) ∧
  ∀ (s : State) (w : Word) (i : Instr), decode w = .command i →
    step (s.withFetchWord 16 w.toNat) = exec i { s with busy := true }

/-- R233, R70 (log 1). Idle with nothing pending, HFC keeps all state; a host read that is answered changes nothing. -/
def Obligations.IdleKeepsAllState : Prop :=
  (∀ s : State, s.busy = false → s.host = [] → step s = .next s) ∧
  ∀ (s : State) (p : Port) (v : HostWord) (rest : List HostAct), s.host = .read p :: rest →
    hostRead { s with host := rest } p = .next v → step s = .next { s with host := rest }

/-- R250, R73, R24 (U1). While BUSY is 1 the only host transactions that are not refused are a read of STATUS and
the reset. -/
def Obligations.BusyRefusesHost : Prop :=
  ∀ (s : State) (a : HostAct) (rest : List HostAct), s.busy = true → s.host = a :: rest →
    (a ≠ .read (.reg 0x01) → a ≠ .reset → step s = .refused .hostAccessWhileBusy) ∧
    (a = .read (.reg 0x01) → step s = .next { s with host := rest })

/-- R240, R45, U15. The reset event, idle or during a command, leaves every register, table and hidden counter at the
value of R240's table. That the parameters and what the host is still going to do are kept is the model's choice, no
rule's (log 18). -/
def Obligations.ResetEventClearsState : Prop :=
  State.reset.IsReset ∧
  ∀ (s : State) (rest : List HostAct), s.host = .reset :: rest →
    ∃ t, step s = .next t ∧ t.IsReset ∧
      t.ibufCap = s.ibufCap ∧ t.obufCap = s.obufCap ∧ t.host = rest

/-- R23, R228, R27, R29, R37. A host write while idle to an RW register writes it and nothing else; a write to an RO
register is ignored; ILEN above IBUF_CAP is refused (R243, U5; log 5). Values wider than the register are log 7's. -/
def Obligations.HostWritesRegisters : Prop :=
  ∀ (s : State) (no : Nat) (v : HostWord) (rest : List HostAct), s.busy = false →
    s.host = .write (.reg no) v :: rest →
    (no = 0x03 → v.toNat ≤ s.ibufCap.toNat → step s = .next { s with host := rest, ilen := v.setWidth 64 }) ∧
    (no = 0x03 → s.ibufCap.toNat < v.toNat → v.toNat < 2 ^ 64 → step s = .refused .ilenAboveCap) ∧
    (no = 0x06 → v.toNat < 2 ^ 64 → step s = .next { s with host := rest, origSize := v.setWidth 64 }) ∧
    (no = 0x07 → v.toNat < 2 ^ 8 → step s = .next { s with host := rest, wbLen := v.setWidth 8 }) ∧
    (no = 0x08 → v.toNat < 2 ^ 255 → step s = .next { s with host := rest, wbVal := v.setWidth 255 }) ∧
    (no ∈ [0x01, 0x02, 0x04, 0x05, 0x09, 0x0A, 0x0B, 0x0C, 0x0D, 0x0E, 0x0F, 0x10] →
      step s = .next { s with host := rest })

/-- R44, R60, R61. A host write while idle to IBUF or to FREQ writes that byte or entry and nothing else, every other byte
of IBUF reading as before; a write to the read-only windows CODE and NODE is ignored (log 8). -/
def Obligations.HostWritesBuffersAndWindows : Prop :=
  ∀ (s : State) (p : Port) (v : HostWord) (rest : List HostAct), s.busy = false → s.host = .write p v :: rest →
    (∀ a, p = .ibuf a → a < s.ibufCap.toNat → v.toNat < 2 ^ 8 →
      ∃ t, step s = .next t ∧ Mem.read t.ibuf a = some (v.setWidth 8) ∧
        (∀ x, x ≠ a → Mem.read t.ibuf x = Mem.read s.ibuf x) ∧ t = { s with host := rest, ibuf := t.ibuf }) ∧
    (∀ i, p = .freq i → i < 256 → v.toNat < 2 ^ 64 →
      ∃ t, step s = .next t ∧
        (∀ c, t.freq.at c = if c = BitVec.ofNat 8 i then v.setWidth 64 else s.freq.at c) ∧
        t = { s with host := rest, freq := t.freq }) ∧
    (∀ i, p = .code i → i < 256 → step s = .next { s with host := rest }) ∧
    (∀ i, p = .node i → i < 511 → step s = .next { s with host := rest })

/-- R23, R25, R44, R60. What a host read while idle answers: each register at its number, CMD as 0; the bits of STATUS;
an entry of each window; a byte of IBUF below ILEN and of OBUF below OLEN. -/
def Obligations.HostReads : Prop :=
  ∀ s : State, s.busy = false →
    hostRead s (.reg 0x00) = .next 0#264 ∧
    (∃ v, hostRead s (.reg 0x01) = .next v ∧ v.getLsbD 0 = s.busy ∧ v.getLsbD 1 = s.treeValid ∧
      v.getLsbD 2 = s.outValid ∧ v.toNat < 8) ∧
    hostRead s (.reg 0x02) = .next (s.err.setWidth 264) ∧
    hostRead s (.reg 0x03) = .next (s.ilen.setWidth 264) ∧
    hostRead s (.reg 0x04) = .next (s.olen.setWidth 264) ∧
    hostRead s (.reg 0x05) = .next (s.rpos.setWidth 264) ∧
    hostRead s (.reg 0x06) = .next (s.origSize.setWidth 264) ∧
    hostRead s (.reg 0x07) = .next (s.wbLen.setWidth 264) ∧
    hostRead s (.reg 0x08) = .next (s.wbVal.setWidth 264) ∧
    hostRead s (.reg 0x09) = .next (s.acc.setWidth 264) ∧
    hostRead s (.reg 0x0A) = .next (s.nbits.setWidth 264) ∧
    hostRead s (.reg 0x0B) = .next (s.cur.setWidth 264) ∧
    hostRead s (.reg 0x0C) = .next (s.rem.setWidth 264) ∧
    hostRead s (.reg 0x0D) = .next (BitVec.ofNat 264 s.rbit.toNat) ∧
    hostRead s (.reg 0x0E) = .next (s.sym.setWidth 264) ∧
    hostRead s (.reg 0x0F) = .next (BitVec.ofNat 264 s.tree.root.val) ∧
    hostRead s (.reg 0x10) = .next (s.tree.nn.setWidth 264) ∧
    (∀ no, 0x10 < no → hostRead s (.reg no) = .refused (.noSuchRegister no)) ∧
    (∀ c : Byte, hostRead s (.freq c.toNat) = .next ((s.freq.at c).setWidth 264)) ∧
    (∀ c : Byte, hostRead s (.code c.toNat) = .next (s.code.at c).pack) ∧
    (∀ h : Handle, hostRead s (.node h.val) = .next ((s.tree.nodeAt h).pack.setWidth 264)) ∧
    (∀ a b, a < s.ilen.toNat → a < s.ibufCap.toNat → Mem.read s.ibuf a = some b →
      hostRead s (.ibuf a) = .next (b.setWidth 264)) ∧
    (∀ a b, a < s.olen.toNat → a < s.obufCap.toNat → Mem.read s.obuf a = some b →
      hostRead s (.obuf a) = .next (b.setWidth 264))

/-- R102, R104. The bit layout of a CODE entry (264 bits) and of a NODE entry (91 bits). -/
def Obligations.WindowLayouts : Prop :=
  (∀ e : CodeEntry, e.pack.getLsbD 263 = e.valid ∧ e.pack.extractLsb' 255 8 = e.len ∧ e.pack.extractLsb' 0 255 = e.pat) ∧
  (∀ n : Node, n.pack.getLsbD 90 = decide (n.kind = .internal) ∧ n.pack.extractLsb' 82 8 = n.sym ∧
    (n.pack.extractLsb' 73 9).toNat = n.left.val ∧ (n.pack.extractLsb' 64 9).toNat = n.right.val ∧
    n.pack.extractLsb' 0 64 = n.weight)

/-! ### How commands end, and what no command touches -/

/-- R210, R211, R212, R26. A command that ends leaves BUSY 0 and in ERR either 0 or the code of a kind that R211's table
lets it raise; so never 6, and never above 7. -/
def Obligations.CommandsEndWithLegalErr : Prop :=
  ∀ (i : Instr) (s t : State), exec i s = .next t →
    t.busy = false ∧ (t.err = 0#4 ∨ ∃ k ∈ raisedBy i, t.err = k.code) ∧ t.err ≠ 6#4 ∧ t.err.toNat ≤ 7

/-- R27, R37, R61, R7. No command writes ILEN, WB_LEN, WB_VAL, IBUF, the capacities or the host's pending transactions. -/
def Obligations.CommandsKeepHostSide : Prop :=
  ∀ (i : Instr) (s t : State), exec i s = .next t → SameHostSide s t

/-- R41, R257. OUT_VALID: no primitive command changes it, one that appends to OBUF included (so R41 and R257 say; R222 has
it fall then, and the model's choice between them is log 10); a compound command leaves it 1 exactly when it succeeds;
the reset event clears it. -/
def Obligations.OutValidOnlyFromCompound : Prop :=
  (∀ (i : Instr) (s t : State), exec i s = .next t → compound i = false → t.outValid = s.outValid) ∧
  (∀ (i : Instr) (s t : State), exec i s = .next t → compound i = true → (t.outValid = true ↔ t.err = 0#4)) ∧
  ∀ s : State, (resetEvent s).outValid = false

/-- R33. TREE_VALID: TB.BUILD leaves it 1 exactly when it succeeds, a compound command and the reset event leave it 0,
every other command keeps it, and together with NODE, NN, ROOT. -/
def Obligations.TreeValidOnlyFromBuild : Prop :=
  (∀ s t : State, exec .tbBuild s = .next t → (t.treeValid = true ↔ t.err = 0#4)) ∧
  (∀ (i : Instr) (s t : State), exec i s = .next t → compound i = true → t.treeValid = false) ∧
  (∀ (i : Instr) (s t : State), exec i s = .next t → compound i = false → i ≠ .tbBuild → SameTree s t) ∧
  ∀ s : State, (resetEvent s).treeValid = false

/-- R39, R22. `RPOS ≤ ILEN` after any command that found it so. -/
def Obligations.RposStaysWithinInput : Prop :=
  ∀ (i : Instr) (s t : State), exec i s = .next t → s.rpos.toNat ≤ s.ilen.toNat → t.rpos.toNat ≤ t.ilen.toNat

/-- R28, R62, R65. A primitive command only appends to OBUF: OLEN does not fall, no byte below the old OLEN is
rewritten, and no byte at or above the new OLEN is written. -/
def Obligations.PrimitivesOnlyAppend : Prop :=
  ∀ (i : Instr) (s t : State), exec i s = .next t → compound i = false → s.olen.toNat ≤ s.obufCap.toNat →
    s.olen.toNat ≤ t.olen.toNat ∧ t.olen.toNat ≤ t.obufCap.toNat ∧
    ∀ a, a < s.olen.toNat ∨ t.olen.toNat ≤ a → Mem.read t.obuf a = Mem.read s.obuf a

/-! ### FC -/

/-- R120, R121, R122. FC.RUN always ends with success, FREQ holding for each symbol the number of its occurrences in
`IBUF[0..ILEN-1]`, and nothing else changed. -/
def Obligations.FcRunCountsInput : Prop :=
  ∀ s : State, ∃ t, exec .fcRun s = .next t ∧ (∀ c, (t.freq.at c).toNat = s.input.count c) ∧
    t = { s with freq := t.freq, err := 0#4, busy := false }

/-- R123. After FC.RUN the 256 counts add up to ILEN as natural numbers, and a count is nonzero exactly for a symbol
that occurs. -/
def Obligations.FcRunSumIsLength : Prop :=
  ∀ s t : State, exec .fcRun s = .next t →
    (allSymbols.map fun c => (t.freq.at c).toNat).sum = s.ilen.toNat ∧ ∀ c, t.freq.at c ≠ 0#64 ↔ c ∈ s.input

/-! ### TB -/

/-- R133, R213. TB.BUILD on the all-zero table: `ERR <- 1`, TREE_VALID, ROOT, NN and NACT 0, no NODE entry written, nothing
else changed. -/
def Obligations.TbBuildEmptyInput : Prop :=
  ∀ s : State, (∀ c, s.freq.at c = 0#64) →
    exec .tbBuild s = .next { s with
      treeValid := false, err := 1#4, busy := false
      tree := { s.tree with nn := 0#10, root := 0, nact := 0#9 } }

/-- R134. TB.BUILD with exactly one nonzero count: two leaves of the one symbol under an internal root, all three with
the symbol's count as weight, and the rest of the registers R134 writes; nothing else changed. -/
def Obligations.TbBuildDegenerate : Prop :=
  ∀ (s : State) (c : Byte), s.freq.at c ≠ 0#64 → (∀ d, d ≠ c → s.freq.at d = 0#64) →
    ∃ t, exec .tbBuild s = .next t ∧
      t.tree.nodeAt 0 = ⟨.leaf, c, 0, 0, s.freq.at c⟩ ∧ t.tree.nodeAt 1 = ⟨.leaf, c, 0, 0, s.freq.at c⟩ ∧
      t.tree.nodeAt 2 = ⟨.internal, 0#8, 0, 1, s.freq.at c⟩ ∧
      t.tree.nn = 3#10 ∧ t.tree.root = 2 ∧ t.tree.active[0] = 2 ∧ t.tree.nact = 1#9 ∧
      (∀ h : Handle, 3 ≤ h.val → t.tree.nodeAt h = s.tree.nodeAt h) ∧
      t = { s with tree := t.tree, treeValid := true, err := 0#4, busy := false }

/-- R130, R32, R34. TB.BUILD on a table with a nonzero entry ends with success and sets TREE_VALID; with `n` nonzero
entries NN and ROOT are as R32 says, NACT is 1 and ACTIVE[0] is ROOT; NODE entries at or above NN and everything
outside the tree are unchanged. -/
def Obligations.TbBuildCompletes : Prop :=
  ∀ s : State, (∃ c, s.freq.at c ≠ 0#64) →
    ∃ t, exec .tbBuild s = .next t ∧
      (1 < (occurring s.freq).length → t.tree.nn.toNat = 2 * (occurring s.freq).length - 1 ∧
        t.tree.root.val = 2 * (occurring s.freq).length - 2) ∧
      ((occurring s.freq).length = 1 → t.tree.nn.toNat = 3 ∧ t.tree.root.val = 2) ∧
      t.tree.nact = 1#9 ∧ t.tree.active[0] = t.tree.root ∧
      (∀ h : Handle, t.tree.nn.toNat ≤ h.val → t.tree.nodeAt h = s.tree.nodeAt h) ∧
      t = { s with tree := t.tree, treeValid := true, err := 0#4, busy := false }

/-- R132. After a successful TB.BUILD over `n ≥ 2` symbols, NODE[j] is the leaf of the j-th smallest occurring symbol, with
its count as weight (collect made it, merge left it alone), and NODE[n] to NODE[NN-1] are internal. -/
def Obligations.TbBuildLeavesInSymbolOrder : Prop :=
  ∀ s t : State, exec .tbBuild s = .next t → 1 < (occurring s.freq).length →
    ∀ h : Handle,
      (∀ hj : h.val < (occurring s.freq).length, t.tree.nodeAt h =
        ⟨.leaf, (occurring s.freq)[h.val], 0, 0, s.freq.at (occurring s.freq)[h.val]⟩) ∧
      ((occurring s.freq).length ≤ h.val → h.val < t.tree.nn.toNat → (t.tree.nodeAt h).kind = .internal)

/-- R131. What TB.BUILD leaves depends on the frequency table alone: not on the tree state it finds. -/
def Obligations.BuildDependsOnTableOnly : Prop :=
  ∀ (f : Table U64) (t u : Tree), (buildOver f t).1 = (buildOver f u).1 ∧
    (buildOver f t).2.nn = (buildOver f u).2.nn ∧ (buildOver f t).2.root = (buildOver f u).2.root ∧
    (buildOver f t).2.nact = (buildOver f u).2.nact ∧
    ∀ h : Handle, h.val < (buildOver f t).2.nn.toNat →
      (buildOver f t).2.nodeAt h = (buildOver f u).2.nodeAt h

/-- R135, R136. One pass of merge: `m1` is the first-encountered slot of smallest weight, `m2` the first-encountered one
of smallest weight among the others; the new node has ACTIVE[m1] as left and ACTIVE[m2] as right child and the sum modulo
2^64 as weight; it takes slot `m1` and slot `m2` is closed, the order of the others kept. And with `n ≥ 2` nonzero
counts TB.BUILD is collect, then `n - 1` such passes, then `ROOT <- ACTIVE[0]`. -/
def Obligations.MergeSelectsFirstMinima : Prop :=
  (∀ t : Tree, 2 ≤ t.nact.toNat → t.nact.toNat ≤ 256 → t.nn.toNat < 511 →
    ∃ m1 m2, m1 < t.nact.toNat ∧ m2 < t.nact.toNat ∧ m1 ≠ m2 ∧
      (∀ i, i < t.nact.toNat → (t.weightAt m1).toNat ≤ (t.weightAt i).toNat) ∧
      (∀ i, i < m1 → (t.weightAt m1).toNat < (t.weightAt i).toNat) ∧
      (∀ i, i < t.nact.toNat → i ≠ m1 → (t.weightAt m2).toNat ≤ (t.weightAt i).toNat) ∧
      (∀ i, i < m2 → i ≠ m1 → (t.weightAt m2).toNat < (t.weightAt i).toNat) ∧
      (∀ h : Handle, (mergePass t).nodeAt h = if h.val = t.nn.toNat then
          ⟨.internal, 0#8, t.activeAt m1, t.activeAt m2, t.weightAt m1 + t.weightAt m2⟩
        else t.nodeAt h) ∧
      (mergePass t).nn.toNat = t.nn.toNat + 1 ∧ (mergePass t).nact.toNat = t.nact.toNat - 1 ∧
      (∀ i, i < t.nact.toNat - 1 → ((mergePass t).activeAt i).val =
        let j := if i < m2 then i else i + 1
        if j = m1 then t.nn.toNat else (t.activeAt j).val)) ∧
  ∀ (f : Table U64) (t : Tree), 1 < (occurring f).length →
    (buildOver f t).1 = true ∧
    let u := Nat.repeat mergePass ((occurring f).length - 1) (collect f t)
    (buildOver f t).2 = { u with root := u.activeAt 0 }

/-- R138. After a successful TB.BUILD: every handle below NN is reachable from ROOT, once, and no other; the root is
internal; children have lower handles; with `n ≥ 2` symbols the leaves' symbols are the occurring symbols, once each,
at depths 1 to `n - 1`, and every internal weight is the sum of its children's modulo 2^64; with one symbol there are
two leaves, of that symbol, at depth 1. -/
def Obligations.TreeInvariants : Prop :=
  ∀ s t : State, exec .tbBuild s = .next t → t.err = 0#4 →
    ((t.tree.handlesUnder 511 t.tree.root).map Fin.val).Perm (List.range t.tree.nn.toNat) ∧
    (t.tree.nodeAt t.tree.root).kind = .internal ∧
    (∀ h : Handle, h.val < t.tree.nn.toNat → (t.tree.nodeAt h).kind = .internal →
      (t.tree.nodeAt h).left < h ∧ (t.tree.nodeAt h).right < h) ∧
    (1 < (occurring s.freq).length →
      ((t.tree.leavesUnder 511 t.tree.root).map Prod.fst).Perm (occurring s.freq) ∧
      (∀ h : Handle, h.val < t.tree.nn.toNat → (t.tree.nodeAt h).kind = .internal →
        (t.tree.nodeAt h).weight =
          (t.tree.nodeAt (t.tree.nodeAt h).left).weight + (t.tree.nodeAt (t.tree.nodeAt h).right).weight) ∧
      (∀ p ∈ t.tree.leavesUnder 511 t.tree.root, 1 ≤ p.2 ∧ p.2 ≤ (occurring s.freq).length - 1)) ∧
    ((occurring s.freq).length = 1 →
      t.tree.leavesUnder 511 t.tree.root = (occurring s.freq ++ occurring s.freq).map fun c => (c, 1))

/-! ### CG -/

/-- R219. CG.GEN and DEC.SYM without a valid tree execute nothing and set `ERR <- 7`; no other command answers 7. -/
def Obligations.NoTreeIsIllegalCommand : Prop :=
  (∀ s : State, s.treeValid = false →
    exec .cgGen s = .next { s with err := 7#4, busy := false } ∧
    exec .decSym s = .next { s with err := 7#4, busy := false }) ∧
  ∀ (i : Instr) (s t : State), i ≠ .cgGen → i ≠ .decSym → exec i s = .next t → t.err ≠ 7#4

/-- R150, R151, R155. CG.GEN with a valid tree whose children lie below their parents (R138 (d)): CODE becomes `codes` of
the tree, the traversal stack is empty, `ERR <- 0`, and nothing else changes. -/
def Obligations.CgGenLeavesCodes : Prop :=
  ∀ s : State, s.treeValid = true → s.tree.Descending →
    exec .cgGen s = .next { s with code := codes s.tree, stack := [], err := 0#4, busy := false }

/-- R101, R151. On a tree whose root is internal and whose leaves are at most 255 deep, the bits of every valid entry
of the code table are a path from the root: the walk along them ends, with nothing left over, at a leaf with the entry's
symbol, and no shorter part of them reaches a leaf. And every leaf's symbol has a valid entry. -/
def Obligations.CodesArePathsToTheirLeaves : Prop :=
  ∀ t : Tree, t.Descending → (t.nodeAt t.root).kind = .internal → t.height 511 t.root ≤ 255 →
    (∀ c, ((codes t).at c).valid = true →
      walkBits t t.root ((codes t).at c).bits = some (c, []) ∧
      ∀ n, n < ((codes t).at c).bits.length → walkBits t t.root (((codes t).at c).bits.take n) = none) ∧
    ∀ p ∈ t.leavesUnder 511 t.root, ((codes t).at p.1).valid = true

/-- R154. After TB.BUILD and CG.GEN: an entry of CODE is valid exactly when the symbol's count is nonzero; a valid one has
a length of at least 1 and at most 255 with no pattern bit above it; an invalid one is all zero. -/
def Obligations.CodeValidIffCounted : Prop :=
  ∀ s t u : State, exec .tbBuild s = .next t → t.err = 0#4 → exec .cgGen t = .next u →
    ∀ c, ((u.code.at c).valid = true ↔ s.freq.at c ≠ 0#64) ∧ (u.code.at c).Proper

/-- R154. Kraft's equality: with two or more symbols the sum of 2^(-len) over the valid codes is 1. -/
def Obligations.KraftEquality : Prop :=
  ∀ s t u : State, exec .tbBuild s = .next t → exec .cgGen t = .next u → 1 < (occurring s.freq).length →
    (allSymbols.map fun c => if (u.code.at c).valid then 2 ^ (255 - (u.code.at c).len.toNat) else 0).sum = 2 ^ 255

/-- R106, R152. With two or more symbols no code is a prefix of another symbol's code. With one symbol the table keeps
the code `1` (all other entries invalid), and a decoder accepts either bit. -/
def Obligations.CodesArePrefixFree : Prop :=
  ∀ s t u : State, exec .tbBuild s = .next t → t.err = 0#4 → exec .cgGen t = .next u →
    (1 < (occurring s.freq).length → ∀ c d, c ≠ d → (u.code.at c).valid = true → (u.code.at d).valid = true →
      ¬ (u.code.at c).bits <+: (u.code.at d).bits) ∧
    (∀ c, occurring s.freq = [c] →
      u.code.at c = ⟨true, 1#8, 1#255⟩ ∧ (∀ d, d ≠ c → u.code.at d = CodeEntry.zero) ∧
      ∀ b : Bool, walkBits u.tree u.tree.root [b] = some (c, []))

/-! ### BW -/

/-- R160. BW.BIT: the bit is shifted into ACC and counted; the eighth bit appends the byte to OBUF at OLEN and empties the
writer. With OBUF full that byte is refused (R62, U6; log 5). -/
def Obligations.BwBitResult : Prop :=
  ∀ (s : State) (b : Bool),
    (s.nbits.toNat < 7 → exec (.bwBit b) s = .next { s with
      acc := BitVec.ofNat 8 (2 * s.acc.toNat + b.toNat), nbits := s.nbits + 1#3, err := 0#4, busy := false }) ∧
    (s.nbits.toNat = 7 → s.olen.toNat < s.obufCap.toNat → ∃ t, exec (.bwBit b) s = .next t ∧
      Appended s t [BitVec.ofNat 8 (2 * s.acc.toNat + b.toNat)] ∧
      t = { s with obuf := t.obuf, olen := t.olen, acc := 0#8, nbits := 0#3, err := 0#4, busy := false }) ∧
    (s.nbits.toNat = 7 → s.obufCap.toNat ≤ s.olen.toNat → exec (.bwBit b) s = .refused .obufFull)

/-- R161, R92. BW.BITS: the WB_LEN low bits of WB_VAL are written, from the top, `floor((NBITS + WB_LEN) / 8)` bytes being
appended at OLEN; nothing else changes. When they do not fit in OBUF the command is refused (R62, U6; log 5). -/
def Obligations.BwBitsResult : Prop :=
  ∀ s : State, s.acc.toNat < 2 ^ s.nbits.toNat → s.olen.toNat ≤ s.obufCap.toNat →
    (s.olen.toNat + (s.nbits.toNat + s.wbLen.toNat) / 8 ≤ s.obufCap.toNat →
      ∃ t, exec .bwBits s = .next t ∧ WritesBits s t s.wbVal.toNat s.wbLen.toNat) ∧
    (s.obufCap.toNat < s.olen.toNat + (s.nbits.toNat + s.wbLen.toNat) / 8 →
      exec .bwBits s = .refused .obufFull)

/-- R162. BW.FLUSH: with no bit pending only ERR is written; with 1 to 7 pending they are appended at OLEN as the high bits
of one byte, zeros below, and the writer is empty; a second BW.FLUSH changes nothing. Refused with OBUF full (R62, U6;
log 5). -/
def Obligations.BwFlushResult : Prop :=
  ∀ s : State,
    (s.nbits = 0#3 → exec .bwFlush s = .next { s with err := 0#4, busy := false }) ∧
    (s.nbits ≠ 0#3 → s.olen.toNat < s.obufCap.toNat → ∃ t, exec .bwFlush s = .next t ∧
      Appended s t [BitVec.ofNat 8 (s.acc.toNat * 2 ^ (8 - s.nbits.toNat))] ∧
      t = { s with obuf := t.obuf, olen := t.olen, acc := 0#8, nbits := 0#3, err := 0#4, busy := false }) ∧
    (s.nbits ≠ 0#3 → s.obufCap.toNat ≤ s.olen.toNat → exec .bwFlush s = .refused .obufFull) ∧
    (∀ t, exec .bwFlush s = .next t → exec .bwFlush t = .next t)

/-- R164. `pack` is the bytes whose bits, high bit first, are the sequence, zero-padded; and from an empty writer one
BW.BIT per bit and then BW.FLUSH append exactly `pack` of the bits and leave the writer empty, the first `floor(T/8)` bytes
and `T mod 8` pending bits being there before the flush. -/
def Obligations.WritingBitsPacksThem : Prop :=
  (∀ bits : List Bool, (pack bits).length = (bits.length + 7) / 8 ∧
    ∀ j i, (hj : j < (pack bits).length) → i < 8 → ((pack bits)[j]).getLsbD (7 - i) = bits.getD (8 * j + i) false) ∧
  ∀ (s : State) (bits : List Bool), s.acc = 0#8 → s.nbits = 0#3 →
    s.olen.toNat + (bits.length + 7) / 8 ≤ s.obufCap.toNat →
    ∃ t u, execAll (bits.map Instr.bwBit) s = .next t ∧ exec .bwFlush t = .next u ∧
      Appended s t ((pack bits).take (bits.length / 8)) ∧ t.nbits.toNat = bits.length % 8 ∧
      Appended s u (pack bits) ∧ u.acc = 0#8 ∧ u.nbits = 0#3

/-! ### BR -/

/-- R170. BR.BIT in its three cases: no bit and no byte left, `ERR <- 5` and nothing else; no bit left, the next byte is
pulled and its bit 7 delivered; else the next held bit is delivered. `ibufByte` is the byte that stands in IBUF, where
one was written (log 4). -/
def Obligations.BrBitResult : Prop :=
  (∀ (s : State) (a : Nat) (b : Byte), Mem.read s.ibuf a = some b → ibufByte s a = b) ∧
  ∀ s : State,
    (s.rem = 0#4 → s.ilen.toNat ≤ s.rpos.toNat → exec .brBit s = .next { s with err := 5#4, busy := false }) ∧
    (s.rem = 0#4 → s.rpos.toNat < s.ilen.toNat → exec .brBit s = .next { s with
      cur := ibufByte s s.rpos.toNat, rpos := s.rpos + 1#64, rem := 7#4
      rbit := (ibufByte s s.rpos.toNat).getLsbD 7, err := 0#4, busy := false }) ∧
    (s.rem ≠ 0#4 → exec .brBit s = .next { s with
      rem := s.rem - 1#4, rbit := s.cur.getLsbD (s.rem.toNat - 1), err := 0#4, busy := false })

/-- R171, R172. The reader undoes the writer: with `pack` of a bit sequence in IBUF from address `p` on and the reader
started there, the k-th BR.BIT delivers the k-th bit, then the pad zeros; and `8 (RPOS - p) - REM` is the number of bits
consumed. -/
def Obligations.ReaderInvertsPack : Prop :=
  ∀ (s : State) (bits : List Bool) (p k : Nat),
    s.rpos.toNat = p → s.rem = 0#4 → p + (pack bits).length ≤ s.ilen.toNat →
    (∀ j, (hj : j < (pack bits).length) → Mem.read s.ibuf (p + j) = some (pack bits)[j]) →
    k < 8 * (pack bits).length →
    ∃ t, execAll (List.replicate (k + 1) .brBit) s = .next t ∧ t.err = 0#4 ∧ t.rbit = bits.getD k false ∧
      8 * (t.rpos.toNat - p) = k + 1 + t.rem.toNat ∧ t.rem.toNat ≤ 7

/-! ### CF -/

/-- R181, R71. `header(n, F)` is 2060 bytes: the magic, the version, `n` and the 256 counts, eight bytes each with the
lowest byte first; different `(n, F)` give different headers. -/
def Obligations.HeaderLayout : Prop :=
  (∀ (n : U64) (f : Table U64), (header n f).length = 2060 ∧
    (header n f).take 4 = [0x48#8, 0x46#8, 0x31#8, 0x01#8] ∧
    (∀ k, k < 8 → (header n f)[4 + k]? = some (n.extractLsb' (8 * k) 8)) ∧
    (∀ (c : Byte) (k : Nat), k < 8 → (header n f)[12 + 8 * c.toNat + k]? = some ((f.at c).extractLsb' (8 * k) 8))) ∧
  ∀ (n m : U64) (f g : Table U64), header n f = header m g → n = m ∧ f = g

/-- R180. CF.WRHDR appends `header(ORIG_SIZE, FREQ)` at OLEN and changes nothing else; refused when the 2060 bytes do not
fit in OBUF (R62, U6; log 5). -/
def Obligations.CfWrhdrAppendsHeader : Prop :=
  ∀ s : State, s.olen.toNat ≤ s.obufCap.toNat →
    (s.olen.toNat + 2060 ≤ s.obufCap.toNat → ∃ t, exec .cfWrhdr s = .next t ∧
      Appended s t (header s.origSize s.freq) ∧
      t = { s with obuf := t.obuf, olen := t.olen, err := 0#4, busy := false }) ∧
    (s.obufCap.toNat < s.olen.toNat + 2060 → exec .cfWrhdr s = .refused .obufFull)

/-- R182, R183, R214. CF.RDHDR: with at least 2060 bytes, the magic and version 1, ORIG_SIZE and the 256 counts are
loaded, lowest byte first, the reader is started at 2060, and nothing else changes; otherwise `ERR <- 2` and nothing
else. -/
def Obligations.CfRdhdrResult : Prop :=
  ∀ s : State,
    let good := 2060 ≤ s.ilen.toNat ∧ ibufByte s 0 = 0x48#8 ∧ ibufByte s 1 = 0x46#8 ∧ ibufByte s 2 = 0x31#8 ∧
      ibufByte s 3 = 0x01#8
    (good → ∃ t, exec .cfRdhdr s = .next t ∧
      (∀ k, k < 8 → t.origSize.extractLsb' (8 * k) 8 = ibufByte s (4 + k)) ∧
      (∀ (c : Byte) (k : Nat), k < 8 → (t.freq.at c).extractLsb' (8 * k) 8 = ibufByte s (12 + 8 * c.toNat + k)) ∧
      t = { s with
        origSize := t.origSize, freq := t.freq, rpos := 2060#64, cur := 0#8, rem := 0#4, err := 0#4, busy := false }) ∧
    (¬ good → exec .cfRdhdr s = .next { s with err := 2#4, busy := false })

/-- R184. The header round-trips: the 2060 bytes CF.WRHDR appended, placed at IBUF[0..2059] with ILEN at least 2060, are
read back by CF.RDHDR as the same ORIG_SIZE and FREQ. -/
def Obligations.HeaderRoundTrip : Prop :=
  ∀ s t u : State, exec .cfWrhdr s = .next t → s.olen.toNat ≤ s.obufCap.toNat → 2060 ≤ u.ilen.toNat →
    (∀ i, i < 2060 → Mem.read u.ibuf i = Mem.read t.obuf (s.olen.toNat + i)) →
    ∃ v, exec .cfRdhdr u = .next v ∧ v.err = 0#4 ∧ v.origSize = s.origSize ∧ v.freq = s.freq

/-! ### SQ: the encoder -/

/-- R190. ENC.SYM: with no valid entry, or one of length 0, `ERR <- 4` and nothing else changes; else the entry's `len` low
pattern bits are written as BW.BITS writes its operands. Refused when they do not fit in OBUF (R62, U6; log 5). -/
def Obligations.EncSymResult : Prop :=
  ∀ (s : State) (c : Byte),
    ((s.code.at c).valid = false ∨ (s.code.at c).len = 0#8 →
      exec (.encSym c) s = .next { s with err := 4#4, busy := false }) ∧
    ((s.code.at c).valid = true → (s.code.at c).len ≠ 0#8 → s.acc.toNat < 2 ^ s.nbits.toNat →
      s.olen.toNat ≤ s.obufCap.toNat →
      (s.olen.toNat + (s.nbits.toNat + (s.code.at c).len.toNat) / 8 ≤ s.obufCap.toNat →
        ∃ t, exec (.encSym c) s = .next t ∧ WritesBits s t (s.code.at c).pat.toNat (s.code.at c).len.toNat) ∧
      (s.obufCap.toNat < s.olen.toNat + (s.nbits.toNat + (s.code.at c).len.toNat) / 8 →
        exec (.encSym c) s = .refused .obufFull))

/-- R193, R213, R221. ENC.RUN on an empty input: `ERR <- 1`, init() done, FREQ all 0, the tree state as TB.BUILD leaves it
on failure, CODE, ORIG_SIZE and everything else as before. -/
def Obligations.EncRunEmptyInput : Prop :=
  ∀ s : State, s.ilen = 0#64 → exec .encRun s = .next { s with
    outValid := false, treeValid := false, err := 1#4, busy := false
    olen := 0#64, acc := 0#8, nbits := 0#3, cur := 0#8, rem := 0#4, rpos := 0#64
    freq := Vector.replicate 256 0#64
    tree := { s.tree with nn := 0#10, root := 0, nact := 0#9 } }

/-- R193, R197, R191, R33. ENC.RUN on a non-empty input whose container fits in OBUF ends with success and leaves
`compress` of the input in OBUF from address 0, and the rest of the state as R193 says after success: the tree that
TB.BUILD leaves, the codes of it; bytes of OBUF at or above the new OLEN, RBIT, SYM and the decoder's hidden state are
unchanged. (The value EIDX keeps is log 11's and not
stated.) With a container longer than OBUF_CAP it is refused (R243, U6; log 5). -/
def Obligations.EncRunComputesCompress : Prop :=
  ∀ s : State, s.ilen ≠ 0#64 → ∃ out, compress s.input = .ok out ∧
    (out.length ≤ s.obufCap.toNat → ∃ t, exec .encRun s = .next t ∧
      OutputIs t out ∧ (∀ a, out.length ≤ a → Mem.read t.obuf a = Mem.read s.obuf a) ∧
      t.freq = tally s.input ∧ t.tree = (buildOver (tally s.input) s.tree).2 ∧
      t.code = codes (build (tally s.input)).2 ∧ t.stack = [] ∧
      t = { s with
        freq := t.freq, code := t.code, tree := t.tree, obuf := t.obuf, olen := t.olen, eidx := t.eidx, stack := t.stack
        origSize := s.ilen, outValid := true, treeValid := false, err := 0#4, busy := false
        acc := 0#8, nbits := 0#3, cur := 0#8, rem := 0#4, rpos := 0#64 }) ∧
    (s.obufCap.toNat < out.length → exec .encRun s = .refused .obufFull)

/-- R197, R99. The container's length is `2060 + ceil(T / 8)` with `T` the sum over the symbols of count times code
length, and `T` is at least 1. -/
def Obligations.CompressedLength : Prop :=
  ∀ (x out : List Byte), x.length < 2 ^ 64 → compress x = .ok out →
    let k := codes (build (tally x)).2
    let total := (allSymbols.map fun c => ((tally x).at c).toNat * (k.at c).len.toNat).sum
    out.length = 2060 + (total + 7) / 8 ∧ 1 ≤ total

/-- R191, R193. Inside ENC.RUN `InvalidCode` cannot occur, and `EmptyInput` occurs exactly when `ILEN = 0`. -/
def Obligations.EncRunNeverInvalidCode : Prop :=
  ∀ s t : State, exec .encRun s = .next t → t.err ≠ 4#4 ∧ (t.err = 1#4 ↔ s.ilen = 0#64)

/-- R192, R200. A compound command's result depends on ILEN, IBUF[0..ILEN-1] and the capacity of OBUF alone: two states
that agree on these end alike, with the same ERR, OUT_VALID, OLEN and output bytes. -/
def Obligations.CompoundIgnoresEarlierState : Prop :=
  ∀ (i : Instr) (s u t : State), compound i = true → s.ilen = u.ilen → s.obufCap = u.obufCap →
    (∀ a, a < s.ilen.toNat → ibufByte s a = ibufByte u a) → exec i s = .next t →
    ∃ v, exec i u = .next v ∧ v.err = t.err ∧ v.outValid = t.outValid ∧ v.treeValid = t.treeValid ∧ v.olen = t.olen ∧
      ∀ a, a < t.olen.toNat → Mem.read v.obuf a = Mem.read t.obuf a

/-! ### SQ: the decoder -/

/-- R195, R194, R215, R38, R40, R172. DEC.SYM with a valid tree, by the bits the reader can still deliver: a walk that reaches
a leaf appends its symbol at OLEN and leaves the bits after it unread (refused with OBUF full: R62, U6; log 5); a walk that
runs out of bits gives `ERR <- 3` with every bit consumed, SYM, OBUF and OLEN unchanged. Either way RPOS, REM and CUR
stand where the bits consumed leave them (CUR is the last byte pulled), and RBIT is the last bit consumed, the old one if
there was none; on the failing path that is R195's sentence (log 19). (CURN is log 11's and not stated.) -/
def Obligations.DecSymResult : Prop :=
  ∀ s : State, s.treeValid = true →
    (∀ c rest, walkBits s.tree s.tree.root s.unread = some (c, rest) →
      let n := s.unread.length - rest.length
      (s.olen.toNat < s.obufCap.toNat → ∃ t, exec .decSym s = .next t ∧ Appended s t [c] ∧ t.unread = rest ∧
        ReaderAfter s t n ∧ t.rbit = (s.unread.take n).getLastD s.rbit ∧
        t = { s with
          obuf := t.obuf, olen := t.olen, sym := c, cur := t.cur, rem := t.rem, rpos := t.rpos, rbit := t.rbit
          curn := t.curn, err := 0#4, busy := false }) ∧
      (s.obufCap.toNat ≤ s.olen.toNat → exec .decSym s = .refused .obufFull)) ∧
    (walkBits s.tree s.tree.root s.unread = none → ∃ t, exec .decSym s = .next t ∧ t.unread = [] ∧
      ReaderAfter s t s.unread.length ∧ t.rbit = s.unread.getLastD s.rbit ∧
      t = { s with
        cur := t.cur, rem := t.rem, rpos := t.rpos, rbit := t.rbit, curn := t.curn, err := 3#4, busy := false })

/-- R196, R214, R220, R221. DEC.RUN's first two failures: a container that fails a format check gives `ERR <- 2` with only
init() done, whatever else is wrong with it; one that passes with all 256 counts zero gives `ERR <- 1`, the header loaded,
the tree state as TB.BUILD leaves it on failure, and nothing emitted, whatever the body is. -/
def Obligations.DecRunFailsBeforeOutput : Prop :=
  ∀ s : State,
    (formatOk s.input = false → exec .decRun s = .next { s with
      outValid := false, treeValid := false, err := 2#4, busy := false
      olen := 0#64, acc := 0#8, nbits := 0#3, cur := 0#8, rem := 0#4, rpos := 0#64 }) ∧
    (formatOk s.input = true → (∀ c, (countsOf s.input).at c = 0#64) → exec .decRun s = .next { s with
      outValid := false, treeValid := false, err := 1#4, busy := false
      olen := 0#64, acc := 0#8, nbits := 0#3, cur := 0#8, rem := 0#4, rpos := 2060#64
      origSize := le64At s.input 4, freq := Vector.replicate 256 0#64
      tree := { s.tree with nn := 0#10, root := 0, nact := 0#9 } })

/-- R196, R198, R38, R40, R172. DEC.RUN on a container that `decompress` accepts, its output fitting in OBUF: success, the
decoded bytes in OBUF from address 0, OLEN = ORIG_SIZE, the tree that TB.BUILD leaves, the last symbol in SYM, and the
reader, started at 2060, at the first bit not needed: CUR is the last body byte pulled (0 if none was), RBIT the last bit
read (the old one if none was). CODE, EIDX and OBUF at or above the new OLEN are unchanged. (CURN and DCNT are log 11's.)
With an output longer than OBUF_CAP it is refused (R243, U6; log 5). -/
def Obligations.DecRunComputesDecompress : Prop :=
  ∀ (s : State) (y : List Byte), decompress s.input = .ok y →
    let body := bitsOfBytes (s.input.drop 2060)
    let rest := bitsAfter (build (countsOf s.input)).2 y.length body
    let n := body.length - rest.length
    (y.length ≤ s.obufCap.toNat → ∃ t, exec .decRun s = .next t ∧ OutputIs t y ∧
      (∀ a, y.length ≤ a → Mem.read t.obuf a = Mem.read s.obuf a) ∧
      t.olen = t.origSize ∧ t.origSize = le64At s.input 4 ∧ t.freq = countsOf s.input ∧
      t.tree = (buildOver (countsOf s.input) s.tree).2 ∧
      t.unread = rest ∧ ReaderAfter (s.startReader 2060#64) t n ∧ t.rem.toNat ≤ 7 ∧ t.rpos.toNat ≤ s.ilen.toNat ∧
      t.rbit = (body.take n).getLastD s.rbit ∧
      t = { s with
        freq := t.freq, origSize := t.origSize, tree := t.tree, obuf := t.obuf, olen := t.olen, sym := y.getLastD s.sym
        cur := t.cur, rem := t.rem, rpos := t.rpos, rbit := t.rbit, curn := t.curn, dcnt := t.dcnt
        outValid := true, treeValid := false, err := 0#4, busy := false, acc := 0#8, nbits := 0#3 }) ∧
    (s.obufCap.toNat < y.length → exec .decRun s = .refused .obufFull)

/-- R196, R198, R216, R38, R172. DEC.RUN on a container whose body runs out, the symbols decoded before that fitting in
OBUF: `ERR <- 3`, OUT_VALID and TREE_VALID 0, OLEN the number of symbols decoded, those symbols in OBUF (the rest of OBUF
as before), the reader at the end of the input with no bit left and the last body byte in CUR (0 if the body is
empty), and nothing changed but what R221 lists. RBIT is left out: a test vector disagrees with R195 about it (log 19).
(CURN and DCNT are log 11's.) With more symbols decoded than OBUF_CAP before the body runs out it is refused
(R62, U6; log 5). -/
def Obligations.DecRunTruncatedStream : Prop :=
  ∀ (s : State) (out : List Byte), formatOk s.input = true → (∃ c, (countsOf s.input).at c ≠ 0#64) →
    decodeBits (build (countsOf s.input)).2 (le64At s.input 4).toNat (bitsOfBytes (s.input.drop 2060)) = (out, false) →
    decompress s.input = .error .truncatedStream ∧
    (out.length ≤ s.obufCap.toNat → ∃ t, exec .decRun s = .next t ∧ OutputIs t out ∧
      (∀ a, out.length ≤ a → Mem.read t.obuf a = Mem.read s.obuf a) ∧
      t.unread = [] ∧ t.rpos = s.ilen ∧ t.rem = 0#4 ∧
      t.cur = (if s.ilen = 2060#64 then 0#8 else ibufByte s (s.ilen.toNat - 1)) ∧
      t.origSize = le64At s.input 4 ∧ t.freq = countsOf s.input ∧ t.tree = (buildOver (countsOf s.input) s.tree).2 ∧
      t = { s with
        freq := t.freq, origSize := t.origSize, tree := t.tree, obuf := t.obuf, olen := t.olen, sym := out.getLastD s.sym
        cur := t.cur, rem := t.rem, rpos := t.rpos, rbit := t.rbit, curn := t.curn, dcnt := t.dcnt
        outValid := false, treeValid := false, err := 3#4, busy := false, acc := 0#8, nbits := 0#3 }) ∧
    (s.obufCap.toNat < out.length → exec .decRun s = .refused .obufFull)

/-- R263. DEC.RUN decodes at most one symbol per bit of the body, whatever ORIG_SIZE the container declares. -/
def Obligations.DecRunBoundedByBody : Prop :=
  ∀ s t : State, exec .decRun s = .next t → t.olen.toNat ≤ 8 * (s.ilen.toNat - 2060)

/-- R199. Round trip: for every non-empty byte sequence, `decompress(compress(X)) = X`. -/
def Obligations.DecompressCompress : Prop :=
  ∀ x : List Byte, x ≠ [] → x.length < 2 ^ 64 → ∃ c, compress x = .ok c ∧ decompress c = .ok x

/-- R199 on the machine. ENC.RUN's container, placed in IBUF with ILEN its length, is turned back by DEC.RUN into the bytes
that ENC.RUN was given, in OBUF with OUT_VALID = 1. -/
def Obligations.DecRunInvertsEncRun : Prop :=
  ∀ s t u : State, s.ilen ≠ 0#64 → exec .encRun s = .next t →
    u.ilen = t.olen → s.ilen.toNat ≤ u.obufCap.toNat →
    (∀ a, a < t.olen.toNat → Mem.read u.ibuf a = Mem.read t.obuf a) →
    ∃ v, exec .decRun u = .next v ∧ v.err = 0#4 ∧ v.outValid = true ∧ OutputIs v s.input

/-! ### Invariants -/

/-- The invariant `State.Inv` holds right after reset. -/
def Obligations.ResetMeetsInvariant : Prop := State.reset.Inv

/-- R26, R28, R34, R35, R138, R155, R165, R170 and the canonical form of the memories: every step that answers a next state
keeps the invariant, whatever the transaction. -/
def Obligations.StepKeepsInvariant : Prop :=
  ∀ s t : State, s.Inv → step s = .next t → t.Inv

/-- R201, R210. From a state that meets the invariant no step faults: in particular CG.GEN's traversal always ends
(log 13). -/
def Obligations.InvariantRulesOutFaults : Prop :=
  ∀ (s : State) (f : Fault), s.Inv → step s ≠ .fault f

/-- R222, R41, R257. After a compound command and any number of primitive ones: R222's condition, that the compound command
ended with success and no later one has appended to OBUF, holds exactly when the host sees OUT_VALID = 1 and OLEN still as
the compound command left it; and then no byte of OBUF has changed, so OBUF[0..OLEN-1] is the result. OUT_VALID by itself
is 1 exactly when the compound command succeeded: that a primitive that appends leaves it at 1 is R41's and R257's, taken
over R222 (log 10). Whatever was appended, below the OLEN the compound command left OBUF holds what it emitted. -/
def Obligations.OutValidMarksTheResult : Prop :=
  ∀ (i : Instr) (is : List Instr) (s t u : State), compound i = true → (∀ j ∈ is, compound j = false) →
    exec i s = .next t → execAll is t = .next u →
    (ResultStands t u ↔ t.err = 0#4 ∧ AppendNothing is t) ∧
    (ResultStands t u → ∀ a, Mem.read u.obuf a = Mem.read t.obuf a) ∧
    (u.outValid = true ↔ t.err = 0#4) ∧ t.olen.toNat ≤ u.olen.toNat ∧
    (∀ a, a < t.olen.toNat → Mem.read u.obuf a = Mem.read t.obuf a) ∧
    (u.olen = t.olen → ∀ a, Mem.read u.obuf a = Mem.read t.obuf a)
end

