-- ==== Sys2Proof/Laws/State.lean ====
section
/-! SUPPORT. What each named update of State leaves in each field: one lemma per field per update, all by rfl, so that no
later proof unfolds a record update. -/

namespace Sys2Proof.Machine

/-! ### State.finish -/

section
variable (s : State)
@[simp] theorem State.finish_busy : (s.finish).busy = false := rfl
@[simp] theorem State.finish_treeValid : (s.finish).treeValid = s.treeValid := rfl
@[simp] theorem State.finish_outValid : (s.finish).outValid = s.outValid := rfl
@[simp] theorem State.finish_err : (s.finish).err = 0#4 := rfl
@[simp] theorem State.finish_ilen : (s.finish).ilen = s.ilen := rfl
@[simp] theorem State.finish_olen : (s.finish).olen = s.olen := rfl
@[simp] theorem State.finish_rpos : (s.finish).rpos = s.rpos := rfl
@[simp] theorem State.finish_origSize : (s.finish).origSize = s.origSize := rfl
@[simp] theorem State.finish_wbLen : (s.finish).wbLen = s.wbLen := rfl
@[simp] theorem State.finish_wbVal : (s.finish).wbVal = s.wbVal := rfl
@[simp] theorem State.finish_acc : (s.finish).acc = s.acc := rfl
@[simp] theorem State.finish_nbits : (s.finish).nbits = s.nbits := rfl
@[simp] theorem State.finish_cur : (s.finish).cur = s.cur := rfl
@[simp] theorem State.finish_rem : (s.finish).rem = s.rem := rfl
@[simp] theorem State.finish_rbit : (s.finish).rbit = s.rbit := rfl
@[simp] theorem State.finish_sym : (s.finish).sym = s.sym := rfl
@[simp] theorem State.finish_freq : (s.finish).freq = s.freq := rfl
@[simp] theorem State.finish_tree : (s.finish).tree = s.tree := rfl
@[simp] theorem State.finish_code : (s.finish).code = s.code := rfl
@[simp] theorem State.finish_eidx : (s.finish).eidx = s.eidx := rfl
@[simp] theorem State.finish_dcnt : (s.finish).dcnt = s.dcnt := rfl
@[simp] theorem State.finish_curn : (s.finish).curn = s.curn := rfl
@[simp] theorem State.finish_stack : (s.finish).stack = s.stack := rfl
@[simp] theorem State.finish_ibuf : (s.finish).ibuf = s.ibuf := rfl
@[simp] theorem State.finish_obuf : (s.finish).obuf = s.obuf := rfl
@[simp] theorem State.finish_ibufCap : (s.finish).ibufCap = s.ibufCap := rfl
@[simp] theorem State.finish_obufCap : (s.finish).obufCap = s.obufCap := rfl
@[simp] theorem State.finish_host : (s.finish).host = s.host := rfl
@[simp] theorem State.finish_resets : (s.finish).resets = s.resets := rfl
end

/-! ### State.abort -/

section
variable (s : State) (k : ErrKind)
@[simp] theorem State.abort_busy : (s.abort k).busy = false := rfl
@[simp] theorem State.abort_treeValid : (s.abort k).treeValid = s.treeValid := rfl
@[simp] theorem State.abort_outValid : (s.abort k).outValid = s.outValid := rfl
@[simp] theorem State.abort_err : (s.abort k).err = k.code := rfl
@[simp] theorem State.abort_ilen : (s.abort k).ilen = s.ilen := rfl
@[simp] theorem State.abort_olen : (s.abort k).olen = s.olen := rfl
@[simp] theorem State.abort_rpos : (s.abort k).rpos = s.rpos := rfl
@[simp] theorem State.abort_origSize : (s.abort k).origSize = s.origSize := rfl
@[simp] theorem State.abort_wbLen : (s.abort k).wbLen = s.wbLen := rfl
@[simp] theorem State.abort_wbVal : (s.abort k).wbVal = s.wbVal := rfl
@[simp] theorem State.abort_acc : (s.abort k).acc = s.acc := rfl
@[simp] theorem State.abort_nbits : (s.abort k).nbits = s.nbits := rfl
@[simp] theorem State.abort_cur : (s.abort k).cur = s.cur := rfl
@[simp] theorem State.abort_rem : (s.abort k).rem = s.rem := rfl
@[simp] theorem State.abort_rbit : (s.abort k).rbit = s.rbit := rfl
@[simp] theorem State.abort_sym : (s.abort k).sym = s.sym := rfl
@[simp] theorem State.abort_freq : (s.abort k).freq = s.freq := rfl
@[simp] theorem State.abort_tree : (s.abort k).tree = s.tree := rfl
@[simp] theorem State.abort_code : (s.abort k).code = s.code := rfl
@[simp] theorem State.abort_eidx : (s.abort k).eidx = s.eidx := rfl
@[simp] theorem State.abort_dcnt : (s.abort k).dcnt = s.dcnt := rfl
@[simp] theorem State.abort_curn : (s.abort k).curn = s.curn := rfl
@[simp] theorem State.abort_stack : (s.abort k).stack = s.stack := rfl
@[simp] theorem State.abort_ibuf : (s.abort k).ibuf = s.ibuf := rfl
@[simp] theorem State.abort_obuf : (s.abort k).obuf = s.obuf := rfl
@[simp] theorem State.abort_ibufCap : (s.abort k).ibufCap = s.ibufCap := rfl
@[simp] theorem State.abort_obufCap : (s.abort k).obufCap = s.obufCap := rfl
@[simp] theorem State.abort_host : (s.abort k).host = s.host := rfl
@[simp] theorem State.abort_resets : (s.abort k).resets = s.resets := rfl
end

/-! ### State.append -/

section
variable (s : State) (b : Byte)
@[simp] theorem State.append_busy : (s.append b).busy = s.busy := rfl
@[simp] theorem State.append_treeValid : (s.append b).treeValid = s.treeValid := rfl
@[simp] theorem State.append_outValid : (s.append b).outValid = s.outValid := rfl
@[simp] theorem State.append_err : (s.append b).err = s.err := rfl
@[simp] theorem State.append_ilen : (s.append b).ilen = s.ilen := rfl
@[simp] theorem State.append_olen : (s.append b).olen = s.olen + 1#64 := rfl
@[simp] theorem State.append_rpos : (s.append b).rpos = s.rpos := rfl
@[simp] theorem State.append_origSize : (s.append b).origSize = s.origSize := rfl
@[simp] theorem State.append_wbLen : (s.append b).wbLen = s.wbLen := rfl
@[simp] theorem State.append_wbVal : (s.append b).wbVal = s.wbVal := rfl
@[simp] theorem State.append_acc : (s.append b).acc = s.acc := rfl
@[simp] theorem State.append_nbits : (s.append b).nbits = s.nbits := rfl
@[simp] theorem State.append_cur : (s.append b).cur = s.cur := rfl
@[simp] theorem State.append_rem : (s.append b).rem = s.rem := rfl
@[simp] theorem State.append_rbit : (s.append b).rbit = s.rbit := rfl
@[simp] theorem State.append_sym : (s.append b).sym = s.sym := rfl
@[simp] theorem State.append_freq : (s.append b).freq = s.freq := rfl
@[simp] theorem State.append_tree : (s.append b).tree = s.tree := rfl
@[simp] theorem State.append_code : (s.append b).code = s.code := rfl
@[simp] theorem State.append_eidx : (s.append b).eidx = s.eidx := rfl
@[simp] theorem State.append_dcnt : (s.append b).dcnt = s.dcnt := rfl
@[simp] theorem State.append_curn : (s.append b).curn = s.curn := rfl
@[simp] theorem State.append_stack : (s.append b).stack = s.stack := rfl
@[simp] theorem State.append_ibuf : (s.append b).ibuf = s.ibuf := rfl
@[simp] theorem State.append_obuf : (s.append b).obuf = Mem.write s.obuf s.olen.toNat b := rfl
@[simp] theorem State.append_ibufCap : (s.append b).ibufCap = s.ibufCap := rfl
@[simp] theorem State.append_obufCap : (s.append b).obufCap = s.obufCap := rfl
@[simp] theorem State.append_host : (s.append b).host = s.host := rfl
@[simp] theorem State.append_resets : (s.append b).resets = s.resets := rfl
end

/-! ### State.setWriter -/

section
variable (s : State) (a : Byte) (n : BitVec 3)
@[simp] theorem State.setWriter_busy : (s.setWriter a n).busy = s.busy := rfl
@[simp] theorem State.setWriter_treeValid : (s.setWriter a n).treeValid = s.treeValid := rfl
@[simp] theorem State.setWriter_outValid : (s.setWriter a n).outValid = s.outValid := rfl
@[simp] theorem State.setWriter_err : (s.setWriter a n).err = s.err := rfl
@[simp] theorem State.setWriter_ilen : (s.setWriter a n).ilen = s.ilen := rfl
@[simp] theorem State.setWriter_olen : (s.setWriter a n).olen = s.olen := rfl
@[simp] theorem State.setWriter_rpos : (s.setWriter a n).rpos = s.rpos := rfl
@[simp] theorem State.setWriter_origSize : (s.setWriter a n).origSize = s.origSize := rfl
@[simp] theorem State.setWriter_wbLen : (s.setWriter a n).wbLen = s.wbLen := rfl
@[simp] theorem State.setWriter_wbVal : (s.setWriter a n).wbVal = s.wbVal := rfl
@[simp] theorem State.setWriter_acc : (s.setWriter a n).acc = a := rfl
@[simp] theorem State.setWriter_nbits : (s.setWriter a n).nbits = n := rfl
@[simp] theorem State.setWriter_cur : (s.setWriter a n).cur = s.cur := rfl
@[simp] theorem State.setWriter_rem : (s.setWriter a n).rem = s.rem := rfl
@[simp] theorem State.setWriter_rbit : (s.setWriter a n).rbit = s.rbit := rfl
@[simp] theorem State.setWriter_sym : (s.setWriter a n).sym = s.sym := rfl
@[simp] theorem State.setWriter_freq : (s.setWriter a n).freq = s.freq := rfl
@[simp] theorem State.setWriter_tree : (s.setWriter a n).tree = s.tree := rfl
@[simp] theorem State.setWriter_code : (s.setWriter a n).code = s.code := rfl
@[simp] theorem State.setWriter_eidx : (s.setWriter a n).eidx = s.eidx := rfl
@[simp] theorem State.setWriter_dcnt : (s.setWriter a n).dcnt = s.dcnt := rfl
@[simp] theorem State.setWriter_curn : (s.setWriter a n).curn = s.curn := rfl
@[simp] theorem State.setWriter_stack : (s.setWriter a n).stack = s.stack := rfl
@[simp] theorem State.setWriter_ibuf : (s.setWriter a n).ibuf = s.ibuf := rfl
@[simp] theorem State.setWriter_obuf : (s.setWriter a n).obuf = s.obuf := rfl
@[simp] theorem State.setWriter_ibufCap : (s.setWriter a n).ibufCap = s.ibufCap := rfl
@[simp] theorem State.setWriter_obufCap : (s.setWriter a n).obufCap = s.obufCap := rfl
@[simp] theorem State.setWriter_host : (s.setWriter a n).host = s.host := rfl
@[simp] theorem State.setWriter_resets : (s.setWriter a n).resets = s.resets := rfl
end

/-! ### State.clearWriter -/

section
variable (s : State)
@[simp] theorem State.clearWriter_busy : (s.clearWriter).busy = s.busy := rfl
@[simp] theorem State.clearWriter_treeValid : (s.clearWriter).treeValid = s.treeValid := rfl
@[simp] theorem State.clearWriter_outValid : (s.clearWriter).outValid = s.outValid := rfl
@[simp] theorem State.clearWriter_err : (s.clearWriter).err = s.err := rfl
@[simp] theorem State.clearWriter_ilen : (s.clearWriter).ilen = s.ilen := rfl
@[simp] theorem State.clearWriter_olen : (s.clearWriter).olen = s.olen := rfl
@[simp] theorem State.clearWriter_rpos : (s.clearWriter).rpos = s.rpos := rfl
@[simp] theorem State.clearWriter_origSize : (s.clearWriter).origSize = s.origSize := rfl
@[simp] theorem State.clearWriter_wbLen : (s.clearWriter).wbLen = s.wbLen := rfl
@[simp] theorem State.clearWriter_wbVal : (s.clearWriter).wbVal = s.wbVal := rfl
@[simp] theorem State.clearWriter_acc : (s.clearWriter).acc = 0#8 := rfl
@[simp] theorem State.clearWriter_nbits : (s.clearWriter).nbits = 0#3 := rfl
@[simp] theorem State.clearWriter_cur : (s.clearWriter).cur = s.cur := rfl
@[simp] theorem State.clearWriter_rem : (s.clearWriter).rem = s.rem := rfl
@[simp] theorem State.clearWriter_rbit : (s.clearWriter).rbit = s.rbit := rfl
@[simp] theorem State.clearWriter_sym : (s.clearWriter).sym = s.sym := rfl
@[simp] theorem State.clearWriter_freq : (s.clearWriter).freq = s.freq := rfl
@[simp] theorem State.clearWriter_tree : (s.clearWriter).tree = s.tree := rfl
@[simp] theorem State.clearWriter_code : (s.clearWriter).code = s.code := rfl
@[simp] theorem State.clearWriter_eidx : (s.clearWriter).eidx = s.eidx := rfl
@[simp] theorem State.clearWriter_dcnt : (s.clearWriter).dcnt = s.dcnt := rfl
@[simp] theorem State.clearWriter_curn : (s.clearWriter).curn = s.curn := rfl
@[simp] theorem State.clearWriter_stack : (s.clearWriter).stack = s.stack := rfl
@[simp] theorem State.clearWriter_ibuf : (s.clearWriter).ibuf = s.ibuf := rfl
@[simp] theorem State.clearWriter_obuf : (s.clearWriter).obuf = s.obuf := rfl
@[simp] theorem State.clearWriter_ibufCap : (s.clearWriter).ibufCap = s.ibufCap := rfl
@[simp] theorem State.clearWriter_obufCap : (s.clearWriter).obufCap = s.obufCap := rfl
@[simp] theorem State.clearWriter_host : (s.clearWriter).host = s.host := rfl
@[simp] theorem State.clearWriter_resets : (s.clearWriter).resets = s.resets := rfl
end

/-! ### State.startReader -/

section
variable (s : State) (a : U64)
@[simp] theorem State.startReader_busy : (s.startReader a).busy = s.busy := rfl
@[simp] theorem State.startReader_treeValid : (s.startReader a).treeValid = s.treeValid := rfl
@[simp] theorem State.startReader_outValid : (s.startReader a).outValid = s.outValid := rfl
@[simp] theorem State.startReader_err : (s.startReader a).err = s.err := rfl
@[simp] theorem State.startReader_ilen : (s.startReader a).ilen = s.ilen := rfl
@[simp] theorem State.startReader_olen : (s.startReader a).olen = s.olen := rfl
@[simp] theorem State.startReader_rpos : (s.startReader a).rpos = a := rfl
@[simp] theorem State.startReader_origSize : (s.startReader a).origSize = s.origSize := rfl
@[simp] theorem State.startReader_wbLen : (s.startReader a).wbLen = s.wbLen := rfl
@[simp] theorem State.startReader_wbVal : (s.startReader a).wbVal = s.wbVal := rfl
@[simp] theorem State.startReader_acc : (s.startReader a).acc = s.acc := rfl
@[simp] theorem State.startReader_nbits : (s.startReader a).nbits = s.nbits := rfl
@[simp] theorem State.startReader_cur : (s.startReader a).cur = 0#8 := rfl
@[simp] theorem State.startReader_rem : (s.startReader a).rem = 0#4 := rfl
@[simp] theorem State.startReader_rbit : (s.startReader a).rbit = s.rbit := rfl
@[simp] theorem State.startReader_sym : (s.startReader a).sym = s.sym := rfl
@[simp] theorem State.startReader_freq : (s.startReader a).freq = s.freq := rfl
@[simp] theorem State.startReader_tree : (s.startReader a).tree = s.tree := rfl
@[simp] theorem State.startReader_code : (s.startReader a).code = s.code := rfl
@[simp] theorem State.startReader_eidx : (s.startReader a).eidx = s.eidx := rfl
@[simp] theorem State.startReader_dcnt : (s.startReader a).dcnt = s.dcnt := rfl
@[simp] theorem State.startReader_curn : (s.startReader a).curn = s.curn := rfl
@[simp] theorem State.startReader_stack : (s.startReader a).stack = s.stack := rfl
@[simp] theorem State.startReader_ibuf : (s.startReader a).ibuf = s.ibuf := rfl
@[simp] theorem State.startReader_obuf : (s.startReader a).obuf = s.obuf := rfl
@[simp] theorem State.startReader_ibufCap : (s.startReader a).ibufCap = s.ibufCap := rfl
@[simp] theorem State.startReader_obufCap : (s.startReader a).obufCap = s.obufCap := rfl
@[simp] theorem State.startReader_host : (s.startReader a).host = s.host := rfl
@[simp] theorem State.startReader_resets : (s.startReader a).resets = s.resets := rfl
end

/-! ### State.setTree -/

section
variable (s : State) (t : Tree)
@[simp] theorem State.setTree_busy : (s.setTree t).busy = s.busy := rfl
@[simp] theorem State.setTree_treeValid : (s.setTree t).treeValid = s.treeValid := rfl
@[simp] theorem State.setTree_outValid : (s.setTree t).outValid = s.outValid := rfl
@[simp] theorem State.setTree_err : (s.setTree t).err = s.err := rfl
@[simp] theorem State.setTree_ilen : (s.setTree t).ilen = s.ilen := rfl
@[simp] theorem State.setTree_olen : (s.setTree t).olen = s.olen := rfl
@[simp] theorem State.setTree_rpos : (s.setTree t).rpos = s.rpos := rfl
@[simp] theorem State.setTree_origSize : (s.setTree t).origSize = s.origSize := rfl
@[simp] theorem State.setTree_wbLen : (s.setTree t).wbLen = s.wbLen := rfl
@[simp] theorem State.setTree_wbVal : (s.setTree t).wbVal = s.wbVal := rfl
@[simp] theorem State.setTree_acc : (s.setTree t).acc = s.acc := rfl
@[simp] theorem State.setTree_nbits : (s.setTree t).nbits = s.nbits := rfl
@[simp] theorem State.setTree_cur : (s.setTree t).cur = s.cur := rfl
@[simp] theorem State.setTree_rem : (s.setTree t).rem = s.rem := rfl
@[simp] theorem State.setTree_rbit : (s.setTree t).rbit = s.rbit := rfl
@[simp] theorem State.setTree_sym : (s.setTree t).sym = s.sym := rfl
@[simp] theorem State.setTree_freq : (s.setTree t).freq = s.freq := rfl
@[simp] theorem State.setTree_tree : (s.setTree t).tree = t := rfl
@[simp] theorem State.setTree_code : (s.setTree t).code = s.code := rfl
@[simp] theorem State.setTree_eidx : (s.setTree t).eidx = s.eidx := rfl
@[simp] theorem State.setTree_dcnt : (s.setTree t).dcnt = s.dcnt := rfl
@[simp] theorem State.setTree_curn : (s.setTree t).curn = s.curn := rfl
@[simp] theorem State.setTree_stack : (s.setTree t).stack = s.stack := rfl
@[simp] theorem State.setTree_ibuf : (s.setTree t).ibuf = s.ibuf := rfl
@[simp] theorem State.setTree_obuf : (s.setTree t).obuf = s.obuf := rfl
@[simp] theorem State.setTree_ibufCap : (s.setTree t).ibufCap = s.ibufCap := rfl
@[simp] theorem State.setTree_obufCap : (s.setTree t).obufCap = s.obufCap := rfl
@[simp] theorem State.setTree_host : (s.setTree t).host = s.host := rfl
@[simp] theorem State.setTree_resets : (s.setTree t).resets = s.resets := rfl
end

/-! ### State.setTreeValid -/

section
variable (s : State) (v : Bool)
@[simp] theorem State.setTreeValid_busy : (s.setTreeValid v).busy = s.busy := rfl
@[simp] theorem State.setTreeValid_treeValid : (s.setTreeValid v).treeValid = v := rfl
@[simp] theorem State.setTreeValid_outValid : (s.setTreeValid v).outValid = s.outValid := rfl
@[simp] theorem State.setTreeValid_err : (s.setTreeValid v).err = s.err := rfl
@[simp] theorem State.setTreeValid_ilen : (s.setTreeValid v).ilen = s.ilen := rfl
@[simp] theorem State.setTreeValid_olen : (s.setTreeValid v).olen = s.olen := rfl
@[simp] theorem State.setTreeValid_rpos : (s.setTreeValid v).rpos = s.rpos := rfl
@[simp] theorem State.setTreeValid_origSize : (s.setTreeValid v).origSize = s.origSize := rfl
@[simp] theorem State.setTreeValid_wbLen : (s.setTreeValid v).wbLen = s.wbLen := rfl
@[simp] theorem State.setTreeValid_wbVal : (s.setTreeValid v).wbVal = s.wbVal := rfl
@[simp] theorem State.setTreeValid_acc : (s.setTreeValid v).acc = s.acc := rfl
@[simp] theorem State.setTreeValid_nbits : (s.setTreeValid v).nbits = s.nbits := rfl
@[simp] theorem State.setTreeValid_cur : (s.setTreeValid v).cur = s.cur := rfl
@[simp] theorem State.setTreeValid_rem : (s.setTreeValid v).rem = s.rem := rfl
@[simp] theorem State.setTreeValid_rbit : (s.setTreeValid v).rbit = s.rbit := rfl
@[simp] theorem State.setTreeValid_sym : (s.setTreeValid v).sym = s.sym := rfl
@[simp] theorem State.setTreeValid_freq : (s.setTreeValid v).freq = s.freq := rfl
@[simp] theorem State.setTreeValid_tree : (s.setTreeValid v).tree = s.tree := rfl
@[simp] theorem State.setTreeValid_code : (s.setTreeValid v).code = s.code := rfl
@[simp] theorem State.setTreeValid_eidx : (s.setTreeValid v).eidx = s.eidx := rfl
@[simp] theorem State.setTreeValid_dcnt : (s.setTreeValid v).dcnt = s.dcnt := rfl
@[simp] theorem State.setTreeValid_curn : (s.setTreeValid v).curn = s.curn := rfl
@[simp] theorem State.setTreeValid_stack : (s.setTreeValid v).stack = s.stack := rfl
@[simp] theorem State.setTreeValid_ibuf : (s.setTreeValid v).ibuf = s.ibuf := rfl
@[simp] theorem State.setTreeValid_obuf : (s.setTreeValid v).obuf = s.obuf := rfl
@[simp] theorem State.setTreeValid_ibufCap : (s.setTreeValid v).ibufCap = s.ibufCap := rfl
@[simp] theorem State.setTreeValid_obufCap : (s.setTreeValid v).obufCap = s.obufCap := rfl
@[simp] theorem State.setTreeValid_host : (s.setTreeValid v).host = s.host := rfl
@[simp] theorem State.setTreeValid_resets : (s.setTreeValid v).resets = s.resets := rfl
end

/-! ### State.setOutValid -/

section
variable (s : State) (v : Bool)
@[simp] theorem State.setOutValid_busy : (s.setOutValid v).busy = s.busy := rfl
@[simp] theorem State.setOutValid_treeValid : (s.setOutValid v).treeValid = s.treeValid := rfl
@[simp] theorem State.setOutValid_outValid : (s.setOutValid v).outValid = v := rfl
@[simp] theorem State.setOutValid_err : (s.setOutValid v).err = s.err := rfl
@[simp] theorem State.setOutValid_ilen : (s.setOutValid v).ilen = s.ilen := rfl
@[simp] theorem State.setOutValid_olen : (s.setOutValid v).olen = s.olen := rfl
@[simp] theorem State.setOutValid_rpos : (s.setOutValid v).rpos = s.rpos := rfl
@[simp] theorem State.setOutValid_origSize : (s.setOutValid v).origSize = s.origSize := rfl
@[simp] theorem State.setOutValid_wbLen : (s.setOutValid v).wbLen = s.wbLen := rfl
@[simp] theorem State.setOutValid_wbVal : (s.setOutValid v).wbVal = s.wbVal := rfl
@[simp] theorem State.setOutValid_acc : (s.setOutValid v).acc = s.acc := rfl
@[simp] theorem State.setOutValid_nbits : (s.setOutValid v).nbits = s.nbits := rfl
@[simp] theorem State.setOutValid_cur : (s.setOutValid v).cur = s.cur := rfl
@[simp] theorem State.setOutValid_rem : (s.setOutValid v).rem = s.rem := rfl
@[simp] theorem State.setOutValid_rbit : (s.setOutValid v).rbit = s.rbit := rfl
@[simp] theorem State.setOutValid_sym : (s.setOutValid v).sym = s.sym := rfl
@[simp] theorem State.setOutValid_freq : (s.setOutValid v).freq = s.freq := rfl
@[simp] theorem State.setOutValid_tree : (s.setOutValid v).tree = s.tree := rfl
@[simp] theorem State.setOutValid_code : (s.setOutValid v).code = s.code := rfl
@[simp] theorem State.setOutValid_eidx : (s.setOutValid v).eidx = s.eidx := rfl
@[simp] theorem State.setOutValid_dcnt : (s.setOutValid v).dcnt = s.dcnt := rfl
@[simp] theorem State.setOutValid_curn : (s.setOutValid v).curn = s.curn := rfl
@[simp] theorem State.setOutValid_stack : (s.setOutValid v).stack = s.stack := rfl
@[simp] theorem State.setOutValid_ibuf : (s.setOutValid v).ibuf = s.ibuf := rfl
@[simp] theorem State.setOutValid_obuf : (s.setOutValid v).obuf = s.obuf := rfl
@[simp] theorem State.setOutValid_ibufCap : (s.setOutValid v).ibufCap = s.ibufCap := rfl
@[simp] theorem State.setOutValid_obufCap : (s.setOutValid v).obufCap = s.obufCap := rfl
@[simp] theorem State.setOutValid_host : (s.setOutValid v).host = s.host := rfl
@[simp] theorem State.setOutValid_resets : (s.setOutValid v).resets = s.resets := rfl
end

/-! ### State.pullByte -/

section
variable (s : State)
@[simp] theorem State.pullByte_busy : (s.pullByte).busy = s.busy := rfl
@[simp] theorem State.pullByte_treeValid : (s.pullByte).treeValid = s.treeValid := rfl
@[simp] theorem State.pullByte_outValid : (s.pullByte).outValid = s.outValid := rfl
@[simp] theorem State.pullByte_err : (s.pullByte).err = s.err := rfl
@[simp] theorem State.pullByte_ilen : (s.pullByte).ilen = s.ilen := rfl
@[simp] theorem State.pullByte_olen : (s.pullByte).olen = s.olen := rfl
@[simp] theorem State.pullByte_rpos : (s.pullByte).rpos = s.rpos + 1#64 := rfl
@[simp] theorem State.pullByte_origSize : (s.pullByte).origSize = s.origSize := rfl
@[simp] theorem State.pullByte_wbLen : (s.pullByte).wbLen = s.wbLen := rfl
@[simp] theorem State.pullByte_wbVal : (s.pullByte).wbVal = s.wbVal := rfl
@[simp] theorem State.pullByte_acc : (s.pullByte).acc = s.acc := rfl
@[simp] theorem State.pullByte_nbits : (s.pullByte).nbits = s.nbits := rfl
@[simp] theorem State.pullByte_cur : (s.pullByte).cur = ibufByte s s.rpos.toNat := rfl
@[simp] theorem State.pullByte_rem : (s.pullByte).rem = 8#4 := rfl
@[simp] theorem State.pullByte_rbit : (s.pullByte).rbit = s.rbit := rfl
@[simp] theorem State.pullByte_sym : (s.pullByte).sym = s.sym := rfl
@[simp] theorem State.pullByte_freq : (s.pullByte).freq = s.freq := rfl
@[simp] theorem State.pullByte_tree : (s.pullByte).tree = s.tree := rfl
@[simp] theorem State.pullByte_code : (s.pullByte).code = s.code := rfl
@[simp] theorem State.pullByte_eidx : (s.pullByte).eidx = s.eidx := rfl
@[simp] theorem State.pullByte_dcnt : (s.pullByte).dcnt = s.dcnt := rfl
@[simp] theorem State.pullByte_curn : (s.pullByte).curn = s.curn := rfl
@[simp] theorem State.pullByte_stack : (s.pullByte).stack = s.stack := rfl
@[simp] theorem State.pullByte_ibuf : (s.pullByte).ibuf = s.ibuf := rfl
@[simp] theorem State.pullByte_obuf : (s.pullByte).obuf = s.obuf := rfl
@[simp] theorem State.pullByte_ibufCap : (s.pullByte).ibufCap = s.ibufCap := rfl
@[simp] theorem State.pullByte_obufCap : (s.pullByte).obufCap = s.obufCap := rfl
@[simp] theorem State.pullByte_host : (s.pullByte).host = s.host := rfl
@[simp] theorem State.pullByte_resets : (s.pullByte).resets = s.resets := rfl
end

/-! ### State.takeBit -/

section
variable (s : State)
@[simp] theorem State.takeBit_busy : (s.takeBit).busy = s.busy := rfl
@[simp] theorem State.takeBit_treeValid : (s.takeBit).treeValid = s.treeValid := rfl
@[simp] theorem State.takeBit_outValid : (s.takeBit).outValid = s.outValid := rfl
@[simp] theorem State.takeBit_err : (s.takeBit).err = s.err := rfl
@[simp] theorem State.takeBit_ilen : (s.takeBit).ilen = s.ilen := rfl
@[simp] theorem State.takeBit_olen : (s.takeBit).olen = s.olen := rfl
@[simp] theorem State.takeBit_rpos : (s.takeBit).rpos = s.rpos := rfl
@[simp] theorem State.takeBit_origSize : (s.takeBit).origSize = s.origSize := rfl
@[simp] theorem State.takeBit_wbLen : (s.takeBit).wbLen = s.wbLen := rfl
@[simp] theorem State.takeBit_wbVal : (s.takeBit).wbVal = s.wbVal := rfl
@[simp] theorem State.takeBit_acc : (s.takeBit).acc = s.acc := rfl
@[simp] theorem State.takeBit_nbits : (s.takeBit).nbits = s.nbits := rfl
@[simp] theorem State.takeBit_cur : (s.takeBit).cur = s.cur := rfl
@[simp] theorem State.takeBit_rem : (s.takeBit).rem = s.rem - 1#4 := rfl
@[simp] theorem State.takeBit_rbit : (s.takeBit).rbit = s.nextBit := rfl
@[simp] theorem State.takeBit_sym : (s.takeBit).sym = s.sym := rfl
@[simp] theorem State.takeBit_freq : (s.takeBit).freq = s.freq := rfl
@[simp] theorem State.takeBit_tree : (s.takeBit).tree = s.tree := rfl
@[simp] theorem State.takeBit_code : (s.takeBit).code = s.code := rfl
@[simp] theorem State.takeBit_eidx : (s.takeBit).eidx = s.eidx := rfl
@[simp] theorem State.takeBit_dcnt : (s.takeBit).dcnt = s.dcnt := rfl
@[simp] theorem State.takeBit_curn : (s.takeBit).curn = s.curn := rfl
@[simp] theorem State.takeBit_stack : (s.takeBit).stack = s.stack := rfl
@[simp] theorem State.takeBit_ibuf : (s.takeBit).ibuf = s.ibuf := rfl
@[simp] theorem State.takeBit_obuf : (s.takeBit).obuf = s.obuf := rfl
@[simp] theorem State.takeBit_ibufCap : (s.takeBit).ibufCap = s.ibufCap := rfl
@[simp] theorem State.takeBit_obufCap : (s.takeBit).obufCap = s.obufCap := rfl
@[simp] theorem State.takeBit_host : (s.takeBit).host = s.host := rfl
@[simp] theorem State.takeBit_resets : (s.takeBit).resets = s.resets := rfl
end

/-! ### State.pushFrame -/

section
variable (s : State) (f : Frame)
@[simp] theorem State.pushFrame_busy : (s.pushFrame f).busy = s.busy := rfl
@[simp] theorem State.pushFrame_treeValid : (s.pushFrame f).treeValid = s.treeValid := rfl
@[simp] theorem State.pushFrame_outValid : (s.pushFrame f).outValid = s.outValid := rfl
@[simp] theorem State.pushFrame_err : (s.pushFrame f).err = s.err := rfl
@[simp] theorem State.pushFrame_ilen : (s.pushFrame f).ilen = s.ilen := rfl
@[simp] theorem State.pushFrame_olen : (s.pushFrame f).olen = s.olen := rfl
@[simp] theorem State.pushFrame_rpos : (s.pushFrame f).rpos = s.rpos := rfl
@[simp] theorem State.pushFrame_origSize : (s.pushFrame f).origSize = s.origSize := rfl
@[simp] theorem State.pushFrame_wbLen : (s.pushFrame f).wbLen = s.wbLen := rfl
@[simp] theorem State.pushFrame_wbVal : (s.pushFrame f).wbVal = s.wbVal := rfl
@[simp] theorem State.pushFrame_acc : (s.pushFrame f).acc = s.acc := rfl
@[simp] theorem State.pushFrame_nbits : (s.pushFrame f).nbits = s.nbits := rfl
@[simp] theorem State.pushFrame_cur : (s.pushFrame f).cur = s.cur := rfl
@[simp] theorem State.pushFrame_rem : (s.pushFrame f).rem = s.rem := rfl
@[simp] theorem State.pushFrame_rbit : (s.pushFrame f).rbit = s.rbit := rfl
@[simp] theorem State.pushFrame_sym : (s.pushFrame f).sym = s.sym := rfl
@[simp] theorem State.pushFrame_freq : (s.pushFrame f).freq = s.freq := rfl
@[simp] theorem State.pushFrame_tree : (s.pushFrame f).tree = s.tree := rfl
@[simp] theorem State.pushFrame_code : (s.pushFrame f).code = s.code := rfl
@[simp] theorem State.pushFrame_eidx : (s.pushFrame f).eidx = s.eidx := rfl
@[simp] theorem State.pushFrame_dcnt : (s.pushFrame f).dcnt = s.dcnt := rfl
@[simp] theorem State.pushFrame_curn : (s.pushFrame f).curn = s.curn := rfl
@[simp] theorem State.pushFrame_stack : (s.pushFrame f).stack = f :: s.stack := rfl
@[simp] theorem State.pushFrame_ibuf : (s.pushFrame f).ibuf = s.ibuf := rfl
@[simp] theorem State.pushFrame_obuf : (s.pushFrame f).obuf = s.obuf := rfl
@[simp] theorem State.pushFrame_ibufCap : (s.pushFrame f).ibufCap = s.ibufCap := rfl
@[simp] theorem State.pushFrame_obufCap : (s.pushFrame f).obufCap = s.obufCap := rfl
@[simp] theorem State.pushFrame_host : (s.pushFrame f).host = s.host := rfl
@[simp] theorem State.pushFrame_resets : (s.pushFrame f).resets = s.resets := rfl
end

/-! ### State.descend -/

section
variable (s : State)
@[simp] theorem State.descend_busy : (s.descend).busy = s.busy := rfl
@[simp] theorem State.descend_treeValid : (s.descend).treeValid = s.treeValid := rfl
@[simp] theorem State.descend_outValid : (s.descend).outValid = s.outValid := rfl
@[simp] theorem State.descend_err : (s.descend).err = s.err := rfl
@[simp] theorem State.descend_ilen : (s.descend).ilen = s.ilen := rfl
@[simp] theorem State.descend_olen : (s.descend).olen = s.olen := rfl
@[simp] theorem State.descend_rpos : (s.descend).rpos = s.rpos := rfl
@[simp] theorem State.descend_origSize : (s.descend).origSize = s.origSize := rfl
@[simp] theorem State.descend_wbLen : (s.descend).wbLen = s.wbLen := rfl
@[simp] theorem State.descend_wbVal : (s.descend).wbVal = s.wbVal := rfl
@[simp] theorem State.descend_acc : (s.descend).acc = s.acc := rfl
@[simp] theorem State.descend_nbits : (s.descend).nbits = s.nbits := rfl
@[simp] theorem State.descend_cur : (s.descend).cur = s.cur := rfl
@[simp] theorem State.descend_rem : (s.descend).rem = s.rem := rfl
@[simp] theorem State.descend_rbit : (s.descend).rbit = s.rbit := rfl
@[simp] theorem State.descend_sym : (s.descend).sym = s.sym := rfl
@[simp] theorem State.descend_freq : (s.descend).freq = s.freq := rfl
@[simp] theorem State.descend_tree : (s.descend).tree = s.tree := rfl
@[simp] theorem State.descend_code : (s.descend).code = s.code := rfl
@[simp] theorem State.descend_eidx : (s.descend).eidx = s.eidx := rfl
@[simp] theorem State.descend_dcnt : (s.descend).dcnt = s.dcnt := rfl
@[simp] theorem State.descend_curn : (s.descend).curn = if s.rbit then s.walkNode.right else s.walkNode.left := rfl
@[simp] theorem State.descend_stack : (s.descend).stack = s.stack := rfl
@[simp] theorem State.descend_ibuf : (s.descend).ibuf = s.ibuf := rfl
@[simp] theorem State.descend_obuf : (s.descend).obuf = s.obuf := rfl
@[simp] theorem State.descend_ibufCap : (s.descend).ibufCap = s.ibufCap := rfl
@[simp] theorem State.descend_obufCap : (s.descend).obufCap = s.obufCap := rfl
@[simp] theorem State.descend_host : (s.descend).host = s.host := rfl
@[simp] theorem State.descend_resets : (s.descend).resets = s.resets := rfl
end

/-! ### State.setSym -/

section
variable (s : State)
@[simp] theorem State.setSym_busy : (s.setSym).busy = s.busy := rfl
@[simp] theorem State.setSym_treeValid : (s.setSym).treeValid = s.treeValid := rfl
@[simp] theorem State.setSym_outValid : (s.setSym).outValid = s.outValid := rfl
@[simp] theorem State.setSym_err : (s.setSym).err = s.err := rfl
@[simp] theorem State.setSym_ilen : (s.setSym).ilen = s.ilen := rfl
@[simp] theorem State.setSym_olen : (s.setSym).olen = s.olen := rfl
@[simp] theorem State.setSym_rpos : (s.setSym).rpos = s.rpos := rfl
@[simp] theorem State.setSym_origSize : (s.setSym).origSize = s.origSize := rfl
@[simp] theorem State.setSym_wbLen : (s.setSym).wbLen = s.wbLen := rfl
@[simp] theorem State.setSym_wbVal : (s.setSym).wbVal = s.wbVal := rfl
@[simp] theorem State.setSym_acc : (s.setSym).acc = s.acc := rfl
@[simp] theorem State.setSym_nbits : (s.setSym).nbits = s.nbits := rfl
@[simp] theorem State.setSym_cur : (s.setSym).cur = s.cur := rfl
@[simp] theorem State.setSym_rem : (s.setSym).rem = s.rem := rfl
@[simp] theorem State.setSym_rbit : (s.setSym).rbit = s.rbit := rfl
@[simp] theorem State.setSym_sym : (s.setSym).sym = s.walkNode.sym := rfl
@[simp] theorem State.setSym_freq : (s.setSym).freq = s.freq := rfl
@[simp] theorem State.setSym_tree : (s.setSym).tree = s.tree := rfl
@[simp] theorem State.setSym_code : (s.setSym).code = s.code := rfl
@[simp] theorem State.setSym_eidx : (s.setSym).eidx = s.eidx := rfl
@[simp] theorem State.setSym_dcnt : (s.setSym).dcnt = s.dcnt := rfl
@[simp] theorem State.setSym_curn : (s.setSym).curn = s.curn := rfl
@[simp] theorem State.setSym_stack : (s.setSym).stack = s.stack := rfl
@[simp] theorem State.setSym_ibuf : (s.setSym).ibuf = s.ibuf := rfl
@[simp] theorem State.setSym_obuf : (s.setSym).obuf = s.obuf := rfl
@[simp] theorem State.setSym_ibufCap : (s.setSym).ibufCap = s.ibufCap := rfl
@[simp] theorem State.setSym_obufCap : (s.setSym).obufCap = s.obufCap := rfl
@[simp] theorem State.setSym_host : (s.setSym).host = s.host := rfl
@[simp] theorem State.setSym_resets : (s.setSym).resets = s.resets := rfl
end

/-! ### State.init -/

section
variable (s : State)
@[simp] theorem State.init_busy : (s.init).busy = s.busy := rfl
@[simp] theorem State.init_treeValid : (s.init).treeValid = false := rfl
@[simp] theorem State.init_outValid : (s.init).outValid = false := rfl
@[simp] theorem State.init_err : (s.init).err = s.err := rfl
@[simp] theorem State.init_ilen : (s.init).ilen = s.ilen := rfl
@[simp] theorem State.init_olen : (s.init).olen = 0#64 := rfl
@[simp] theorem State.init_rpos : (s.init).rpos = 0#64 := rfl
@[simp] theorem State.init_origSize : (s.init).origSize = s.origSize := rfl
@[simp] theorem State.init_wbLen : (s.init).wbLen = s.wbLen := rfl
@[simp] theorem State.init_wbVal : (s.init).wbVal = s.wbVal := rfl
@[simp] theorem State.init_acc : (s.init).acc = 0#8 := rfl
@[simp] theorem State.init_nbits : (s.init).nbits = 0#3 := rfl
@[simp] theorem State.init_cur : (s.init).cur = 0#8 := rfl
@[simp] theorem State.init_rem : (s.init).rem = 0#4 := rfl
@[simp] theorem State.init_rbit : (s.init).rbit = s.rbit := rfl
@[simp] theorem State.init_sym : (s.init).sym = s.sym := rfl
@[simp] theorem State.init_freq : (s.init).freq = s.freq := rfl
@[simp] theorem State.init_tree : (s.init).tree = s.tree := rfl
@[simp] theorem State.init_code : (s.init).code = s.code := rfl
@[simp] theorem State.init_eidx : (s.init).eidx = s.eidx := rfl
@[simp] theorem State.init_dcnt : (s.init).dcnt = s.dcnt := rfl
@[simp] theorem State.init_curn : (s.init).curn = s.curn := rfl
@[simp] theorem State.init_stack : (s.init).stack = s.stack := rfl
@[simp] theorem State.init_ibuf : (s.init).ibuf = s.ibuf := rfl
@[simp] theorem State.init_obuf : (s.init).obuf = s.obuf := rfl
@[simp] theorem State.init_ibufCap : (s.init).ibufCap = s.ibufCap := rfl
@[simp] theorem State.init_obufCap : (s.init).obufCap = s.obufCap := rfl
@[simp] theorem State.init_host : (s.init).host = s.host := rfl
@[simp] theorem State.init_resets : (s.init).resets = s.resets := rfl
end

/-! ### State.discardTreeForHeader -/

section
variable (s : State)
@[simp] theorem State.discardTreeForHeader_busy : (s.discardTreeForHeader).busy = s.busy := rfl
@[simp] theorem State.discardTreeForHeader_treeValid : (s.discardTreeForHeader).treeValid = false := rfl
@[simp] theorem State.discardTreeForHeader_outValid : (s.discardTreeForHeader).outValid = s.outValid := rfl
@[simp] theorem State.discardTreeForHeader_err : (s.discardTreeForHeader).err = s.err := rfl
@[simp] theorem State.discardTreeForHeader_ilen : (s.discardTreeForHeader).ilen = s.ilen := rfl
@[simp] theorem State.discardTreeForHeader_olen : (s.discardTreeForHeader).olen = s.olen := rfl
@[simp] theorem State.discardTreeForHeader_rpos : (s.discardTreeForHeader).rpos = s.rpos := rfl
@[simp] theorem State.discardTreeForHeader_origSize : (s.discardTreeForHeader).origSize = s.ilen := rfl
@[simp] theorem State.discardTreeForHeader_wbLen : (s.discardTreeForHeader).wbLen = s.wbLen := rfl
@[simp] theorem State.discardTreeForHeader_wbVal : (s.discardTreeForHeader).wbVal = s.wbVal := rfl
@[simp] theorem State.discardTreeForHeader_acc : (s.discardTreeForHeader).acc = s.acc := rfl
@[simp] theorem State.discardTreeForHeader_nbits : (s.discardTreeForHeader).nbits = s.nbits := rfl
@[simp] theorem State.discardTreeForHeader_cur : (s.discardTreeForHeader).cur = s.cur := rfl
@[simp] theorem State.discardTreeForHeader_rem : (s.discardTreeForHeader).rem = s.rem := rfl
@[simp] theorem State.discardTreeForHeader_rbit : (s.discardTreeForHeader).rbit = s.rbit := rfl
@[simp] theorem State.discardTreeForHeader_sym : (s.discardTreeForHeader).sym = s.sym := rfl
@[simp] theorem State.discardTreeForHeader_freq : (s.discardTreeForHeader).freq = s.freq := rfl
@[simp] theorem State.discardTreeForHeader_tree : (s.discardTreeForHeader).tree = s.tree := rfl
@[simp] theorem State.discardTreeForHeader_code : (s.discardTreeForHeader).code = s.code := rfl
@[simp] theorem State.discardTreeForHeader_eidx : (s.discardTreeForHeader).eidx = s.eidx := rfl
@[simp] theorem State.discardTreeForHeader_dcnt : (s.discardTreeForHeader).dcnt = s.dcnt := rfl
@[simp] theorem State.discardTreeForHeader_curn : (s.discardTreeForHeader).curn = s.curn := rfl
@[simp] theorem State.discardTreeForHeader_stack : (s.discardTreeForHeader).stack = s.stack := rfl
@[simp] theorem State.discardTreeForHeader_ibuf : (s.discardTreeForHeader).ibuf = s.ibuf := rfl
@[simp] theorem State.discardTreeForHeader_obuf : (s.discardTreeForHeader).obuf = s.obuf := rfl
@[simp] theorem State.discardTreeForHeader_ibufCap : (s.discardTreeForHeader).ibufCap = s.ibufCap := rfl
@[simp] theorem State.discardTreeForHeader_obufCap : (s.discardTreeForHeader).obufCap = s.obufCap := rfl
@[simp] theorem State.discardTreeForHeader_host : (s.discardTreeForHeader).host = s.host := rfl
@[simp] theorem State.discardTreeForHeader_resets : (s.discardTreeForHeader).resets = s.resets := rfl
end

/-! ### State.setBusy -/

section
variable (s : State)
@[simp] theorem State.setBusy_busy : (s.setBusy).busy = true := rfl
@[simp] theorem State.setBusy_treeValid : (s.setBusy).treeValid = s.treeValid := rfl
@[simp] theorem State.setBusy_outValid : (s.setBusy).outValid = s.outValid := rfl
@[simp] theorem State.setBusy_err : (s.setBusy).err = s.err := rfl
@[simp] theorem State.setBusy_ilen : (s.setBusy).ilen = s.ilen := rfl
@[simp] theorem State.setBusy_olen : (s.setBusy).olen = s.olen := rfl
@[simp] theorem State.setBusy_rpos : (s.setBusy).rpos = s.rpos := rfl
@[simp] theorem State.setBusy_origSize : (s.setBusy).origSize = s.origSize := rfl
@[simp] theorem State.setBusy_wbLen : (s.setBusy).wbLen = s.wbLen := rfl
@[simp] theorem State.setBusy_wbVal : (s.setBusy).wbVal = s.wbVal := rfl
@[simp] theorem State.setBusy_acc : (s.setBusy).acc = s.acc := rfl
@[simp] theorem State.setBusy_nbits : (s.setBusy).nbits = s.nbits := rfl
@[simp] theorem State.setBusy_cur : (s.setBusy).cur = s.cur := rfl
@[simp] theorem State.setBusy_rem : (s.setBusy).rem = s.rem := rfl
@[simp] theorem State.setBusy_rbit : (s.setBusy).rbit = s.rbit := rfl
@[simp] theorem State.setBusy_sym : (s.setBusy).sym = s.sym := rfl
@[simp] theorem State.setBusy_freq : (s.setBusy).freq = s.freq := rfl
@[simp] theorem State.setBusy_tree : (s.setBusy).tree = s.tree := rfl
@[simp] theorem State.setBusy_code : (s.setBusy).code = s.code := rfl
@[simp] theorem State.setBusy_eidx : (s.setBusy).eidx = s.eidx := rfl
@[simp] theorem State.setBusy_dcnt : (s.setBusy).dcnt = s.dcnt := rfl
@[simp] theorem State.setBusy_curn : (s.setBusy).curn = s.curn := rfl
@[simp] theorem State.setBusy_stack : (s.setBusy).stack = s.stack := rfl
@[simp] theorem State.setBusy_ibuf : (s.setBusy).ibuf = s.ibuf := rfl
@[simp] theorem State.setBusy_obuf : (s.setBusy).obuf = s.obuf := rfl
@[simp] theorem State.setBusy_ibufCap : (s.setBusy).ibufCap = s.ibufCap := rfl
@[simp] theorem State.setBusy_obufCap : (s.setBusy).obufCap = s.obufCap := rfl
@[simp] theorem State.setBusy_host : (s.setBusy).host = s.host := rfl
@[simp] theorem State.setBusy_resets : (s.setBusy).resets = s.resets := rfl
end

/-! ### State.popHost -/

section
variable (s : State) (r : List HostAct)
@[simp] theorem State.popHost_busy : (s.popHost r).busy = s.busy := rfl
@[simp] theorem State.popHost_treeValid : (s.popHost r).treeValid = s.treeValid := rfl
@[simp] theorem State.popHost_outValid : (s.popHost r).outValid = s.outValid := rfl
@[simp] theorem State.popHost_err : (s.popHost r).err = s.err := rfl
@[simp] theorem State.popHost_ilen : (s.popHost r).ilen = s.ilen := rfl
@[simp] theorem State.popHost_olen : (s.popHost r).olen = s.olen := rfl
@[simp] theorem State.popHost_rpos : (s.popHost r).rpos = s.rpos := rfl
@[simp] theorem State.popHost_origSize : (s.popHost r).origSize = s.origSize := rfl
@[simp] theorem State.popHost_wbLen : (s.popHost r).wbLen = s.wbLen := rfl
@[simp] theorem State.popHost_wbVal : (s.popHost r).wbVal = s.wbVal := rfl
@[simp] theorem State.popHost_acc : (s.popHost r).acc = s.acc := rfl
@[simp] theorem State.popHost_nbits : (s.popHost r).nbits = s.nbits := rfl
@[simp] theorem State.popHost_cur : (s.popHost r).cur = s.cur := rfl
@[simp] theorem State.popHost_rem : (s.popHost r).rem = s.rem := rfl
@[simp] theorem State.popHost_rbit : (s.popHost r).rbit = s.rbit := rfl
@[simp] theorem State.popHost_sym : (s.popHost r).sym = s.sym := rfl
@[simp] theorem State.popHost_freq : (s.popHost r).freq = s.freq := rfl
@[simp] theorem State.popHost_tree : (s.popHost r).tree = s.tree := rfl
@[simp] theorem State.popHost_code : (s.popHost r).code = s.code := rfl
@[simp] theorem State.popHost_eidx : (s.popHost r).eidx = s.eidx := rfl
@[simp] theorem State.popHost_dcnt : (s.popHost r).dcnt = s.dcnt := rfl
@[simp] theorem State.popHost_curn : (s.popHost r).curn = s.curn := rfl
@[simp] theorem State.popHost_stack : (s.popHost r).stack = s.stack := rfl
@[simp] theorem State.popHost_ibuf : (s.popHost r).ibuf = s.ibuf := rfl
@[simp] theorem State.popHost_obuf : (s.popHost r).obuf = s.obuf := rfl
@[simp] theorem State.popHost_ibufCap : (s.popHost r).ibufCap = s.ibufCap := rfl
@[simp] theorem State.popHost_obufCap : (s.popHost r).obufCap = s.obufCap := rfl
@[simp] theorem State.popHost_host : (s.popHost r).host = r := rfl
@[simp] theorem State.popHost_resets : (s.popHost r).resets = s.resets := rfl
end

/-! ### countInput -/

section
variable (s : State)
@[simp] theorem countInput_busy : (countInput s).busy = s.busy := rfl
@[simp] theorem countInput_treeValid : (countInput s).treeValid = s.treeValid := rfl
@[simp] theorem countInput_outValid : (countInput s).outValid = s.outValid := rfl
@[simp] theorem countInput_err : (countInput s).err = s.err := rfl
@[simp] theorem countInput_ilen : (countInput s).ilen = s.ilen := rfl
@[simp] theorem countInput_olen : (countInput s).olen = s.olen := rfl
@[simp] theorem countInput_rpos : (countInput s).rpos = s.rpos := rfl
@[simp] theorem countInput_origSize : (countInput s).origSize = s.origSize := rfl
@[simp] theorem countInput_wbLen : (countInput s).wbLen = s.wbLen := rfl
@[simp] theorem countInput_wbVal : (countInput s).wbVal = s.wbVal := rfl
@[simp] theorem countInput_acc : (countInput s).acc = s.acc := rfl
@[simp] theorem countInput_nbits : (countInput s).nbits = s.nbits := rfl
@[simp] theorem countInput_cur : (countInput s).cur = s.cur := rfl
@[simp] theorem countInput_rem : (countInput s).rem = s.rem := rfl
@[simp] theorem countInput_rbit : (countInput s).rbit = s.rbit := rfl
@[simp] theorem countInput_sym : (countInput s).sym = s.sym := rfl
@[simp] theorem countInput_freq : (countInput s).freq = tally s.input := rfl
@[simp] theorem countInput_tree : (countInput s).tree = s.tree := rfl
@[simp] theorem countInput_code : (countInput s).code = s.code := rfl
@[simp] theorem countInput_eidx : (countInput s).eidx = s.eidx := rfl
@[simp] theorem countInput_dcnt : (countInput s).dcnt = s.dcnt := rfl
@[simp] theorem countInput_curn : (countInput s).curn = s.curn := rfl
@[simp] theorem countInput_stack : (countInput s).stack = s.stack := rfl
@[simp] theorem countInput_ibuf : (countInput s).ibuf = s.ibuf := rfl
@[simp] theorem countInput_obuf : (countInput s).obuf = s.obuf := rfl
@[simp] theorem countInput_ibufCap : (countInput s).ibufCap = s.ibufCap := rfl
@[simp] theorem countInput_obufCap : (countInput s).obufCap = s.obufCap := rfl
@[simp] theorem countInput_host : (countInput s).host = s.host := rfl
@[simp] theorem countInput_resets : (countInput s).resets = s.resets := rfl
end

/-! ### clearCode -/

section
variable (s : State)
@[simp] theorem clearCode_busy : (clearCode s).busy = s.busy := rfl
@[simp] theorem clearCode_treeValid : (clearCode s).treeValid = s.treeValid := rfl
@[simp] theorem clearCode_outValid : (clearCode s).outValid = s.outValid := rfl
@[simp] theorem clearCode_err : (clearCode s).err = s.err := rfl
@[simp] theorem clearCode_ilen : (clearCode s).ilen = s.ilen := rfl
@[simp] theorem clearCode_olen : (clearCode s).olen = s.olen := rfl
@[simp] theorem clearCode_rpos : (clearCode s).rpos = s.rpos := rfl
@[simp] theorem clearCode_origSize : (clearCode s).origSize = s.origSize := rfl
@[simp] theorem clearCode_wbLen : (clearCode s).wbLen = s.wbLen := rfl
@[simp] theorem clearCode_wbVal : (clearCode s).wbVal = s.wbVal := rfl
@[simp] theorem clearCode_acc : (clearCode s).acc = s.acc := rfl
@[simp] theorem clearCode_nbits : (clearCode s).nbits = s.nbits := rfl
@[simp] theorem clearCode_cur : (clearCode s).cur = s.cur := rfl
@[simp] theorem clearCode_rem : (clearCode s).rem = s.rem := rfl
@[simp] theorem clearCode_rbit : (clearCode s).rbit = s.rbit := rfl
@[simp] theorem clearCode_sym : (clearCode s).sym = s.sym := rfl
@[simp] theorem clearCode_freq : (clearCode s).freq = s.freq := rfl
@[simp] theorem clearCode_tree : (clearCode s).tree = s.tree := rfl
@[simp] theorem clearCode_code : (clearCode s).code = Vector.replicate 256 CodeEntry.zero := rfl
@[simp] theorem clearCode_eidx : (clearCode s).eidx = s.eidx := rfl
@[simp] theorem clearCode_dcnt : (clearCode s).dcnt = s.dcnt := rfl
@[simp] theorem clearCode_curn : (clearCode s).curn = s.curn := rfl
@[simp] theorem clearCode_stack : (clearCode s).stack = s.stack := rfl
@[simp] theorem clearCode_ibuf : (clearCode s).ibuf = s.ibuf := rfl
@[simp] theorem clearCode_obuf : (clearCode s).obuf = s.obuf := rfl
@[simp] theorem clearCode_ibufCap : (clearCode s).ibufCap = s.ibufCap := rfl
@[simp] theorem clearCode_obufCap : (clearCode s).obufCap = s.obufCap := rfl
@[simp] theorem clearCode_host : (clearCode s).host = s.host := rfl
@[simp] theorem clearCode_resets : (clearCode s).resets = s.resets := rfl
end

/-! ### loadHeader -/

section
variable (s : State)
@[simp] theorem loadHeader_busy : (loadHeader s).busy = s.busy := rfl
@[simp] theorem loadHeader_treeValid : (loadHeader s).treeValid = s.treeValid := rfl
@[simp] theorem loadHeader_outValid : (loadHeader s).outValid = s.outValid := rfl
@[simp] theorem loadHeader_err : (loadHeader s).err = s.err := rfl
@[simp] theorem loadHeader_ilen : (loadHeader s).ilen = s.ilen := rfl
@[simp] theorem loadHeader_olen : (loadHeader s).olen = s.olen := rfl
@[simp] theorem loadHeader_rpos : (loadHeader s).rpos = BitVec.ofNat 64 Config.hdrBytes := rfl
@[simp] theorem loadHeader_origSize : (loadHeader s).origSize = ibufWord64 s Config.sizeOffset := rfl
@[simp] theorem loadHeader_wbLen : (loadHeader s).wbLen = s.wbLen := rfl
@[simp] theorem loadHeader_wbVal : (loadHeader s).wbVal = s.wbVal := rfl
@[simp] theorem loadHeader_acc : (loadHeader s).acc = s.acc := rfl
@[simp] theorem loadHeader_nbits : (loadHeader s).nbits = s.nbits := rfl
@[simp] theorem loadHeader_cur : (loadHeader s).cur = 0#8 := rfl
@[simp] theorem loadHeader_rem : (loadHeader s).rem = 0#4 := rfl
@[simp] theorem loadHeader_rbit : (loadHeader s).rbit = s.rbit := rfl
@[simp] theorem loadHeader_sym : (loadHeader s).sym = s.sym := rfl
@[simp] theorem loadHeader_freq : (loadHeader s).freq = storedCounts s := rfl
@[simp] theorem loadHeader_tree : (loadHeader s).tree = s.tree := rfl
@[simp] theorem loadHeader_code : (loadHeader s).code = s.code := rfl
@[simp] theorem loadHeader_eidx : (loadHeader s).eidx = s.eidx := rfl
@[simp] theorem loadHeader_dcnt : (loadHeader s).dcnt = s.dcnt := rfl
@[simp] theorem loadHeader_curn : (loadHeader s).curn = s.curn := rfl
@[simp] theorem loadHeader_stack : (loadHeader s).stack = s.stack := rfl
@[simp] theorem loadHeader_ibuf : (loadHeader s).ibuf = s.ibuf := rfl
@[simp] theorem loadHeader_obuf : (loadHeader s).obuf = s.obuf := rfl
@[simp] theorem loadHeader_ibufCap : (loadHeader s).ibufCap = s.ibufCap := rfl
@[simp] theorem loadHeader_obufCap : (loadHeader s).obufCap = s.obufCap := rfl
@[simp] theorem loadHeader_host : (loadHeader s).host = s.host := rfl
@[simp] theorem loadHeader_resets : (loadHeader s).resets = s.resets := rfl
end

/-! ### recordCode -/

section
variable (s : State) (c : Byte) (l : BitVec 8) (p : Pattern)
@[simp] theorem recordCode_busy : (recordCode s c l p).busy = s.busy := rfl
@[simp] theorem recordCode_treeValid : (recordCode s c l p).treeValid = s.treeValid := rfl
@[simp] theorem recordCode_outValid : (recordCode s c l p).outValid = s.outValid := rfl
@[simp] theorem recordCode_err : (recordCode s c l p).err = s.err := rfl
@[simp] theorem recordCode_ilen : (recordCode s c l p).ilen = s.ilen := rfl
@[simp] theorem recordCode_olen : (recordCode s c l p).olen = s.olen := rfl
@[simp] theorem recordCode_rpos : (recordCode s c l p).rpos = s.rpos := rfl
@[simp] theorem recordCode_origSize : (recordCode s c l p).origSize = s.origSize := rfl
@[simp] theorem recordCode_wbLen : (recordCode s c l p).wbLen = s.wbLen := rfl
@[simp] theorem recordCode_wbVal : (recordCode s c l p).wbVal = s.wbVal := rfl
@[simp] theorem recordCode_acc : (recordCode s c l p).acc = s.acc := rfl
@[simp] theorem recordCode_nbits : (recordCode s c l p).nbits = s.nbits := rfl
@[simp] theorem recordCode_cur : (recordCode s c l p).cur = s.cur := rfl
@[simp] theorem recordCode_rem : (recordCode s c l p).rem = s.rem := rfl
@[simp] theorem recordCode_rbit : (recordCode s c l p).rbit = s.rbit := rfl
@[simp] theorem recordCode_sym : (recordCode s c l p).sym = s.sym := rfl
@[simp] theorem recordCode_freq : (recordCode s c l p).freq = s.freq := rfl
@[simp] theorem recordCode_tree : (recordCode s c l p).tree = s.tree := rfl
@[simp] theorem recordCode_code : (recordCode s c l p).code = s.code.put c ⟨true, l, p⟩ := rfl
@[simp] theorem recordCode_eidx : (recordCode s c l p).eidx = s.eidx := rfl
@[simp] theorem recordCode_dcnt : (recordCode s c l p).dcnt = s.dcnt := rfl
@[simp] theorem recordCode_curn : (recordCode s c l p).curn = s.curn := rfl
@[simp] theorem recordCode_stack : (recordCode s c l p).stack = s.stack := rfl
@[simp] theorem recordCode_ibuf : (recordCode s c l p).ibuf = s.ibuf := rfl
@[simp] theorem recordCode_obuf : (recordCode s c l p).obuf = s.obuf := rfl
@[simp] theorem recordCode_ibufCap : (recordCode s c l p).ibufCap = s.ibufCap := rfl
@[simp] theorem recordCode_obufCap : (recordCode s c l p).obufCap = s.obufCap := rfl
@[simp] theorem recordCode_host : (recordCode s c l p).host = s.host := rfl
@[simp] theorem recordCode_resets : (recordCode s c l p).resets = s.resets := rfl
end

end Sys2Proof.Machine
end

