-- ==== Sys2Proof/Laws/Memory.lean ====
section
/-! SUPPORT. The laws of byte memory (read after write, frames, the canonical form) and of the tables indexed by
symbol. -/

namespace Sys2Proof.Machine

/-! ### Byte memory -/

/-- Read after write at the same address. -/
@[simp] theorem Mem.read_write_same (m : Mem) (a : Nat) (v : Byte) : Mem.read (Mem.write m a v) a = some v := by
  induction m with
  | nil => simp [Mem.write, Mem.read]
  | cons c m ih =>
    obtain ⟨b, w⟩ := c
    unfold Mem.write
    split_ifs with h1 h2
    · simp [Mem.read, Nat.ne_of_lt h1, ih]
    · simp [Mem.read]
    · simp [Mem.read]

/-- A write leaves every other address alone. -/
theorem Mem.read_write_other (m : Mem) {a x : Nat} (v : Byte) (h : x ≠ a) :
    Mem.read (Mem.write m a v) x = Mem.read m x := by
  induction m with
  | nil => simp [Mem.write, Mem.read, Ne.symm h]
  | cons c m ih =>
    obtain ⟨b, w⟩ := c
    unfold Mem.write
    split_ifs with h1 h2
    · simp only [Mem.read]; rw [ih]
    · subst h2; simp [Mem.read, Ne.symm h]
    · simp [Mem.read, Ne.symm h]

theorem Mem.wfFrom_mono {m : Mem} {lo lo' : Nat} (h : lo' ≤ lo) (hw : Mem.wfFrom lo m = true) :
    Mem.wfFrom lo' m = true := by
  cases m with
  | nil => rfl
  | cons c m =>
    simp only [Mem.wfFrom, Bool.and_eq_true, decide_eq_true_eq] at hw ⊢
    exact ⟨by omega, hw.2⟩

theorem Mem.wfFrom_write {m : Mem} {lo a : Nat} (v : Byte) (ha : lo ≤ a) (hw : Mem.wfFrom lo m = true) :
    Mem.wfFrom lo (Mem.write m a v) = true := by
  induction m generalizing lo with
  | nil => simpa [Mem.write, Mem.wfFrom] using ha
  | cons c m ih =>
    obtain ⟨b, w⟩ := c
    simp only [Mem.wfFrom, Bool.and_eq_true, decide_eq_true_eq] at hw
    unfold Mem.write
    split_ifs with h1 h2
    · simp only [Mem.wfFrom, Bool.and_eq_true, decide_eq_true_eq]
      exact ⟨hw.1, ih (by omega) hw.2⟩
    · subst h2; simpa [Mem.wfFrom] using hw
    · simp only [Mem.wfFrom, Bool.and_eq_true, decide_eq_true_eq]
      exact ⟨ha, by omega, hw.2⟩

/-- A write keeps the canonical form. -/
theorem Mem.wf_write {m : Mem} (a : Nat) (v : Byte) (hw : Mem.wf m = true) : Mem.wf (Mem.write m a v) = true :=
  Mem.wfFrom_write v (Nat.zero_le a) hw

/-- A write below a bound keeps every listed address below it. -/
theorem Mem.below_write {m : Mem} {n a : Nat} (v : Byte) (ha : a < n) (hb : Mem.below n m = true) :
    Mem.below n (Mem.write m a v) = true := by
  induction m with
  | nil => simpa [Mem.write, Mem.below] using ha
  | cons c m ih =>
    obtain ⟨b, w⟩ := c
    simp only [Mem.below, List.all_cons, Bool.and_eq_true, decide_eq_true_eq] at hb ih
    unfold Mem.write
    split_ifs with h1 h2 <;>
      simp only [Mem.below, List.all_cons, Bool.and_eq_true, decide_eq_true_eq]
    · exact ⟨hb.1, ih hb.2⟩
    · exact ⟨ha, hb.2⟩
    · exact ⟨ha, hb⟩

/-- The empty memory of reset is in canonical form. -/
theorem Mem.wf_reset : Mem.wf State.reset.ibuf = true ∧ Mem.wf State.reset.obuf = true := ⟨rfl, rfl⟩

theorem Mem.read_none_of_wfFrom {m : Mem} {lo a : Nat} (hw : Mem.wfFrom lo m = true) (h : a < lo) :
    Mem.read m a = none := by
  induction m generalizing lo with
  | nil => rfl
  | cons c m ih =>
    obtain ⟨b, w⟩ := c
    simp only [Mem.wfFrom, Bool.and_eq_true, decide_eq_true_eq] at hw
    simp only [Mem.read]
    rw [if_neg (by omega)]
    exact ih hw.2 (by omega)

/-- Two canonical memories that read alike everywhere are the same data. -/
theorem Mem.wf_ext {m n : Mem} {lo : Nat} (hm : Mem.wfFrom lo m = true) (hn : Mem.wfFrom lo n = true)
    (h : ∀ a, Mem.read m a = Mem.read n a) : m = n := by
  induction m generalizing n lo with
  | nil =>
    cases n with
    | nil => rfl
    | cons c n => have := h c.1; simp [Mem.read] at this
  | cons c m ih =>
    cases n with
    | nil => have := h c.1; simp [Mem.read] at this
    | cons d n =>
      obtain ⟨b, v⟩ := c; obtain ⟨e, w⟩ := d
      simp only [Mem.wfFrom, Bool.and_eq_true, decide_eq_true_eq] at hm hn
      have key : b = e := by
        by_contra hne
        rcases Nat.lt_or_gt_of_ne hne with hlt | hlt
        · have := h b
          simp only [Mem.read, if_true, if_neg (Ne.symm hne)] at this
          rw [Mem.read_none_of_wfFrom hn.2 (by omega)] at this
          exact absurd this (by simp)
        · have := h e
          simp only [Mem.read, if_true, if_neg hne] at this
          rw [Mem.read_none_of_wfFrom hm.2 (by omega)] at this
          exact absurd this (by simp)
      subst key
      have hv : v = w := by simpa [Mem.read] using h b
      subst hv
      congr 1
      refine ih hm.2 hn.2 fun a => ?_
      by_cases ha : a = b
      · subst ha
        rw [Mem.read_none_of_wfFrom hm.2 (by omega), Mem.read_none_of_wfFrom hn.2 (by omega)]
      · have := h a
        simpa [Mem.read, Ne.symm ha] using this

/-! ### Tables indexed by symbol -/

@[simp] theorem Table.at_put_same {α : Type} (t : Table α) (s : Byte) (v : α) : (t.put s v).at s = v := by
  simp [Table.at, Table.put]

theorem Table.at_put_other {α : Type} (t : Table α) {s x : Byte} (v : α) (h : x ≠ s) :
    (t.put s v).at x = t.at x := by
  have : s.toNat ≠ x.toNat := fun e => h (BitVec.eq_of_toNat_eq e.symm)
  simp [Table.at, Table.put, this]

theorem Table.at_put {α : Type} (t : Table α) (s x : Byte) (v : α) :
    (t.put s v).at x = if x = s then v else t.at x := by
  split_ifs with h
  · subst h; simp
  · exact Table.at_put_other t v h

@[simp] theorem Table.at_replicate {α : Type} (v : α) (s : Byte) : Table.at (Vector.replicate 256 v) s = v := by
  simp [Table.at]

/-- Two tables with the same entries are the same table. -/
theorem Table.ext {α : Type} {t u : Table α} (h : ∀ s, t.at s = u.at s) : t = u := by
  apply Vector.ext
  intro i hi
  have := h (BitVec.ofNat 8 i)
  simpa [Table.at, Nat.mod_eq_of_lt hi] using this

/-- Every symbol is one of the 256. -/
theorem mem_allSymbols (s : Byte) : s ∈ allSymbols := by
  simp only [allSymbols, List.mem_map, List.mem_range]
  exact ⟨s.toNat, s.isLt, by simp⟩

theorem length_allSymbols : allSymbols.length = 256 := by simp [allSymbols]

theorem getElem_allSymbols (i : Nat) (h : i < allSymbols.length) : allSymbols[i] = BitVec.ofNat 8 i := by
  simp [allSymbols]

theorem nodup_allSymbols : allSymbols.Nodup := by
  refine List.Nodup.map_on ?_ List.nodup_range
  intro x hx y hy h
  have := congrArg BitVec.toNat h
  simp only [List.mem_range] at hx hy
  simpa [Nat.mod_eq_of_lt hx, Nat.mod_eq_of_lt hy] using this

end Sys2Proof.Machine
end

