-- ==== Sys2Proof/Laws/Ops.lean ====
section
/-! SUPPORT. What the shared operations can do: sequencing, the end of a command, Emit. Later proofs cite these and do not
unfold the operations. -/

namespace Sys2Proof.Machine

/-! ### Sequencing -/

@[simp] theorem Res.bind_ok (s : State) (f : State → Res) : (Res.ok s).bind f = f s := rfl
@[simp] theorem Res.bind_raise (k : ErrKind) (s : State) (f : State → Res) : (Res.raise k s).bind f = .raise k s := rfl
@[simp] theorem Res.bind_fault (e : Fault) (f : State → Res) : (Res.fault e).bind f = .fault e := rfl
@[simp] theorem Res.bind_refused (e : Refusal) (f : State → Res) : (Res.refused e).bind f = .refused e := rfl

theorem Res.bind_assoc (r : Res) (f g : State → Res) : (r.bind f).bind g = r.bind fun s => (f s).bind g := by
  cases r <;> rfl

/-- A sequence runs to its end exactly if both parts do. -/
theorem Res.bind_eq_ok {r : Res} {f : State → Res} {t : State} :
    r.bind f = .ok t ↔ ∃ s, r = .ok s ∧ f s = .ok t := by
  cases r <;> simp

/-- A sequence raises exactly if its first part does, or its first part ends and the second raises. -/
theorem Res.bind_eq_raise {r : Res} {f : State → Res} {k : ErrKind} {t : State} :
    r.bind f = .raise k t ↔ r = .raise k t ∨ ∃ s, r = .ok s ∧ f s = .raise k t := by
  cases r <;> simp

@[simp] theorem Res.onRaise_ok (k : ErrKind) (s : State) (f : State → Res) : Res.onRaise k (.ok s) f = .ok s := rfl
@[simp] theorem Res.onRaise_same (k : ErrKind) (s : State) (f : State → Res) :
    Res.onRaise k (.raise k s) f = f s := by simp [Res.onRaise]

theorem Res.onRaise_eq_ok {k : ErrKind} {r : Res} {f : State → Res} {t : State} :
    Res.onRaise k r f = .ok t ↔ r = .ok t ∨ ∃ s, r = .raise k s ∧ f s = .ok t := by
  cases r with
  | raise k' s =>
    simp only [Res.onRaise, reduceCtorEq, Res.raise.injEq, false_or]
    constructor
    · intro h
      split_ifs at h with hk
      exact ⟨s, ⟨hk, rfl⟩, h⟩
    · rintro ⟨s', ⟨rfl, rfl⟩, h⟩; simpa using h
  | _ => simp [Res.onRaise]

/-- What a catch can raise: something other than the kind it catches, or what its steps raise. -/
theorem Res.onRaise_eq_raise {k k' : ErrKind} {r : Res} {f : State → Res} {t : State} :
    Res.onRaise k r f = .raise k' t ↔ (k' ≠ k ∧ r = .raise k' t) ∨ ∃ s, r = .raise k s ∧ f s = .raise k' t := by
  cases r with
  | raise k₂ s =>
    simp only [Res.onRaise, Res.raise.injEq]
    constructor
    · intro h
      split_ifs at h with hk
      · exact .inr ⟨s, ⟨hk, rfl⟩, h⟩
      · simp only [Res.raise.injEq] at h
        exact .inl ⟨h.1 ▸ hk, h⟩
    · rintro (⟨hne, rfl, rfl⟩ | ⟨s', ⟨rfl, rfl⟩, h⟩)
      · simp [hne]
      · simpa using h
  | _ => simp [Res.onRaise]

/-! ### The end of a command (R210) -/

@[simp] theorem endCommand_ok (s : State) : endCommand (.ok s) = .next s.finish := rfl
@[simp] theorem endCommand_raise (k : ErrKind) (s : State) : endCommand (.raise k s) = .next (s.abort k) := rfl
@[simp] theorem endCommand_fault (e : Fault) : endCommand (.fault e) = .fault e := rfl
@[simp] theorem endCommand_refused (e : Refusal) : endCommand (.refused e) = .refused e := rfl

/-- "Every command ends in one of two ways" (R210): it finished or it was aborted. -/
theorem endCommand_eq_next {r : Res} {t : State} :
    endCommand r = .next t ↔ (∃ s, r = .ok s ∧ t = s.finish) ∨ ∃ k s, r = .raise k s ∧ t = s.abort k := by
  cases r with
  | ok s => simp [eq_comm]
  | raise k s =>
    simp only [endCommand_raise, Host.Outcome.next.injEq, reduceCtorEq, false_and, exists_false, false_or,
      Res.raise.injEq]
    constructor
    · rintro rfl; exact ⟨k, s, ⟨rfl, rfl⟩, rfl⟩
    · rintro ⟨_, _, ⟨rfl, rfl⟩, rfl⟩; rfl
  | _ => simp

/-! ### Emit (R62, R65) -/

theorem emit_ok {b : Byte} {s : State} (h : s.olen.toNat < s.obufCap.toNat) : emit b s = .ok (s.append b) := by
  simp [emit, h]

theorem emit_full {b : Byte} {s : State} (h : s.obufCap.toNat ≤ s.olen.toNat) : emit b s = .refused .obufFull := by
  simp [emit, Nat.not_lt.mpr h]

/-- Emit appends one byte or is refused because the buffer is full. -/
theorem emit_cases (b : Byte) (s : State) :
    (s.olen.toNat < s.obufCap.toNat ∧ emit b s = .ok (s.append b)) ∨
    (s.obufCap.toNat ≤ s.olen.toNat ∧ emit b s = .refused .obufFull) := by
  rcases Nat.lt_or_ge s.olen.toNat s.obufCap.toNat with h | h
  · exact .inl ⟨h, emit_ok h⟩
  · exact .inr ⟨h, emit_full h⟩

/-- OLEN never wraps: an appended byte raises it by exactly one (R22). -/
theorem State.append_olen_toNat {s : State} (b : Byte) (h : s.olen.toNat < s.obufCap.toNat) :
    (s.append b).olen.toNat = s.olen.toNat + 1 := by
  have := s.obufCap.isLt
  rw [State.append_olen, BitVec.toNat_add]
  simp; omega

/-- Several bytes appended. -/
def State.appendAll (s : State) (bs : List Byte) : State := bs.foldl State.append s

@[simp] theorem State.appendAll_nil (s : State) : s.appendAll [] = s := rfl
@[simp] theorem State.appendAll_cons (s : State) (b : Byte) (bs : List Byte) :
    s.appendAll (b :: bs) = (s.append b).appendAll bs := rfl

theorem State.appendAll_append (s : State) (bs cs : List Byte) :
    s.appendAll (bs ++ cs) = (s.appendAll bs).appendAll cs := List.foldl_append

/-- Appending changes OBUF and OLEN only. -/
theorem State.appendAll_eq (s : State) (bs : List Byte) :
    s.appendAll bs = { s with obuf := (s.appendAll bs).obuf, olen := (s.appendAll bs).olen } := by
  induction bs generalizing s with
  | nil => rfl
  | cons b bs ih =>
    rw [State.appendAll_cons, ih]
    rfl

/-- Appended bytes: OLEN, the bytes themselves, and every other byte (R62, R65). -/
theorem State.appendAll_appended {s : State} {bs : List Byte}
    (h : s.olen.toNat + bs.length ≤ s.obufCap.toNat) : Appended s (s.appendAll bs) bs := by
  induction bs generalizing s with
  | nil => exact ⟨by simp, by simp, by simp⟩
  | cons b bs ih =>
    simp only [List.length_cons] at h
    have h1 : (s.append b).olen.toNat = s.olen.toNat + 1 := State.append_olen_toNat b (by omega)
    obtain ⟨hl, hb, ho⟩ := ih (s := s.append b) (by rw [h1, State.append_obufCap]; omega)
    simp only [State.appendAll_cons]
    refine ⟨by rw [hl, h1, List.length_cons]; omega, ?_, ?_⟩
    · intro i hi
      cases i with
      | zero =>
        rw [Nat.add_zero, ho _ (Or.inl (by omega)), State.append_obuf]
        simp
      | succ i =>
        have := hb i (by simpa using hi)
        rw [h1] at this
        simpa [Nat.add_assoc, Nat.add_comm 1 i] using this
    · intro a ha
      simp only [List.length_cons] at ha
      rw [ho a (by omega), State.append_obuf, Mem.read_write_other]
      omega

/-- `emitAll` appends all the bytes when they fit. -/
theorem emitAll_ok {bs : List Byte} {s : State} (h : s.olen.toNat + bs.length ≤ s.obufCap.toNat) :
    emitAll bs s = .ok (s.appendAll bs) := by
  induction bs generalizing s with
  | nil => rfl
  | cons b bs ih =>
    simp only [List.length_cons] at h
    rw [emitAll, emit_ok (by omega), Res.bind_ok, ih, State.appendAll_cons]
    rw [State.append_olen_toNat b (by omega), State.append_obufCap]; omega

/-- `emitAll` is refused when they do not. -/
theorem emitAll_full {bs : List Byte} {s : State} (hl : s.olen.toNat ≤ s.obufCap.toNat)
    (h : s.obufCap.toNat < s.olen.toNat + bs.length) : emitAll bs s = .refused .obufFull := by
  induction bs generalizing s with
  | nil => simp at h; omega
  | cons b bs ih =>
    simp only [List.length_cons] at h
    rw [emitAll]
    rcases emit_cases b s with ⟨h1, he⟩ | ⟨h1, he⟩
    · rw [he, Res.bind_ok]
      have := State.append_olen_toNat b h1
      exact ih (by rw [this, State.append_obufCap]; omega) (by rw [this, State.append_obufCap]; omega)
    · rw [he, Res.bind_refused]

/-- What `emitAll` can do: append all the bytes, or be refused because they do not fit. -/
theorem emitAll_eq_ok {bs : List Byte} {s t : State} (hl : s.olen.toNat ≤ s.obufCap.toNat)
    (h : emitAll bs s = .ok t) : s.olen.toNat + bs.length ≤ s.obufCap.toNat ∧ t = s.appendAll bs := by
  rcases Nat.lt_or_ge s.obufCap.toNat (s.olen.toNat + bs.length) with hc | hc
  · rw [emitAll_full hl hc] at h; exact absurd h (by simp)
  · rw [emitAll_ok hc] at h
    exact ⟨hc, (Res.ok.inj h).symm⟩

/-- Appending twice is appending both. -/
theorem Appended.trans {s t u : State} {bs cs : List Byte} (h1 : Appended s t bs) (h2 : Appended t u cs) :
    Appended s u (bs ++ cs) := by
  obtain ⟨l1, b1, o1⟩ := h1
  obtain ⟨l2, b2, o2⟩ := h2
  refine ⟨by rw [l2, l1, List.length_append]; omega, ?_, ?_⟩
  · intro i hi
    rw [List.length_append] at hi
    by_cases hc : i < bs.length
    · rw [List.getElem_append_left hc, ← b1 i hc]
      exact o2 _ (Or.inl (by omega))
    · have hi' : i - bs.length < cs.length := by omega
      rw [List.getElem_append_right (by omega), ← b2 _ hi', l1]
      congr 1; omega
  · intro a ha
    rw [List.length_append] at ha
    rw [o2 a (by omega), o1 a (by omega)]

end Sys2Proof.Machine
end

