-- ==== Sys2Proof/Laws/Frequency.lean ====
section
/-! SUPPORT. The frequency table as occurrence counts (spec/41_frequency_counter.md R121 to R123), and the input buffer
as a byte sequence. -/

namespace Sys2Proof.Machine

theorem length_input (s : State) : s.input.length = s.ilen.toNat := by simp [State.input]

theorem getElem_input (s : State) (i : Nat) (h : i < s.input.length) : s.input[i] = ibufByte s i := by
  simp [State.input]

theorem getD_input {s : State} {i : Nat} (h : i < s.ilen.toNat) : s.input.getD i 0#8 = ibufByte s i := by
  rw [List.getD_eq_getElem _ _ (by rw [length_input]; exact h), getElem_input]

theorem input_eq_nil {s : State} : s.input = [] ↔ s.ilen = 0#64 := by
  rw [← List.length_eq_zero_iff, length_input]
  constructor
  · intro h; exact BitVec.eq_of_toNat_eq h
  · intro h; rw [h]; rfl

/-- The input depends on ILEN and the bytes below it alone. -/
theorem input_congr {s t : State} (hl : s.ilen = t.ilen) (h : ∀ a, a < s.ilen.toNat → ibufByte s a = ibufByte t a) :
    s.input = t.input := by
  rw [State.input, State.input, ← hl]
  exact List.map_congr_left fun a ha => h a (List.mem_range.mp ha)

theorem bump_at (f : Table U64) (b c : Byte) : (bump f b).at c = if c = b then f.at b + 1#64 else f.at c :=
  Table.at_put _ _ _ _

theorem foldl_bump_toNat (x : List Byte) (f : Table U64) (c : Byte) (h : (f.at c).toNat + x.length < 2 ^ 64) :
    ((x.foldl bump f).at c).toNat = (f.at c).toNat + x.count c := by
  induction x generalizing f with
  | nil => simp
  | cons b x ih =>
    rw [List.length_cons] at h
    have hb : ((bump f b).at c).toNat = (f.at c).toNat + if c = b then 1 else 0 := by
      rw [bump_at]
      split_ifs with hc
      · subst hc; rw [BitVec.toNat_add]; simp; omega
      · rfl
    have : ((bump f b).at c).toNat ≤ (f.at c).toNat + 1 := by rw [hb]; split_ifs <;> omega
    rw [List.foldl_cons, ih _ (by omega), hb, List.count_cons]
    by_cases hc : c = b
    · subst hc; simp; omega
    · have : ¬ b = c := fun e => hc e.symm
      simp [hc, this]

/-- `tally` counts occurrences (R121); no count wraps (R122). -/
theorem tally_toNat (x : List Byte) (c : Byte) (h : x.length < 2 ^ 64) : ((tally x).at c).toNat = x.count c := by
  rw [tally, foldl_bump_toNat _ _ _ (by simpa using h)]
  simp

/-- A count is nonzero exactly for a symbol that occurs (R123). -/
theorem tally_ne_zero {x : List Byte} (h : x.length < 2 ^ 64) (c : Byte) : (tally x).at c ≠ 0#64 ↔ c ∈ x := by
  rw [← List.count_pos_iff, ← tally_toNat x c h]
  constructor
  · intro hne
    rcases Nat.eq_zero_or_pos ((tally x).at c).toNat with h0 | h0
    · exact absurd (BitVec.eq_of_toNat_eq h0) hne
    · exact h0
  · intro hp e; rw [e] at hp; simp at hp

/-- The counts of all symbols add up to the length (R123). -/
theorem sum_count (x : List Byte) : (allSymbols.map fun c => x.count c).sum = x.length := by
  induction x with
  | nil => simp
  | cons b x ih =>
    have h1 : ∀ l : List Byte, (l.map fun c => (b :: x).count c).sum = (l.map fun c => x.count c).sum + l.count b := by
      intro l
      induction l with
      | nil => rfl
      | cons c l ihl =>
        rw [List.map_cons, List.sum_cons, ihl, List.map_cons, List.sum_cons, List.count_cons, List.count_cons]
        by_cases hc : b = c
        · subst hc; simp; omega
        · have : ¬ c = b := fun e => hc e.symm
          simp [hc, this]; omega
    rw [h1, ih, List.count_eq_one_of_mem nodup_allSymbols (mem_allSymbols b), List.length_cons]

theorem length_input_lt (s : State) : s.input.length < 2 ^ 64 := by rw [length_input]; exact s.ilen.isLt

theorem tally_nil : tally [] = Vector.replicate 256 0#64 := rfl

/-- Over the symbols, the counts times a weight add up to the weights along the sequence (R197). -/
theorem sum_count_mul (w : Byte → Nat) (x : List Byte) :
    (allSymbols.map fun c => x.count c * w c).sum = (x.map w).sum := by
  induction x with
  | nil => simp
  | cons c x ih =>
    rw [List.map_cons, List.sum_cons, ← ih]
    have key : ∀ l : List Byte, l.Nodup → (l.map fun d => (c :: x).count d * w d).sum =
        (if c ∈ l then w c else 0) + (l.map fun d => x.count d * w d).sum := by
      intro l
      induction l with
      | nil => simp
      | cons e l ih =>
        intro hn
        rw [List.nodup_cons] at hn
        rw [List.map_cons, List.map_cons, List.sum_cons, List.sum_cons, ih hn.2, List.count_cons]
        by_cases hce : c = e
        · subst hce
          simp [hn.1]; ring
        · have hc1 : (c == e) = false := by simpa using hce
          simp only [hc1, List.mem_cons, hce, false_or]
          simp; ring
    rw [key _ nodup_allSymbols, if_pos (mem_allSymbols c)]

end Sys2Proof.Machine
end

