-- ==== Sys2Proof/Laws/Container.lean ====
section
/-! SUPPORT. The header as bytes: its layout, reading it back, and CF.WRHDR and CF.RDHDR (spec/20_memory.md R64, R65, R71;
spec/46_container_formatter.md R180 to R184). -/

namespace Sys2Proof.Machine

theorem length_le64 (v : U64) : (le64 v).length = 8 := rfl

theorem getElem_le64 (v : U64) (k : Nat) (h : k < (le64 v).length) : (le64 v)[k] = v.extractLsb' (8 * k) 8 := by
  rw [length_le64] at h
  have : k = 0 ∨ k = 1 ∨ k = 2 ∨ k = 3 ∨ k = 4 ∨ k = 5 ∨ k = 6 ∨ k = 7 := by omega
  rcases this with rfl | rfl | rfl | rfl | rfl | rfl | rfl | rfl <;> rfl

/-- A 64-bit value is what its eight bytes are. -/
theorem eq_of_bytes {v w : U64} (h : ∀ k, k < 8 → v.extractLsb' (8 * k) 8 = w.extractLsb' (8 * k) 8) : v = w := by
  apply BitVec.eq_of_getLsbD_eq
  intro i hi
  have := congrArg (fun b : BitVec 8 => b.getLsbD (i % 8)) (h (i / 8) (by omega))
  simp only [BitVec.getLsbD_extractLsb'] at this
  have h8 : i % 8 < 8 := Nat.mod_lt _ (by omega)
  rw [show 8 * (i / 8) + i % 8 = i by omega] at this
  simpa [h8] using this

/-- Byte `k` of eight bytes put together (R64). -/
theorem extract_le64Value (b : Nat → Byte) (k : Nat) (hk : k < 8) :
    (le64Value (b 0) (b 1) (b 2) (b 3) (b 4) (b 5) (b 6) (b 7)).extractLsb' (8 * k) 8 = b k := by
  apply BitVec.eq_of_getLsbD_eq
  intro i hi
  rw [le64Value, BitVec.getLsbD_extractLsb']
  simp only [BitVec.getLsbD_setWidth, BitVec.getLsbD_append]
  interval_cases k <;> interval_cases i <;> simp

/-- Reading back the eight bytes of a field gives the field (R64, R65). -/
theorem le64Value_of_bytes {v : U64} {b : Nat → Byte} (h : ∀ k, k < 8 → b k = v.extractLsb' (8 * k) 8) :
    le64Value (b 0) (b 1) (b 2) (b 3) (b 4) (b 5) (b 6) (b 7) = v :=
  eq_of_bytes fun k hk => by rw [extract_le64Value b k hk, h k hk]

/-! ### The header -/

theorem length_flatMap_le64 (f : Table U64) (l : List Byte) : (l.flatMap fun s => le64 (f.at s)).length = 8 * l.length := by
  induction l with
  | nil => rfl
  | cons c l ih => rw [List.flatMap_cons, List.length_append, length_le64, ih, List.length_cons]; omega

/-- A header is 2060 bytes (R6, R181). -/
theorem length_header (n : U64) (f : Table U64) : (header n f).length = 2060 := by
  simp only [header, List.length_append, length_flatMap_le64, length_allSymbols, length_le64, List.length_cons,
    List.length_nil]

theorem take_header (n : U64) (f : Table U64) : (header n f).take 4 = [0x48#8, 0x46#8, 0x31#8, 0x01#8] := rfl

/-- The size field (R97). -/
theorem header_size (n : U64) (f : Table U64) (k : Nat) (h : k < 8) :
    (header n f)[4 + k]? = some (n.extractLsb' (8 * k) 8) := by
  have h1 : (header n f)[4 + k]? = (le64 n)[k]? := by
    rw [header, List.getElem?_append_left (by simp [length_le64]; omega), List.getElem?_append_right (by simp)]
    simp
  rw [h1, List.getElem?_eq_getElem (by rw [length_le64]; exact h), getElem_le64]

theorem flatMap_le64_get (f : Table U64) (l : List Byte) (i k : Nat) (hi : i < l.length) (hk : k < 8) :
    (l.flatMap fun s => le64 (f.at s))[8 * i + k]? = some ((f.at l[i]).extractLsb' (8 * k) 8) := by
  induction l generalizing i with
  | nil => simp at hi
  | cons c l ih =>
    rw [List.flatMap_cons]
    cases i with
    | zero =>
      rw [List.getElem?_append_left (by rw [length_le64]; omega), Nat.mul_zero, Nat.zero_add,
        List.getElem?_eq_getElem (by rw [length_le64]; exact hk), getElem_le64]
      rfl
    | succ i =>
      rw [List.getElem?_append_right (by rw [length_le64]; omega), length_le64,
        show 8 * (i + 1) + k - 8 = 8 * i + k by omega, ih i (by simpa using hi)]
      rfl

/-- The count fields (R98). -/
theorem header_count (n : U64) (f : Table U64) (c : Byte) (k : Nat) (h : k < 8) :
    (header n f)[12 + 8 * c.toNat + k]? = some ((f.at c).extractLsb' (8 * k) 8) := by
  have h1 : (header n f)[12 + 8 * c.toNat + k]? = (allSymbols.flatMap fun s => le64 (f.at s))[8 * c.toNat + k]? := by
    rw [header, List.getElem?_append_right (by simp [length_le64]; omega)]
    congr 1
    simp [length_le64]; omega
  have hc : c.toNat < allSymbols.length := by rw [length_allSymbols]; exact c.isLt
  rw [h1, flatMap_le64_get f allSymbols c.toNat k hc h, getElem_allSymbols]
  simp

/-- Different `(n, F)` give different headers (R181). -/
theorem header_injective {n m : U64} {f g : Table U64} (h : header n f = header m g) : n = m ∧ f = g := by
  constructor
  · refine eq_of_bytes fun k hk => ?_
    have := header_size n f k hk
    rw [h, header_size m g k hk] at this
    exact (Option.some.inj this).symm
  · refine Table.ext fun c => eq_of_bytes fun k hk => ?_
    have := header_count n f c k hk
    rw [h, header_count m g c k hk] at this
    exact (Option.some.inj this).symm

/-! ### Reading fields from bytes -/

theorem extract_le64At (c : List Byte) (a k : Nat) (hk : k < 8) :
    (le64At c a).extractLsb' (8 * k) 8 = c.getD (a + k) 0#8 :=
  extract_le64Value (fun k => c.getD (a + k) 0#8) k hk

theorem extract_ibufWord64 (s : State) (a k : Nat) (hk : k < 8) :
    (ibufWord64 s a).extractLsb' (8 * k) 8 = ibufByte s (a + k) :=
  extract_le64Value (fun k => ibufByte s (a + k)) k hk

theorem Table.at_ofFn {α : Type} (g : Fin 256 → α) (c : Byte) : Table.at (Vector.ofFn g) c = g ⟨c.toNat, c.isLt⟩ := by
  simp [Table.at]

theorem storedCounts_at (s : State) (c : Byte) : (storedCounts s).at c = ibufWord64 s (12 + 8 * c.toNat) := by
  rw [storedCounts, Table.at_ofFn]

theorem countsOf_at (c : List Byte) (x : Byte) : (countsOf c).at x = le64At c (12 + 8 * x.toNat) := by
  rw [countsOf, Table.at_ofFn]

/-- The machine's reads of the header are those of `decompress`, when the input holds a header (R182, R198). -/
theorem ibufWord64_eq {s : State} {a : Nat} (h : a + 7 < s.ilen.toNat) : ibufWord64 s a = le64At s.input a := by
  refine eq_of_bytes fun k hk => ?_
  rw [extract_ibufWord64 s a k hk, extract_le64At _ _ _ hk, getD_input (by omega)]

theorem storedCounts_eq {s : State} (h : 2060 ≤ s.ilen.toNat) : storedCounts s = countsOf s.input := by
  refine Table.ext fun c => ?_
  have := c.isLt
  rw [storedCounts_at, countsOf_at, ibufWord64_eq (by omega)]

theorem take_four {c : List Byte} (h : 4 ≤ c.length) :
    c.take 4 = [c.getD 0 0#8, c.getD 1 0#8, c.getD 2 0#8, c.getD 3 0#8] := by
  match c, h with
  | a :: b :: d :: e :: l, _ => rfl

/-- The machine's format checks are those of `decompress`. -/
theorem headerOk_eq (s : State) : headerOk s = formatOk s.input := by
  rw [headerOk, formatOk, length_input]
  by_cases h : 2060 ≤ s.ilen.toNat
  · have h4 : 4 ≤ s.input.length := by rw [length_input]; omega
    rw [take_four h4, getD_input (by omega), getD_input (by omega), getD_input (by omega), getD_input (by omega)]
    simp only [decide_eq_true h, Bool.true_and]
    rw [Bool.eq_iff_iff]
    simp [and_assoc]
  · simp [h]

/-- A header followed by anything passes the format checks, and its fields are read back (R184). -/
theorem formatOk_header (n : U64) (f : Table U64) (rest : List Byte) : formatOk (header n f ++ rest) = true := by
  rw [formatOk, List.take_append_of_le_length (by rw [length_header]; omega), take_header]
  simp [length_header]

theorem le64At_header (n : U64) (f : Table U64) (rest : List Byte) :
    le64At (header n f ++ rest) Config.sizeOffset = n := by
  refine eq_of_bytes fun k hk => ?_
  have h : (header n f)[Config.sizeOffset + k]? = _ := header_size n f k hk
  rw [extract_le64At _ _ _ hk, List.getD_eq_getElem?_getD,
    List.getElem?_append_left (by rw [length_header]; show 4 + k < 2060; omega), h]
  rfl

theorem countsOf_header (n : U64) (f : Table U64) (rest : List Byte) : countsOf (header n f ++ rest) = f := by
  refine Table.ext fun c => eq_of_bytes fun k hk => ?_
  have h := header_count n f c k hk
  have := c.isLt
  rw [countsOf_at, extract_le64At _ _ _ hk, List.getD_eq_getElem?_getD,
    List.getElem?_append_left (by rw [length_header]; omega), h]
  rfl

theorem drop_header (n : U64) (f : Table U64) (rest : List Byte) :
    (header n f ++ rest).drop Config.hdrBytes = rest := by
  rw [List.drop_append_of_le_length (by rw [length_header]), List.drop_of_length_le (by rw [length_header]),
    List.nil_append]

end Sys2Proof.Machine
end

