-- ==== Sys2Proof/Laws/TreeBuilder.lean ====
section
/-! SUPPORT. What the phases of TB.BUILD leave (spec/42_tree_builder.md R132 to R138): collect, the two scans, one pass of
merge, the whole loop. -/

namespace Sys2Proof.Machine

/-! ### The accessors -/

theorem handleOf_val {n : Nat} (h : n < 511) : (handleOf n).val = n := by
  simp [handleOf, Fin.ofNat, Nat.mod_eq_of_lt h]

theorem Tree.nodeAt_addNode (t : Tree) (n : Node) (h : Handle) :
    (t.addNode n).nodeAt h = if h.val = t.nn.toNat then n else t.nodeAt h := by
  simp only [Tree.nodeAt, Tree.addNode, Vector.getElem_setIfInBounds, eq_comm (a := t.nn.toNat)]

@[simp] theorem Tree.nodeAt_setActive (t : Tree) (i : Nat) (a h : Handle) :
    (t.setActive i a).nodeAt h = t.nodeAt h := rfl
@[simp] theorem Tree.nn_setActive (t : Tree) (i : Nat) (a : Handle) : (t.setActive i a).nn = t.nn := rfl
@[simp] theorem Tree.nact_setActive (t : Tree) (i : Nat) (a : Handle) : (t.setActive i a).nact = t.nact := rfl
@[simp] theorem Tree.root_setActive (t : Tree) (i : Nat) (a : Handle) : (t.setActive i a).root = t.root := rfl
@[simp] theorem Tree.node_setActive (t : Tree) (i : Nat) (a : Handle) : (t.setActive i a).node = t.node := rfl
@[simp] theorem Tree.nact_addNode (t : Tree) (n : Node) : (t.addNode n).nact = t.nact := rfl
@[simp] theorem Tree.nn_addNode (t : Tree) (n : Node) : (t.addNode n).nn = t.nn + 1#10 := rfl
@[simp] theorem Tree.active_addNode (t : Tree) (n : Node) : (t.addNode n).active = t.active := rfl
@[simp] theorem Tree.activeAt_addNode (t : Tree) (n : Node) (i : Nat) : (t.addNode n).activeAt i = t.activeAt i := rfl
@[simp] theorem Tree.root_addNode (t : Tree) (n : Node) : (t.addNode n).root = t.root := rfl

theorem Tree.activeAt_setActive (t : Tree) (i j : Nat) (a : Handle) (hi : i < 256) :
    (t.setActive i a).activeAt j = if i = j then a else t.activeAt j := by
  simp only [Tree.activeAt, Tree.setActive, Vector.getElem?_setIfInBounds]
  split_ifs <;> simp

/-! ### Collect (R132) -/

theorem mem_occurring {freq : Table U64} {c : Byte} : c ∈ occurring freq ↔ freq.at c ≠ 0#64 := by
  simp [occurring, mem_allSymbols]

theorem nodup_occurring (freq : Table U64) : (occurring freq).Nodup := nodup_allSymbols.filter _

theorem length_occurring_le (freq : Table U64) : (occurring freq).length ≤ 256 := by
  have := List.length_filter_le (fun c => decide (freq.at c ≠ 0#64)) allSymbols
  rwa [length_allSymbols] at this

theorem collect_fold (freq : Table U64) (l : List Byte) (t : Tree) (k : Nat) (hn : t.nn.toNat = k)
    (ha : t.nact.toNat = k) (hk : k + l.length ≤ 256) :
    let o := l.filter fun c => freq.at c ≠ 0#64
    let u := l.foldl (collectSym freq) t
    u.nn.toNat = k + o.length ∧ u.nact.toNat = k + o.length ∧ u.root = t.root ∧
    (∀ h : Handle, u.nodeAt h = if k ≤ h.val then
        (if hj : h.val - k < o.length then Node.leafOf o[h.val - k] (freq.at o[h.val - k]) else t.nodeAt h)
      else t.nodeAt h) ∧
    (∀ i, u.activeAt i = if k ≤ i ∧ i < k + o.length then handleOf i else t.activeAt i) := by
  induction l generalizing t k with
  | nil =>
    refine ⟨by simpa using hn, by simpa using ha, by simp, ?_, ?_⟩
    · intro h; simp
    · intro i
      have : ¬ (k ≤ i ∧ i < k) := by omega
      simp [this]
  | cons c l ih =>
    simp only [List.length_cons] at hk
    by_cases hc : freq.at c = 0#64
    · have hs : collectSym freq t c = t := by simp [collectSym, hc]
      have hf : (c :: l).filter (fun c => decide (freq.at c ≠ 0#64)) = l.filter (fun c => decide (freq.at c ≠ 0#64)) := by
        simp [hc]
      rw [hf, List.foldl_cons, hs]
      exact ih t k hn ha (by omega)
    · have hf : (c :: l).filter (fun c => decide (freq.at c ≠ 0#64)) =
          c :: l.filter (fun c => decide (freq.at c ≠ 0#64)) := by simp [hc]
      rw [hf, List.foldl_cons]
      set t1 := collectSym freq t c with ht1
      have ht : t1 = ({ t.setActive t.nact.toNat (handleOf t.nn.toNat) with nact := t.nact + 1#9 } : Tree).addNode
          (Node.leafOf c (freq.at c)) := by
        rw [ht1]; simp [collectSym, hc]
      have h1 : t1.nn.toNat = k + 1 := by
        rw [ht, Tree.nn_addNode, BitVec.toNat_add]
        show (t.nn.toNat + _) % _ = _
        rw [hn]; simp; omega
      have h2 : t1.nact.toNat = k + 1 := by
        rw [ht, Tree.nact_addNode]
        show (t.nact + 1#9).toNat = _
        rw [BitVec.toNat_add, ha]; simp; omega
      obtain ⟨i1, i2, i3, i4, i5⟩ := ih t1 (k + 1) h1 h2 (by omega)
      refine ⟨by rw [i1]; simp; omega, by rw [i2]; simp; omega, by rw [i3, ht]; rfl, ?_, ?_⟩
      · intro h
        have hn1 : t1.nodeAt h = if h.val = k then Node.leafOf c (freq.at c) else t.nodeAt h := by
          rw [ht, Tree.nodeAt_addNode, ← hn]; rfl
        rw [i4 h, hn1]
        by_cases hlt : k ≤ h.val
        · rcases Nat.eq_or_lt_of_le hlt with heq | hgt
          · subst heq
            simp
          · have e1 : k + 1 ≤ h.val := hgt
            have e2 : h.val ≠ k := by omega
            obtain ⟨m, hm⟩ : ∃ m, h.val - k = m + 1 := ⟨h.val - k - 1, by omega⟩
            have hm' : h.val - (k + 1) = m := by omega
            simp only [if_pos hlt, if_pos e1, if_neg e2, hm, hm', List.length_cons, List.getElem_cons_succ,
              Nat.add_lt_add_iff_right]
        · rw [if_neg hlt, if_neg (by omega), if_neg (by omega)]
      · intro i
        have ha1 : t1.activeAt i = if k = i then handleOf k else t.activeAt i := by
          rw [ht, Tree.activeAt_addNode]
          show (t.setActive _ _).activeAt i = _
          rw [Tree.activeAt_setActive _ _ _ _ (by omega), ha, hn]
        rw [i5 i, ha1]
        simp only [List.length_cons]
        by_cases hki : k = i
        · subst hki; simp
        · by_cases h3 : k + 1 ≤ i ∧ i < k + 1 + (l.filter fun c => decide (freq.at c ≠ 0#64)).length
          · rw [if_pos h3, if_pos (by omega)]
          · rw [if_neg h3, if_neg hki, if_neg (by omega)]

/-- Phase collect (R132): with `n` nonzero entries NN = NACT = n, NODE[j] is the leaf of the j-th occurring symbol,
ACTIVE[j] = j, and every other entry is as before. -/
theorem collect_spec (freq : Table U64) (t : Tree) :
    (collect freq t).nn.toNat = (occurring freq).length ∧
    (collect freq t).nact.toNat = (occurring freq).length ∧
    (collect freq t).root = t.root ∧
    (∀ h : Handle, (collect freq t).nodeAt h =
      if hj : h.val < (occurring freq).length then
        Node.leafOf (occurring freq)[h.val] (freq.at (occurring freq)[h.val])
      else t.nodeAt h) ∧
    (∀ i, (collect freq t).activeAt i = if i < (occurring freq).length then handleOf i else t.activeAt i) := by
  have h := collect_fold freq allSymbols { t with nn := 0#10, nact := 0#9 } 0 rfl rfl
    (by rw [length_allSymbols])
  simp only [Nat.zero_add, Nat.zero_le, if_true, true_and, Nat.sub_zero] at h
  exact h

/-! ### The two scans (R135, R136) -/

/-- The first scan finds the first-encountered slot of smallest weight. -/
theorem firstMin_spec {t : Tree} (h : 1 ≤ t.nact.toNat) :
    firstMin t < t.nact.toNat ∧
    (∀ i, i < t.nact.toNat → (t.weightAt (firstMin t)).toNat ≤ (t.weightAt i).toNat) ∧
    (∀ i, i < firstMin t → (t.weightAt (firstMin t)).toNat < (t.weightAt i).toNat) := by
  obtain ⟨k, hk⟩ : ∃ k, t.nact.toNat = k + 1 := ⟨t.nact.toNat - 1, by omega⟩
  unfold firstMin
  rw [hk, Nat.add_sub_cancel]
  clear h hk
  induction k with
  | zero => simp
  | succ k ih =>
    obtain ⟨i1, i2, i3⟩ := ih
    rw [List.range'_concat, List.foldl_append, List.foldl_cons, List.foldl_nil]
    set m := (List.range' 1 k).foldl (fun m i => if t.weightAt i < t.weightAt m then i else m) 0
    simp only [Nat.one_mul]
    split_ifs with hlt
    · rw [BitVec.lt_def] at hlt
      refine ⟨by omega, fun i hi => ?_, fun i hi => ?_⟩
      · rcases Nat.lt_or_ge i (k + 1) with hik | hik
        · have := i2 i hik; omega
        · have : i = 1 + k := by omega
          rw [this]
      · have := i2 i (by omega); omega
    · rw [BitVec.lt_def] at hlt
      refine ⟨by omega, fun i hi => ?_, i3⟩
      rcases Nat.lt_or_ge i (k + 1) with hik | hik
      · exact i2 i hik
      · have : i = 1 + k := by omega
        rw [this]; omega

/-- The second scan finds the first-encountered slot of smallest weight other than `m1`. -/
theorem secondMin_spec {t : Tree} {m1 : Nat} (h : 2 ≤ t.nact.toNat) :
    secondMin t m1 < t.nact.toNat ∧ secondMin t m1 ≠ m1 ∧
    (∀ i, i < t.nact.toNat → i ≠ m1 → (t.weightAt (secondMin t m1)).toNat ≤ (t.weightAt i).toNat) ∧
    (∀ i, i < secondMin t m1 → i ≠ m1 → (t.weightAt (secondMin t m1)).toNat < (t.weightAt i).toNat) := by
  set d := if m1 = 0 then 1 else 0 with hd
  have hdm : d ≠ m1 := by rw [hd]; split_ifs <;> omega
  have hdn : d < t.nact.toNat := by rw [hd]; split_ifs <;> omega
  have hdi : ∀ i, i < d → i = m1 := by intro i; rw [hd]; split_ifs <;> omega
  have key : ∀ k, k ≤ t.nact.toNat →
      let m := (List.range k).foldl (fun m i => if i ≠ m1 ∧ t.weightAt i < t.weightAt m then i else m) d
      m < t.nact.toNat ∧ m ≠ m1 ∧
      (∀ i, i < k → i ≠ m1 → (t.weightAt m).toNat ≤ (t.weightAt i).toNat) ∧
      (t.weightAt m).toNat ≤ (t.weightAt d).toNat ∧
      (∀ i, i < m → i ≠ m1 → (t.weightAt m).toNat < (t.weightAt i).toNat) := by
    intro k
    induction k with
    | zero =>
      intro _
      exact ⟨hdn, hdm, by simp, by simp, fun i hi hne => absurd (hdi i hi) hne⟩
    | succ k ih =>
      intro hk
      obtain ⟨i1, i2, i3, i4, i5⟩ := ih (by omega)
      rw [List.range_succ, List.foldl_append, List.foldl_cons, List.foldl_nil]
      set m := (List.range k).foldl (fun m i => if i ≠ m1 ∧ t.weightAt i < t.weightAt m then i else m) d
      simp only
      split_ifs with hlt
      · obtain ⟨hne, hlt⟩ := hlt
        rw [BitVec.lt_def] at hlt
        refine ⟨by omega, hne, fun i hi hi1 => ?_, by omega, fun i hi hi1 => ?_⟩
        · rcases Nat.lt_or_ge i k with hik | hik
          · have := i3 i hik hi1; omega
          · have : i = k := by omega
            rw [this]
        · have := i3 i hi hi1; omega
      · rw [BitVec.lt_def] at hlt
        refine ⟨i1, i2, fun i hi hi1 => ?_, i4, i5⟩
        rcases Nat.lt_or_ge i k with hik | hik
        · exact i3 i hik hi1
        · have : i = k := by omega
          rw [this] at hi1 ⊢
          by_contra hc
          exact hlt ⟨hi1, by omega⟩
  obtain ⟨k1, k2, k3, -, k5⟩ := key t.nact.toNat (Nat.le_refl _)
  exact ⟨k1, k2, k3, k5⟩

/-! ### Closing a slot and one pass (R135) -/

/-- Closing slot `m2` moves every later entry down one place and keeps the others. -/
theorem closeSlot_spec {t : Tree} {m2 : Nat} (hn : t.nact.toNat ≤ 256) :
    (closeSlot t m2).node = t.node ∧ (closeSlot t m2).nn = t.nn ∧ (closeSlot t m2).nact = t.nact ∧
    (closeSlot t m2).root = t.root ∧
    ∀ i, (closeSlot t m2).activeAt i =
      if m2 ≤ i ∧ i < t.nact.toNat - 1 then t.activeAt (i + 1) else t.activeAt i := by
  have key : ∀ k, m2 + k ≤ t.nact.toNat - 1 ∨ k = 0 →
      let u := (List.range' m2 k).foldl (fun t i => t.setActive i (t.activeAt (i + 1))) t
      u.node = t.node ∧ u.nn = t.nn ∧ u.nact = t.nact ∧ u.root = t.root ∧
      ∀ i, u.activeAt i = if m2 ≤ i ∧ i < m2 + k then t.activeAt (i + 1) else t.activeAt i := by
    intro k
    induction k with
    | zero => intro _; refine ⟨rfl, rfl, rfl, rfl, fun i => ?_⟩; rw [if_neg (by omega)]; rfl
    | succ k ih =>
      intro hk
      obtain ⟨i1, i2, i3, i4, i5⟩ := ih (by omega)
      rw [List.range'_concat, List.foldl_append, List.foldl_cons, List.foldl_nil]
      set u := (List.range' m2 k).foldl (fun t i => t.setActive i (t.activeAt (i + 1))) t
      simp only [Nat.one_mul]
      refine ⟨i1, i2, i3, i4, fun i => ?_⟩
      rw [Tree.activeAt_setActive _ _ _ _ (by omega), i5, i5]
      by_cases hi : m2 + k = i
      · subst hi
        rw [if_pos rfl, if_neg (by omega), if_pos (by omega)]
      · rw [if_neg hi]
        by_cases h2 : m2 ≤ i ∧ i < m2 + k
        · rw [if_pos h2, if_pos (by omega)]
        · rw [if_neg h2, if_neg (by omega)]
  rcases Nat.lt_or_ge (t.nact.toNat - 1) m2 with hlt | hge
  · obtain ⟨k1, k2, k3, k4, k5⟩ := key (t.nact.toNat - 1 - m2) (Or.inr (by omega))
    refine ⟨k1, k2, k3, k4, fun i => ?_⟩
    have := k5 i
    rw [if_neg (by omega)] at this
    rw [if_neg (by omega)]
    exact this
  · obtain ⟨k1, k2, k3, k4, k5⟩ := key (t.nact.toNat - 1 - m2) (Or.inl (by omega))
    refine ⟨k1, k2, k3, k4, fun i => ?_⟩
    have := k5 i
    rw [show m2 + (t.nact.toNat - 1 - m2) = t.nact.toNat - 1 by omega] at this
    exact this

/-- The active set as a list of handles. -/
def Tree.activeList (t : Tree) : List Handle := (List.range t.nact.toNat).map t.activeAt

theorem Tree.length_activeList (t : Tree) : t.activeList.length = t.nact.toNat := by simp [Tree.activeList]

theorem Tree.getElem_activeList (t : Tree) (i : Nat) (h : i < t.activeList.length) :
    t.activeList[i] = t.activeAt i := by simp [Tree.activeList]

/-- One pass of phase merge (R135). -/
theorem mergePass_spec {t : Tree} (h2 : 2 ≤ t.nact.toNat) (hn : t.nact.toNat ≤ 256) (hnn : t.nn.toNat < 511) :
    let m1 := firstMin t
    let m2 := secondMin t m1
    (mergePass t).nn.toNat = t.nn.toNat + 1 ∧ (mergePass t).nact.toNat + 1 = t.nact.toNat ∧
    (mergePass t).root = t.root ∧
    (∀ h : Handle, (mergePass t).nodeAt h =
      if h.val = t.nn.toNat then
        Node.internalOf (t.activeAt m1) (t.activeAt m2) (t.weightAt m1 + t.weightAt m2)
      else t.nodeAt h) ∧
    (mergePass t).activeList = (t.activeList.set m1 (handleOf t.nn.toNat)).eraseIdx m2 := by
  obtain ⟨f1, -, -⟩ := firstMin_spec (t := t) (by omega)
  obtain ⟨s1, s2, -, -⟩ := secondMin_spec (m1 := firstMin t) h2
  set m1 := firstMin t
  set m2 := secondMin t m1
  set nd := Node.internalOf (t.activeAt m1) (t.activeAt m2) (t.weightAt m1 + t.weightAt m2)
  set t1 := (t.setActive m1 (handleOf t.nn.toNat)).addNode nd with ht1
  have hna : t1.nact = t.nact := rfl
  obtain ⟨c1, c2, c3, c4, c5⟩ := closeSlot_spec (t := t1) (m2 := m2) (by rw [hna]; exact hn)
  have hp : mergePass t = { closeSlot t1 m2 with nact := (closeSlot t1 m2).nact - 1#9 } := rfl
  have hnact : (mergePass t).nact.toNat + 1 = t.nact.toNat := by
    rw [hp]
    show ((closeSlot t1 m2).nact - 1#9).toNat + 1 = _
    rw [c3, hna, BitVec.toNat_sub]
    have := t.nact.isLt
    simp; omega
  refine ⟨?_, hnact, ?_, ?_, ?_⟩
  · rw [hp]
    show (closeSlot t1 m2).nn.toNat = _
    rw [c2, ht1, Tree.nn_addNode, Tree.nn_setActive, BitVec.toNat_add]
    have := t.nn.isLt
    simp; omega
  · rw [hp]; exact c4
  · intro h
    have : (mergePass t).nodeAt h = t1.nodeAt h := by
      rw [hp]; show (closeSlot t1 m2).node[h.val] = t1.node[h.val]; simp only [c1]
    rw [this, ht1, Tree.nodeAt_addNode]
    rfl
  · apply List.ext_getElem
    · rw [Tree.length_activeList, List.length_eraseIdx, List.length_set, Tree.length_activeList, if_pos s1]
      omega
    · intro i hi1 hi2
      rw [Tree.length_activeList] at hi1
      rw [Tree.getElem_activeList]
      have ha : (mergePass t).activeAt i = (closeSlot t1 m2).activeAt i := rfl
      have ht1a : ∀ j, t1.activeAt j = if m1 = j then handleOf t.nn.toNat else t.activeAt j := fun j => by
        rw [ht1, Tree.activeAt_addNode, Tree.activeAt_setActive _ _ _ _ (by omega)]
      rw [ha, c5, hna, List.getElem_eraseIdx]
      by_cases him : i < m2
      · rw [dif_pos him, if_neg (by omega), ht1a, List.getElem_set]
        split_ifs with hm
        · rfl
        · rw [Tree.getElem_activeList]
      · rw [dif_neg him, if_pos (by omega), ht1a, List.getElem_set]
        split_ifs with hm
        · rfl
        · rw [Tree.getElem_activeList]

end Sys2Proof.Machine
end

