-- ==== Sys2Proof/Laws/TreeShape.lean ====
section
/-! SUPPORT. The shape of a tree in the node store: what is reachable under a handle, independent of the fuel the
definitions use, and of the nodes above the handle (spec/42_tree_builder.md R138). -/

namespace Sys2Proof.Machine

/-- Every internal node below `N` has children below itself. -/
def Tree.DescendsBelow (t : Tree) (N : Nat) : Prop :=
  ∀ h : Handle, h.val < N → (t.nodeAt h).kind = .internal → (t.nodeAt h).left < h ∧ (t.nodeAt h).right < h

theorem Tree.DescendsBelow.mono {t : Tree} {N M : Nat} (h : t.DescendsBelow N) (hm : M ≤ N) : t.DescendsBelow M :=
  fun g hg => h g (by omega)

theorem Tree.Descending.below {t : Tree} (h : t.Descending) (N : Nat) : t.DescendsBelow N := fun g _ => h g

/-- Agreement with another tree on the nodes below `N` carries over. -/
theorem Tree.DescendsBelow.congr {t u : Tree} {N : Nat} (h : t.DescendsBelow N)
    (he : ∀ g : Handle, g.val < N → u.nodeAt g = t.nodeAt g) : u.DescendsBelow N := by
  intro g hg
  rw [he g hg]
  exact h g hg

/-! ### Fuel and agreement -/

theorem Tree.handlesUnder_fuel {t : Tree} {N : Nat} (hd : t.DescendsBelow N) (a b : Nat) (h : Handle) (hN : h.val < N)
    (ha : h.val < a) (hb : h.val < b) : t.handlesUnder a h = t.handlesUnder b h := by
  induction a generalizing b h with
  | zero => omega
  | succ a ih =>
    obtain ⟨b, rfl⟩ : ∃ c, b = c + 1 := ⟨b - 1, by omega⟩
    simp only [Tree.handlesUnder]
    split
    · rfl
    · rename_i hk
      obtain ⟨hl, hr⟩ := hd h hN hk
      rw [Fin.lt_def] at hl hr
      rw [ih b _ (by omega) (by omega) (by omega), ih b _ (by omega) (by omega) (by omega)]

theorem Tree.leavesUnder_fuel {t : Tree} {N : Nat} (hd : t.DescendsBelow N) (a b : Nat) (h : Handle) (hN : h.val < N)
    (ha : h.val < a) (hb : h.val < b) : t.leavesUnder a h = t.leavesUnder b h := by
  induction a generalizing b h with
  | zero => omega
  | succ a ih =>
    obtain ⟨b, rfl⟩ : ∃ c, b = c + 1 := ⟨b - 1, by omega⟩
    simp only [Tree.leavesUnder]
    split
    · rfl
    · rename_i hk
      obtain ⟨hl, hr⟩ := hd h hN hk
      rw [Fin.lt_def] at hl hr
      rw [ih b _ (by omega) (by omega) (by omega), ih b _ (by omega) (by omega) (by omega)]

theorem Tree.height_fuel {t : Tree} {N : Nat} (hd : t.DescendsBelow N) (a b : Nat) (h : Handle) (hN : h.val < N)
    (ha : h.val < a) (hb : h.val < b) : t.height a h = t.height b h := by
  induction a generalizing b h with
  | zero => omega
  | succ a ih =>
    obtain ⟨b, rfl⟩ : ∃ c, b = c + 1 := ⟨b - 1, by omega⟩
    simp only [Tree.height]
    split
    · rfl
    · rename_i hk
      obtain ⟨hl, hr⟩ := hd h hN hk
      rw [Fin.lt_def] at hl hr
      rw [ih b _ (by omega) (by omega) (by omega), ih b _ (by omega) (by omega) (by omega)]

theorem Tree.handlesUnder_congr {t u : Tree} {N : Nat} (hd : t.DescendsBelow N)
    (he : ∀ g : Handle, g.val < N → u.nodeAt g = t.nodeAt g) (a : Nat) (h : Handle) (hN : h.val < N) :
    u.handlesUnder a h = t.handlesUnder a h := by
  induction a generalizing h with
  | zero => rfl
  | succ a ih =>
    simp only [Tree.handlesUnder, he h hN]
    split
    · rfl
    · rename_i hk
      obtain ⟨hl, hr⟩ := hd h hN hk
      rw [Fin.lt_def] at hl hr
      rw [ih _ (by omega), ih _ (by omega)]

theorem Tree.leavesUnder_congr {t u : Tree} {N : Nat} (hd : t.DescendsBelow N)
    (he : ∀ g : Handle, g.val < N → u.nodeAt g = t.nodeAt g) (a : Nat) (h : Handle) (hN : h.val < N) :
    u.leavesUnder a h = t.leavesUnder a h := by
  induction a generalizing h with
  | zero => rfl
  | succ a ih =>
    simp only [Tree.leavesUnder, he h hN]
    split
    · rfl
    · rename_i hk
      obtain ⟨hl, hr⟩ := hd h hN hk
      rw [Fin.lt_def] at hl hr
      rw [ih _ (by omega), ih _ (by omega)]

/-! ### One level, at the full fuel -/

theorem Tree.handlesUnder_leaf {t : Tree} {h : Handle} (hk : (t.nodeAt h).kind = .leaf) :
    t.handlesUnder 511 h = [h] := by simp [Tree.handlesUnder, hk]

theorem Tree.handlesUnder_internal {t : Tree} {N : Nat} (hd : t.DescendsBelow N) {h : Handle} (hN : h.val < N)
    (hk : (t.nodeAt h).kind = .internal) :
    t.handlesUnder 511 h =
      t.handlesUnder 511 (t.nodeAt h).left ++ t.handlesUnder 511 (t.nodeAt h).right ++ [h] := by
  obtain ⟨hl, hr⟩ := hd h hN hk
  rw [Fin.lt_def] at hl hr
  have := h.isLt
  rw [show t.handlesUnder 511 h = t.handlesUnder 510 (t.nodeAt h).left ++ t.handlesUnder 510 (t.nodeAt h).right ++ [h] by
    rw [Tree.handlesUnder]; simp only [hk]]
  rw [Tree.handlesUnder_fuel hd 510 511 _ (by omega) (by omega) (by omega),
    Tree.handlesUnder_fuel hd 510 511 _ (by omega) (by omega) (by omega)]

theorem Tree.leavesUnder_leaf {t : Tree} {h : Handle} (hk : (t.nodeAt h).kind = .leaf) :
    t.leavesUnder 511 h = [((t.nodeAt h).sym, 0)] := by simp [Tree.leavesUnder, hk]

theorem Tree.leavesUnder_internal {t : Tree} {N : Nat} (hd : t.DescendsBelow N) {h : Handle} (hN : h.val < N)
    (hk : (t.nodeAt h).kind = .internal) :
    t.leavesUnder 511 h =
      (t.leavesUnder 511 (t.nodeAt h).left ++ t.leavesUnder 511 (t.nodeAt h).right).map fun p => (p.1, p.2 + 1) := by
  obtain ⟨hl, hr⟩ := hd h hN hk
  rw [Fin.lt_def] at hl hr
  have := h.isLt
  rw [show t.leavesUnder 511 h = (t.leavesUnder 510 (t.nodeAt h).left ++ t.leavesUnder 510 (t.nodeAt h).right).map
      (fun p => (p.1, p.2 + 1)) by rw [Tree.leavesUnder]; simp only [hk]]
  rw [Tree.leavesUnder_fuel hd 510 511 _ (by omega) (by omega) (by omega),
    Tree.leavesUnder_fuel hd 510 511 _ (by omega) (by omega) (by omega)]

theorem Tree.height_leaf {t : Tree} {h : Handle} (hk : (t.nodeAt h).kind = .leaf) :
    t.height 511 h = 0 := by simp [Tree.height, hk]

theorem Tree.height_internal {t : Tree} {N : Nat} (hd : t.DescendsBelow N) {h : Handle} (hN : h.val < N)
    (hk : (t.nodeAt h).kind = .internal) :
    t.height 511 h = max (t.height 511 (t.nodeAt h).left) (t.height 511 (t.nodeAt h).right) + 1 := by
  obtain ⟨hl, hr⟩ := hd h hN hk
  rw [Fin.lt_def] at hl hr
  have := h.isLt
  rw [show t.height 511 h = max (t.height 510 (t.nodeAt h).left) (t.height 510 (t.nodeAt h).right) + 1 by
    rw [Tree.height]; simp only [hk]]
  rw [Tree.height_fuel hd 510 511 _ (by omega) (by omega) (by omega),
    Tree.height_fuel hd 510 511 _ (by omega) (by omega) (by omega)]

/-- Induction over a descending tree: a property of handles that holds of leaves, and of an internal node when it holds of
its two children, holds of every handle below `N`. -/
theorem Tree.DescendsBelow.induction {t : Tree} {N : Nat} (hd : t.DescendsBelow N) {P : Handle → Prop}
    (hleaf : ∀ h : Handle, h.val < N → (t.nodeAt h).kind = .leaf → P h)
    (hint : ∀ h : Handle, h.val < N → (t.nodeAt h).kind = .internal → P (t.nodeAt h).left → P (t.nodeAt h).right → P h)
    (h : Handle) (hN : h.val < N) : P h := by
  induction hm : h.val using Nat.strong_induction_on generalizing h with
  | _ m ih =>
    cases hk : (t.nodeAt h).kind with
    | leaf => exact hleaf h hN hk
    | internal =>
      obtain ⟨hl, hr⟩ := hd h hN hk
      rw [Fin.lt_def] at hl hr
      exact hint h hN hk (ih _ (by omega) _ (by omega) rfl) (ih _ (by omega) _ (by omega) rfl)

/-- The depth of every leaf is at most the height, and the height is less than the number of leaves. -/
theorem Tree.height_lt_leaves {t : Tree} {N : Nat} (hd : t.DescendsBelow N) (h : Handle) (hN : h.val < N) :
    t.height 511 h + 1 ≤ (t.leavesUnder 511 h).length ∧ ∀ p ∈ t.leavesUnder 511 h, p.2 ≤ t.height 511 h := by
  refine hd.induction (P := fun h => t.height 511 h + 1 ≤ (t.leavesUnder 511 h).length ∧
    ∀ p ∈ t.leavesUnder 511 h, p.2 ≤ t.height 511 h) ?_ ?_ h hN
  · intro h _ hk
    rw [Tree.height_leaf hk, Tree.leavesUnder_leaf hk]
    simp
  · intro h hN hk ⟨il, pl⟩ ⟨ir, pr⟩
    rw [Tree.height_internal hd hN hk, Tree.leavesUnder_internal hd hN hk]
    refine ⟨by simp; omega, ?_⟩
    intro p hp
    simp only [List.mem_map, List.mem_append] at hp
    obtain ⟨q, hq, rfl⟩ := hp
    simp only
    rcases hq with hq | hq
    · have := pl q hq; omega
    · have := pr q hq; omega

/-- The leaves' symbols, read off the handles. -/
theorem Tree.leaves_eq_handles {t : Tree} {N : Nat} (hd : t.DescendsBelow N) (h : Handle) (hN : h.val < N) :
    (t.leavesUnder 511 h).map Prod.fst =
      ((t.handlesUnder 511 h).filter fun g => decide ((t.nodeAt g).kind = .leaf)).map fun g => (t.nodeAt g).sym := by
  refine hd.induction (P := fun h => (t.leavesUnder 511 h).map Prod.fst =
      ((t.handlesUnder 511 h).filter fun g => decide ((t.nodeAt g).kind = .leaf)).map fun g => (t.nodeAt g).sym)
      ?_ ?_ h hN
  · intro h _ hk
    rw [Tree.leavesUnder_leaf hk, Tree.handlesUnder_leaf hk]
    simp [hk]
  · intro h hN hk il ir
    rw [Tree.leavesUnder_internal hd hN hk, Tree.handlesUnder_internal hd hN hk]
    rw [List.map_map]
    have : (Prod.fst ∘ fun p : Byte × Nat => (p.1, p.2 + 1)) = Prod.fst := rfl
    rw [this, List.map_append, il, ir]
    simp [hk]

/-- Every leaf of an internal node lies at depth 1 or more. -/
theorem Tree.leaves_depth_pos {t : Tree} {N : Nat} (hd : t.DescendsBelow N) {h : Handle} (hN : h.val < N)
    (hk : (t.nodeAt h).kind = .internal) : ∀ p ∈ t.leavesUnder 511 h, 1 ≤ p.2 := by
  intro p hp
  rw [Tree.leavesUnder_internal hd hN hk] at hp
  simp only [List.mem_map] at hp
  obtain ⟨q, -, rfl⟩ := hp
  simp

end Sys2Proof.Machine
end

