-- ==== Sys2Proof/Laws/Merge.lean ====
section
/-! SUPPORT. The merge loop of TB.BUILD and what the whole build leaves (spec/42_tree_builder.md R131 to R138). -/

namespace Sys2Proof.Machine

/-- Replacing slot `m1` and closing slot `m2` takes the two old entries out of a list and puts the new one in. -/
theorem perm_set_eraseIdx {α : Type} [DecidableEq α] (l : List α) (x : α) {m1 m2 : Nat} (h1 : m1 < l.length)
    (h2 : m2 < l.length) (hne : m2 ≠ m1) :
    ∃ r, List.Perm l (l[m1] :: l[m2] :: r) ∧ List.Perm ((l.set m1 x).eraseIdx m2) (x :: r) := by
  have hm : l[m2] ∈ l.eraseIdx m1 := by
    rw [List.mem_eraseIdx_iff_getElem]
    exact ⟨m2, h2, hne, rfl⟩
  refine ⟨(l.eraseIdx m1).erase l[m2], ?_, ?_⟩
  · exact (List.getElem_cons_eraseIdx_perm h1).symm.trans (List.Perm.cons _ (List.perm_cons_erase hm))
  · have e1 : (l.set m1 x)[m2]'(by simpa using h2) = l[m2] := by
      rw [List.getElem_set_ne (Ne.symm hne)]
    have p1 : List.Perm (l[m2] :: (l.set m1 x).eraseIdx m2) (l.set m1 x) := by
      have := List.getElem_cons_eraseIdx_perm (l := l.set m1 x) (n := m2) (by simpa using h2)
      rwa [e1] at this
    have p2 : List.Perm (l.set m1 x) (x :: l.eraseIdx m1) := List.set_perm_cons_eraseIdx h1 x
    have p3 : List.Perm (x :: l.eraseIdx m1) (x :: l[m2] :: (l.eraseIdx m1).erase l[m2]) :=
      List.Perm.cons _ (List.perm_cons_erase hm)
    exact List.Perm.cons_inv (p1.trans (p2.trans (p3.trans (List.Perm.swap _ _ _))))

/-- What holds before every pass of the merge loop over table `f`, the build having started on `t0`. -/
structure MergeInv (f : Table U64) (t0 t : Tree) : Prop where
  sum : t.nn.toNat + t.nact.toNat = 2 * (occurring f).length
  pos : 1 ≤ t.nact.toNat
  le : t.nact.toNat ≤ (occurring f).length
  leaves : ∀ (h : Handle) (hj : h.val < (occurring f).length),
    t.nodeAt h = Node.leafOf (occurring f)[h.val] (f.at (occurring f)[h.val])
  inner : ∀ h : Handle, (occurring f).length ≤ h.val → h.val < t.nn.toNat →
    (t.nodeAt h).kind = .internal ∧ (t.nodeAt h).left < h ∧ (t.nodeAt h).right < h ∧
    (t.nodeAt h).weight = (t.nodeAt (t.nodeAt h).left).weight + (t.nodeAt (t.nodeAt h).right).weight
  others : ∀ h : Handle, t.nn.toNat ≤ h.val → t.nodeAt h = t0.nodeAt h
  below : ∀ h ∈ t.activeList, h.val < t.nn.toNat
  forest : ((t.activeList.flatMap (t.handlesUnder 511)).map Fin.val).Perm (List.range t.nn.toNat)

theorem MergeInv.descends {f : Table U64} {t0 t : Tree} (h : MergeInv f t0 t) : t.DescendsBelow t.nn.toNat := by
  intro g hg hk
  rcases Nat.lt_or_ge g.val (occurring f).length with hlt | hge
  · rw [h.leaves g hlt] at hk
    exact absurd hk (by simp [Node.leafOf])
  · exact ⟨(h.inner g hge hg).2.1, (h.inner g hge hg).2.2.1⟩

theorem MergeInv.ofCollect {f : Table U64} {t0 : Tree} (hn : 1 ≤ (occurring f).length) :
    MergeInv f t0 (collect f t0) := by
  obtain ⟨c1, c2, -, c4, c5⟩ := collect_spec f t0
  have hle := length_occurring_le f
  have hal : (collect f t0).activeList = (List.range (occurring f).length).map handleOf := by
    rw [Tree.activeList, c2]
    apply List.map_congr_left
    intro i hi
    rw [c5, if_pos (List.mem_range.mp hi)]
  refine ⟨by omega, by omega, by omega, ?_, ?_, ?_, ?_, ?_⟩
  · intro h hj; rw [c4, dif_pos hj]
  · intro h h1 h2; omega
  · intro h h1; rw [c4, dif_neg (by omega)]
  · intro h hh
    rw [hal] at hh
    simp only [List.mem_map, List.mem_range] at hh
    obtain ⟨i, hi, rfl⟩ := hh
    rw [handleOf_val (by omega), c1]; exact hi
  · have : (collect f t0).activeList.flatMap ((collect f t0).handlesUnder 511) = (collect f t0).activeList := by
      rw [hal]
      have key : ∀ l : List Nat, (∀ i ∈ l, i < (occurring f).length) →
          (l.map handleOf).flatMap ((collect f t0).handlesUnder 511) = l.map handleOf := by
        intro l
        induction l with
        | nil => intro _; rfl
        | cons i l ih =>
          intro hl
          have hi := hl i (List.mem_cons_self ..)
          have hv : (handleOf i).val = i := handleOf_val (by omega)
          have hlf : ((collect f t0).nodeAt (handleOf i)).kind = .leaf := by
            rw [c4, dif_pos (by rw [hv]; exact hi)]; rfl
          rw [List.map_cons, List.flatMap_cons, Tree.handlesUnder_leaf hlf,
            ih fun j hj => hl j (List.mem_cons_of_mem _ hj)]
          rfl
      exact key _ fun i hi => List.mem_range.mp hi
    rw [this, hal, List.map_map, c1]
    have : (List.range (occurring f).length).map (Fin.val ∘ handleOf) = List.range (occurring f).length := by
      conv_rhs => rw [← List.map_id (List.range (occurring f).length)]
      apply List.map_congr_left
      intro i hi
      have := List.mem_range.mp hi
      exact handleOf_val (by omega)
    rw [this]

/-- One pass keeps the invariant. -/
theorem MergeInv.pass {f : Table U64} {t0 t : Tree} (h : MergeInv f t0 t) (h2 : 2 ≤ t.nact.toNat) :
    MergeInv f t0 (mergePass t) := by
  have hle := length_occurring_le f
  have hsum := h.sum
  have hle' := h.le
  have hnn : t.nn.toNat < 511 := by omega
  obtain ⟨p1, p2, -, p4, p5⟩ := mergePass_spec h2 (by omega) hnn
  obtain ⟨f1, -, -⟩ := firstMin_spec (t := t) (by omega)
  obtain ⟨s1, s2, -, -⟩ := secondMin_spec (m1 := firstMin t) h2
  set m1 := firstMin t
  set m2 := secondMin t m1
  have hsame : ∀ g : Handle, g.val < t.nn.toNat → (mergePass t).nodeAt g = t.nodeAt g := fun g hg => by
    rw [p4, if_neg (by omega)]
  have ha : ∀ i, i < t.nact.toNat → (t.activeAt i).val < t.nn.toNat := fun i hi =>
    h.below _ (List.mem_map.mpr ⟨i, List.mem_range.mpr hi, rfl⟩)
  have hv : (handleOf t.nn.toNat).val = t.nn.toNat := handleOf_val hnn
  have hnew : (mergePass t).nodeAt (handleOf t.nn.toNat) =
      Node.internalOf (t.activeAt m1) (t.activeAt m2) (t.weightAt m1 + t.weightAt m2) := by
    rw [p4, if_pos hv]
  have hdesc : (mergePass t).DescendsBelow (t.nn.toNat + 1) := by
    intro g hg hk
    rcases Nat.lt_or_ge g.val t.nn.toNat with hlt | hge
    · rw [hsame g hlt] at hk ⊢
      exact h.descends g hlt hk
    · have hg' : g = handleOf t.nn.toNat := Fin.ext (by omega)
      rw [hg', hnew]
      simp only [Node.internalOf, Fin.lt_def, hv]
      exact ⟨ha _ f1, ha _ s1⟩
  have hm1 : m1 < t.activeList.length := by rw [Tree.length_activeList]; exact f1
  have hm2 : m2 < t.activeList.length := by rw [Tree.length_activeList]; exact s1
  obtain ⟨r, q1, q2⟩ := perm_set_eraseIdx t.activeList (handleOf t.nn.toNat) hm1 hm2 s2
  rw [Tree.getElem_activeList, Tree.getElem_activeList] at q1
  have hr : ∀ g ∈ r, g.val < t.nn.toNat := fun g hg =>
    h.below g (q1.symm.subset (List.mem_cons_of_mem _ (List.mem_cons_of_mem _ hg)))
  have hun : ∀ g : Handle, g.val < t.nn.toNat → (mergePass t).handlesUnder 511 g = t.handlesUnder 511 g := fun g hg =>
    Tree.handlesUnder_congr h.descends hsame 511 g hg
  refine ⟨by omega, by omega, by omega, ?_, ?_, ?_, ?_, ?_⟩
  · intro g hj
    rw [hsame g (by omega)]
    exact h.leaves g hj
  · intro g hg1 hg2
    rcases Nat.lt_or_ge g.val t.nn.toNat with hlt | hge
    · obtain ⟨i1, i2, i3, i4⟩ := h.inner g hg1 hlt
      have e1 := i2; have e2 := i3
      rw [Fin.lt_def] at e1 e2
      rw [hsame g hlt, hsame _ (by omega), hsame _ (by omega)]
      exact ⟨i1, i2, i3, i4⟩
    · have hg' : g = handleOf t.nn.toNat := Fin.ext (by omega)
      rw [hg', hnew]
      simp only [Node.internalOf, Fin.lt_def, hv]
      refine ⟨trivial, ha _ f1, ha _ s1, ?_⟩
      rw [hsame _ (ha _ f1), hsame _ (ha _ s1)]
      rfl
  · intro g hg
    rw [p4, if_neg (by omega)]
    exact h.others g (by omega)
  · intro g hg
    rw [p5] at hg
    rcases List.mem_cons.mp (q2.subset hg) with rfl | hg
    · omega
    · have := hr g hg; omega
  · rw [p5, p1]
    have e1 : List.Perm (((t.activeList.set m1 (handleOf t.nn.toNat)).eraseIdx m2).flatMap ((mergePass t).handlesUnder 511))
        ((handleOf t.nn.toNat :: r).flatMap ((mergePass t).handlesUnder 511)) := List.Perm.flatMap_right _ q2
    have e2 : (mergePass t).handlesUnder 511 (handleOf t.nn.toNat) =
        t.handlesUnder 511 (t.activeAt m1) ++ t.handlesUnder 511 (t.activeAt m2) ++ [handleOf t.nn.toNat] := by
      rw [Tree.handlesUnder_internal hdesc (by omega) (by rw [hnew]; rfl), hnew]
      simp only [Node.internalOf]
      rw [hun _ (ha _ f1), hun _ (ha _ s1)]
    have e3 : r.flatMap ((mergePass t).handlesUnder 511) = r.flatMap (t.handlesUnder 511) := by
      clear q1 q2 e1
      induction r with
      | nil => rfl
      | cons g r ih =>
        rw [List.flatMap_cons, List.flatMap_cons, hun _ (hr g (List.mem_cons_self ..)),
          ih fun g hg => hr g (List.mem_cons_of_mem _ hg)]
    have e4 : List.Perm (t.activeList.flatMap (t.handlesUnder 511))
        (t.handlesUnder 511 (t.activeAt m1) ++ (t.handlesUnder 511 (t.activeAt m2) ++ r.flatMap (t.handlesUnder 511))) := by
      have := List.Perm.flatMap_right (t.handlesUnder 511) q1
      simpa [List.flatMap_cons] using this
    have e5 : List.Perm ((handleOf t.nn.toNat :: r).flatMap ((mergePass t).handlesUnder 511))
        (handleOf t.nn.toNat :: t.activeList.flatMap (t.handlesUnder 511)) := by
      rw [List.flatMap_cons, e2, e3]
      refine List.Perm.trans ?_ (List.Perm.cons _ e4.symm)
      simp only [List.append_assoc]
      rw [← List.append_assoc]
      refine List.Perm.trans (List.perm_middle (l₁ := t.handlesUnder 511 (t.activeAt m1) ++ t.handlesUnder 511 (t.activeAt m2))
        (a := handleOf t.nn.toNat) (l₂ := r.flatMap (t.handlesUnder 511))) ?_
      simp
    have e6 := (e1.trans e5).map Fin.val
    rw [List.map_cons, hv] at e6
    refine e6.trans ?_
    rw [List.range_succ]
    exact (List.Perm.cons _ h.forest).trans (List.perm_append_singleton _ _).symm

theorem MergeInv.iterate {f : Table U64} {t0 t : Tree} (h : MergeInv f t0 t) (k : Nat) (hk : k < t.nact.toNat) :
    MergeInv f t0 (Nat.repeat mergePass k t) ∧ (Nat.repeat mergePass k t).nact.toNat + k = t.nact.toNat := by
  induction k with
  | zero => exact ⟨h, rfl⟩
  | succ k ih =>
    obtain ⟨i1, i2⟩ := ih (by omega)
    have hle := length_occurring_le f
    have := i1.le
    have := i1.sum
    obtain ⟨-, p2, -⟩ := mergePass_spec (t := Nat.repeat mergePass k t) (by omega) (by omega) (by omega)
    refine ⟨i1.pass (by omega), ?_⟩
    show (mergePass (Nat.repeat mergePass k t)).nact.toNat + (k + 1) = _
    omega

theorem repeat_pass_comm (k : Nat) (t : Tree) :
    Nat.repeat mergePass k (mergePass t) = mergePass (Nat.repeat mergePass k t) := by
  induction k with
  | zero => rfl
  | succ k ih =>
    show mergePass (Nat.repeat mergePass k (mergePass t)) = _
    rw [ih]; rfl

/-- The loop is NACT - 1 passes. -/
theorem mergeLoop_eq {f : Table U64} {t0 t : Tree} (h : MergeInv f t0 t) (n : Nat) (hn : t.nact.toNat ≤ n) :
    mergeLoop n t = Nat.repeat mergePass (t.nact.toNat - 1) t := by
  induction n generalizing t with
  | zero => have := h.pos; omega
  | succ n ih =>
    rw [mergeLoop]
    split_ifs with h1
    · have hle := length_occurring_le f
      have := h.le
      have := h.sum
      obtain ⟨-, p2, -⟩ := mergePass_spec (t := t) (by omega) (by omega) (by omega)
      rw [ih (h.pass (by omega)) (by omega), show t.nact.toNat - 1 = ((mergePass t).nact.toNat - 1) + 1 by omega,
        repeat_pass_comm]
      rfl
    · have := h.pos
      rw [show t.nact.toNat - 1 = 0 by omega]
      rfl

/-! ### The whole build -/

/-- With no nonzero count the build fails, leaving NN, NACT and ROOT 0 and nothing else changed (R133). -/
theorem buildOver_empty {f : Table U64} (t : Tree) (h : occurring f = []) :
    buildOver f t = (false, { t with nn := 0#10, root := 0, nact := 0#9 }) := by
  have hz : ∀ c, f.at c = 0#64 := by
    intro c
    by_contra hc
    have := mem_occurring.mpr hc
    rw [h] at this
    simp at this
  have hc : collect f t = { t with nn := 0#10, nact := 0#9 } := by
    unfold collect
    generalize allSymbols = l
    induction l with
    | nil => rfl
    | cons c l ih => rw [List.foldl_cons, collectSym, if_pos (hz c)]; exact ih
  simp [buildOver, hc]

theorem nact_collect_eq {f : Table U64} (t : Tree) (k : Nat) (hk : k < 512) :
    (collect f t).nact = BitVec.ofNat 9 k ↔ (occurring f).length = k := by
  obtain ⟨-, c2, -⟩ := collect_spec f t
  rw [← c2]
  constructor
  · intro h; rw [h]; simp; omega
  · intro h; apply BitVec.eq_of_toNat_eq; rw [h]; simp; omega

/-- With one nonzero count (R134). -/
theorem buildOver_one {f : Table U64} (t : Tree) (h : (occurring f).length = 1) :
    buildOver f t = (true, degenerate (collect f t)) := by
  have h0 : ¬ (collect f t).nact = 0#9 := fun e => by
    have := (nact_collect_eq t 0 (by omega)).mp e; omega
  have h1 : (collect f t).nact = 1#9 := (nact_collect_eq t 1 (by omega)).mpr h
  simp [buildOver, h1]

/-- With two or more nonzero counts: collect, then one pass fewer than there are symbols (R135). -/
theorem buildOver_many {f : Table U64} (t : Tree) (h : 1 < (occurring f).length) :
    buildOver f t = (true,
      { Nat.repeat mergePass ((occurring f).length - 1) (collect f t) with
        root := (Nat.repeat mergePass ((occurring f).length - 1) (collect f t)).activeAt 0 }) := by
  have h0 : ¬ (collect f t).nact = 0#9 := fun e => by
    have := (nact_collect_eq t 0 (by omega)).mp e; omega
  have h1 : ¬ (collect f t).nact = 1#9 := fun e => by
    have := (nact_collect_eq t 1 (by omega)).mp e; omega
  obtain ⟨-, c2, -⟩ := collect_spec f t
  simp only [buildOver, if_neg h0, if_neg h1, merge]
  rw [mergeLoop_eq (MergeInv.ofCollect (t0 := t) (by omega)) _ (Nat.le_refl _), c2]

/-- What the build leaves with two or more nonzero counts, beside the invariant of the loop: the sizes, the root, and that
every handle in use is under the root, once. -/
theorem buildOver_many_spec {f : Table U64} (t : Tree) (h : 1 < (occurring f).length) :
    (buildOver f t).1 = true ∧ MergeInv f t (buildOver f t).2 ∧
    (buildOver f t).2.nn.toNat = 2 * (occurring f).length - 1 ∧
    (buildOver f t).2.root.val = 2 * (occurring f).length - 2 ∧
    (buildOver f t).2.nact = 1#9 ∧ (buildOver f t).2.activeAt 0 = (buildOver f t).2.root ∧
    (((buildOver f t).2.handlesUnder 511 (buildOver f t).2.root).map Fin.val).Perm
      (List.range (buildOver f t).2.nn.toNat) := by
  have hle := length_occurring_le f
  obtain ⟨-, c2, -⟩ := collect_spec f t
  obtain ⟨i1, i2⟩ := (MergeInv.ofCollect (t0 := t) (f := f) (by omega)).iterate ((occurring f).length - 1) (by omega)
  rw [buildOver_many t h]
  set u := Nat.repeat mergePass ((occurring f).length - 1) (collect f t)
  have hnact : u.nact.toNat = 1 := by omega
  have hal : u.activeList = [u.activeAt 0] := by
    rw [Tree.activeList, hnact]; rfl
  have hsum := i1.sum
  have hforest := i1.forest
  rw [hal, List.flatMap_cons, List.flatMap_nil, List.append_nil] at hforest
  have hroot0 : (u.activeAt 0).val < u.nn.toNat := i1.below _ (by rw [hal]; simp)
  have hroot : (u.activeAt 0).val = u.nn.toNat - 1 := by
    have hmem : u.nn.toNat - 1 ∈ (u.handlesUnder 511 (u.activeAt 0)).map Fin.val :=
      hforest.symm.subset (List.mem_range.mpr (by omega))
    obtain ⟨g, hg, hgv⟩ := List.mem_map.mp hmem
    have key : ∀ (n : Nat) (h : Handle), h.val < u.nn.toNat → ∀ g ∈ u.handlesUnder n h, g.val ≤ h.val := by
      intro n
      induction n with
      | zero => intro h _ g hg; simp [Tree.handlesUnder] at hg
      | succ n ih =>
        intro h hN g hg
        rw [Tree.handlesUnder] at hg
        split at hg
        · simp only [List.mem_singleton] at hg; rw [hg]
        · rename_i hk
          obtain ⟨hl, hr⟩ := i1.descends h hN hk
          rw [Fin.lt_def] at hl hr
          simp only [List.mem_append, List.mem_singleton] at hg
          rcases hg with (hg | hg) | rfl
          · have := ih _ (by omega) g hg; omega
          · have := ih _ (by omega) g hg; omega
          · exact Nat.le_refl _
    have := key 511 _ hroot0 g hg
    omega
  have hu : ({ u with root := u.activeAt 0 } : Tree).DescendsBelow u.nn.toNat := i1.descends
  have hhu : ∀ n h, ({ u with root := u.activeAt 0 } : Tree).handlesUnder n h = u.handlesUnder n h := by
    intro n
    induction n with
    | zero => intro h; rfl
    | succ n ih => intro h; simp only [Tree.handlesUnder]; rw [ih, ih]; rfl
  have hinv : MergeInv f t { u with root := u.activeAt 0 } :=
    ⟨i1.sum, i1.pos, i1.le, i1.leaves, i1.inner, i1.others, i1.below, by
      have h511 : ({ u with root := u.activeAt 0 } : Tree).handlesUnder 511 = u.handlesUnder 511 := funext (hhu 511)
      show List.Perm ((u.activeList.flatMap (({ u with root := u.activeAt 0 } : Tree).handlesUnder 511)).map Fin.val) _
      rw [h511]
      exact i1.forest⟩
  refine ⟨rfl, hinv, ?_, ?_, ?_, rfl, ?_⟩
  · show u.nn.toNat = _; omega
  · show (u.activeAt 0).val = _; omega
  · show u.nact = _; exact BitVec.eq_of_toNat_eq hnact
  · show List.Perm ((({ u with root := u.activeAt 0 } : Tree).handlesUnder 511 (u.activeAt 0)).map Fin.val) _
    rw [hhu]
    exact hforest

end Sys2Proof.Machine
end

