-- ==== Sys2Proof/Laws/Build.lean ====
section
/-! SUPPORT. What a successful TB.BUILD leaves, in the terms its users need (spec/42_tree_builder.md R130 to R138). -/

namespace Sys2Proof.Machine

theorem occurring_eq_nil {f : Table U64} : occurring f = [] ↔ ∀ c, f.at c = 0#64 := by
  constructor
  · intro h c
    by_contra hc
    have := mem_occurring.mpr hc
    rw [h] at this
    simp at this
  · intro h
    rw [List.eq_nil_iff_forall_not_mem]
    intro c hc
    exact mem_occurring.mp hc (h c)

theorem occurring_eq_singleton {f : Table U64} {c : Byte} (h : f.at c ≠ 0#64) (ho : ∀ d, d ≠ c → f.at d = 0#64) :
    occurring f = [c] := by
  have hm : c ∈ occurring f := mem_occurring.mpr h
  have ha : ∀ d ∈ occurring f, d = c := fun d hd => by
    by_contra hne
    exact mem_occurring.mp hd (ho d hne)
  have hn := nodup_occurring f
  match hl : occurring f with
  | [] => rw [hl] at hm; simp at hm
  | [d] => rw [hl] at ha; rw [ha d (List.mem_singleton_self d)]
  | d :: e :: l =>
    rw [hl] at hn ha
    have h1 := ha d (by simp)
    have h2 := ha e (by simp)
    rw [h1, h2] at hn
    simp at hn

theorem Tree.nodeAt_degenerate (t : Tree) (g : Handle) : (degenerate t).nodeAt g =
    if g.val = 2 then Node.internalOf 0 1 (t.nodeAt 0).weight
    else if g.val = 1 then Node.leafOf (t.nodeAt 0).sym (t.nodeAt 0).weight else t.nodeAt g := by
  have : (degenerate t).nodeAt g = ((t.node.setIfInBounds 1 (Node.leafOf (t.nodeAt 0).sym (t.nodeAt 0).weight)).setIfInBounds 2
    (Node.internalOf 0 1 (t.nodeAt 0).weight))[g.val] := rfl
  rw [this, Vector.getElem_setIfInBounds, Vector.getElem_setIfInBounds]
  simp only [eq_comm (b := g.val)]
  rfl

/-- The degenerate tree (R134). -/
theorem degenerate_spec {f : Table U64} {c : Byte} (t : Tree) (h : occurring f = [c]) :
    (degenerate (collect f t)).nodeAt 0 = Node.leafOf c (f.at c) ∧
    (degenerate (collect f t)).nodeAt 1 = Node.leafOf c (f.at c) ∧
    (degenerate (collect f t)).nodeAt 2 = Node.internalOf 0 1 (f.at c) ∧
    (degenerate (collect f t)).nn = 3#10 ∧ (degenerate (collect f t)).root = 2 ∧
    (degenerate (collect f t)).nact = 1#9 ∧ (degenerate (collect f t)).active[0] = 2 ∧
    ∀ g : Handle, 3 ≤ g.val → (degenerate (collect f t)).nodeAt g = t.nodeAt g := by
  obtain ⟨-, -, -, c4, -⟩ := collect_spec f t
  have h0 : (collect f t).nodeAt 0 = Node.leafOf c (f.at c) := by
    rw [c4, dif_pos (by simp [h])]
    simp [h]
  have key : ∀ g : Handle, (degenerate (collect f t)).nodeAt g =
      if g.val = 2 then Node.internalOf 0 1 (f.at c) else if g.val = 1 then Node.leafOf c (f.at c)
      else (collect f t).nodeAt g := by
    intro g
    rw [Tree.nodeAt_degenerate, h0]
    rfl
  refine ⟨by rw [key]; simpa using h0, by rw [key]; simp, by rw [key]; simp, rfl, rfl, rfl, ?_, ?_⟩
  · simp [degenerate]
  · intro g hg
    rw [key, if_neg (by omega), if_neg (by omega), c4, dif_neg (by rw [h]; simp; omega)]

/-- The build does not fail exactly when some count is nonzero (R133). -/
theorem buildOver_fst (f : Table U64) (t : Tree) : (buildOver f t).1 = true ↔ occurring f ≠ [] := by
  rcases Nat.lt_trichotomy (occurring f).length 1 with h | h | h
  · have h0 : occurring f = [] := List.length_eq_zero_iff.mp (by omega)
    rw [buildOver_empty t h0]; simp [h0]
  · rw [buildOver_one t h]
    have : occurring f ≠ [] := fun e => by rw [e] at h; simp at h
    simp [this]
  · rw [(buildOver_many_spec t h).1]
    have : occurring f ≠ [] := fun e => by rw [e] at h; simp at h
    simp [this]

theorem buildOver_eq {f : Table U64} (t : Tree) (h : occurring f ≠ []) :
    buildOver f t = (true, (buildOver f t).2) := by
  have h1 := (buildOver_fst f t).mpr h
  generalize buildOver f t = r at *
  obtain ⟨a, b⟩ := r
  simp only at h1
  rw [h1]

/-- A tree as a successful build leaves it over table `f`, the node store having held `t0` before. -/
structure Built (f : Table U64) (t0 t : Tree) : Prop where
  descends : t.DescendsBelow t.nn.toNat
  rootInternal : (t.nodeAt t.root).kind = .internal
  nnRoot : t.nn.toNat = t.root.val + 1
  nact : t.nact = 1#9
  active : t.active[0] = t.root
  height : t.height 511 t.root ≤ 255
  others : ∀ h : Handle, t.nn.toNat ≤ h.val → t.nodeAt h = t0.nodeAt h
  handles : ((t.handlesUnder 511 t.root).map Fin.val).Perm (List.range t.nn.toNat)
  leaves : if (occurring f).length = 1 then (t.leavesUnder 511 t.root).map Prod.fst = occurring f ++ occurring f
    else ((t.leavesUnder 511 t.root).map Prod.fst).Perm (occurring f)

theorem Tree.activeAt_zero (t : Tree) : t.activeAt 0 = t.active[0] := by
  simp [Tree.activeAt]

theorem map_val_inj {l : List Handle} {n : Nat} (h : (l.map Fin.val).Perm (List.range n)) :
    l.Perm ((List.range n).map handleOf) := by
  have h1 := h.map handleOf
  rw [List.map_map] at h1
  have : l.map (handleOf ∘ Fin.val) = l := by
    conv_rhs => rw [← List.map_id l]
    apply List.map_congr_left
    intro g _
    exact Fin.ext (handleOf_val g.isLt)
  rwa [this] at h1

/-- The occurring symbols, read off the first handles. -/
theorem map_sym_leaves {f : Table U64} {t : Tree} {m : Nat} (hn : (occurring f).length ≤ m) (hm : m ≤ 511)
    (hl : ∀ (h : Handle) (hj : h.val < (occurring f).length),
      t.nodeAt h = Node.leafOf (occurring f)[h.val] (f.at (occurring f)[h.val]))
    (hi : ∀ h : Handle, (occurring f).length ≤ h.val → h.val < m → (t.nodeAt h).kind = .internal) :
    ((((List.range m).map handleOf).filter fun g => decide ((t.nodeAt g).kind = .leaf)).map fun g => (t.nodeAt g).sym) =
      occurring f := by
  set n := (occurring f).length with hnd
  have h1 : ((List.range m).map handleOf).filter (fun g => decide ((t.nodeAt g).kind = .leaf)) =
      (List.range n).map handleOf := by
    obtain ⟨k, rfl⟩ : ∃ k, m = n + k := ⟨m - n, by omega⟩
    rw [List.range_add, List.map_append, List.filter_append]
    rw [List.filter_eq_self.mpr, List.filter_eq_nil_iff.mpr, List.append_nil]
    · intro g hg
      simp only [List.mem_map, List.mem_range] at hg
      obtain ⟨j, ⟨i, hi', rfl⟩, rfl⟩ := hg
      have hv : (handleOf (n + i)).val = n + i := handleOf_val (by omega)
      rw [hi _ (by omega) (by omega)]; simp
    · intro g hg
      simp only [List.mem_map, List.mem_range] at hg
      obtain ⟨i, hi', rfl⟩ := hg
      have hv : (handleOf i).val = i := handleOf_val (by omega)
      rw [hl _ (by omega)]; simp [Node.leafOf]
  rw [h1, List.map_map]
  apply List.ext_getElem
  · simp [hnd]
  · intro i h1 h2
    have hv : (handleOf i).val = i := handleOf_val (by omega)
    simp only [List.getElem_map, List.getElem_range, Function.comp]
    rw [hl (handleOf i) (by omega)]
    simp only [Node.leafOf, hv]

/-- A build over a table with a nonzero count leaves a `Built` tree. -/
theorem buildOver_built {f : Table U64} (t : Tree) (h : occurring f ≠ []) : Built f t (buildOver f t).2 := by
  have hle := length_occurring_le f
  rcases Nat.lt_or_ge 1 (occurring f).length with h1 | h1
  · obtain ⟨-, hinv, hnn, hroot, hnact, hact, hper⟩ := buildOver_many_spec t h1
    set u := (buildOver f t).2
    have hd := hinv.descends
    have hk : (u.nodeAt u.root).kind = .internal := (hinv.inner _ (by omega) (by omega)).1
    have hlv : ((u.leavesUnder 511 u.root).map Prod.fst).Perm (occurring f) := by
      rw [Tree.leaves_eq_handles hd _ (by omega)]
      have hp := map_val_inj hper
      have := (hp.filter fun g => decide ((u.nodeAt g).kind = .leaf)).map fun g => (u.nodeAt g).sym
      rwa [map_sym_leaves (by omega) (by omega) hinv.leaves fun g h2 h3 => (hinv.inner g h2 h3).1] at this
    refine ⟨hd, hk, by omega, hnact, by rw [← Tree.activeAt_zero]; exact hact, ?_, hinv.others, hper, ?_⟩
    · have := (Tree.height_lt_leaves hd u.root (by omega)).1
      have hl := hlv.length_eq
      rw [List.length_map] at hl
      omega
    · rw [if_neg (by omega)]; exact hlv
  · have hone : (occurring f).length = 1 := by
      rcases Nat.eq_zero_or_pos (occurring f).length with h0 | h0
      · exact absurd (List.length_eq_zero_iff.mp h0) h
      · omega
    obtain ⟨c, hc⟩ := List.length_eq_one_iff.mp hone
    rw [buildOver_one t hone]
    obtain ⟨d0, d1, d2, dn, dr, da, dact, dother⟩ := degenerate_spec t hc
    set u := degenerate (collect f t)
    have hv : (2 : Handle).val = 2 := rfl
    have hdesc : u.DescendsBelow u.nn.toNat := by
      intro g hg hk
      rw [dn] at hg
      have hg' : g.val < 3 := hg
      have h3 : g = 0 ∨ g = 1 ∨ g = 2 := by
        rcases (by omega : g.val = 0 ∨ g.val = 1 ∨ g.val = 2) with e | e | e
        · exact .inl (Fin.ext e)
        · exact .inr (.inl (Fin.ext e))
        · exact .inr (.inr (Fin.ext e))
      rcases h3 with rfl | rfl | rfl
      · rw [d0] at hk; exact absurd hk (by simp [Node.leafOf])
      · rw [d1] at hk; exact absurd hk (by simp [Node.leafOf])
      · rw [d2]; exact ⟨show (0 : Handle) < 2 by decide, show (1 : Handle) < 2 by decide⟩
    have hk2 : (u.nodeAt 2).kind = .internal := by rw [d2]; rfl
    have hk0 : (u.nodeAt 0).kind = .leaf := by rw [d0]; rfl
    have hk1 : (u.nodeAt 1).kind = .leaf := by rw [d1]; rfl
    have hnn : u.nn.toNat = 3 := by rw [dn]; rfl
    have hN : (2 : Handle).val < u.nn.toNat := by rw [hnn, hv]; omega
    have hl2 : (u.nodeAt 2).left = 0 := by rw [d2]; rfl
    have hr2 : (u.nodeAt 2).right = 1 := by rw [d2]; rfl
    refine ⟨hdesc, by rw [dr]; exact hk2, by rw [hnn, dr]; rfl, da, by rw [dact, dr], ?_, ?_, ?_, ?_⟩
    · rw [dr, Tree.height_internal hdesc hN hk2, hl2, hr2, Tree.height_leaf hk0, Tree.height_leaf hk1]; omega
    · intro g hg
      exact dother g (by have h3 : u.nn.toNat ≤ g.val := hg; omega)
    · rw [dr, Tree.handlesUnder_internal hdesc hN hk2, hl2, hr2, Tree.handlesUnder_leaf hk0,
        Tree.handlesUnder_leaf hk1, hnn]
      exact List.Perm.refl _
    · rw [if_pos hone, dr, Tree.leavesUnder_internal hdesc hN hk2, hl2, hr2, Tree.leavesUnder_leaf hk0,
        Tree.leavesUnder_leaf hk1, hc, d0, d1]
      rfl

/-- The symbols at the leaves are the occurring ones. -/
theorem Built.mem_leaves {f : Table U64} {t0 t : Tree} (h : Built f t0 t) (c : Byte) :
    c ∈ (t.leavesUnder 511 t.root).map Prod.fst ↔ f.at c ≠ 0#64 := by
  rw [← mem_occurring]
  have := h.leaves
  split_ifs at this
  · rw [this]; simp
  · exact this.mem_iff

theorem Built.rooted {f : Table U64} {t0 t : Tree} (h : Built f t0 t) : t.Rooted :=
  ⟨h.rootInternal, h.nnRoot, h.height, h.nact, h.active⟩

/-- A build keeps the whole store descending: it writes nodes with lower children, and the rest is as before. -/
theorem Built.descending {f : Table U64} {t0 t : Tree} (h : Built f t0 t) (h0 : t0.Descending) : t.Descending := by
  intro g hk
  rcases Nat.lt_or_ge g.val t.nn.toNat with hlt | hge
  · exact h.descends g hlt hk
  · rw [h.others g hge] at hk ⊢
    exact h0 g hk

end Sys2Proof.Machine
end

