-- ==== Sys2Proof/Laws/CodeTable.lean ====
section
/-! SUPPORT. CG.GEN's traversal and the codes it records, as paths from the root (spec/30_encoding.md R101, R106;
spec/43_code_table_generator.md R150 to R155; spec/47_sequencer.md R194). -/

namespace Sys2Proof.Machine

/-! ### Paths as patterns -/

/-- The pattern of a path (R101). -/
def patOf (p : List Bool) : Pattern := p.foldl extendPath 0#255

/-- The entry of a path (R101, R150). -/
def entryOf (p : List Bool) : CodeEntry := ⟨true, BitVec.ofNat 8 p.length, patOf p⟩

theorem patOf_snoc (p : List Bool) (b : Bool) : patOf (p ++ [b]) = extendPath (patOf p) b := by
  simp [patOf, List.foldl_append]

theorem getLsbD_extendPath (pat : Pattern) (b : Bool) (i : Nat) :
    (extendPath pat b).getLsbD i = (decide (i < 255) && (if i = 0 then b else pat.getLsbD (i - 1))) := by
  simp only [extendPath, BitVec.getLsbD_or, BitVec.getLsbD_shiftLeft, BitVec.getLsbD_setWidth]
  rcases Nat.eq_zero_or_pos i with rfl | h
  · simp
  · have h0 : i ≠ 0 := by omega
    have h1 : ¬ i < 1 := by omega
    have h2 : (BitVec.ofBool b).getLsbD i = false := BitVec.getLsbD_of_ge _ _ (by omega)
    simp [h0, h1, h2]

/-- Bit `k` of a path of at most 255 branches, counted from its end. -/
theorem getLsbD_patOf (p : List Bool) (hp : p.length ≤ 255) (k : Nat) (hk : k < p.length) :
    (patOf p).getLsbD (p.length - 1 - k) = p[k] := by
  induction p using List.reverseRecOn generalizing k with
  | nil => simp at hk
  | append_singleton p b ih =>
    rw [List.length_append, List.length_singleton] at hp hk ⊢
    rw [patOf_snoc, getLsbD_extendPath]
    have : p.length + 1 - 1 - k < 255 := by omega
    rcases Nat.lt_or_ge k p.length with hlt | hge
    · have h0 : p.length + 1 - 1 - k ≠ 0 := by omega
      rw [if_neg h0, List.getElem_append_left hlt, ← ih (by omega) k hlt,
        show p.length + 1 - 1 - k - 1 = p.length - 1 - k by omega]
      simp; omega
    · have h0 : p.length + 1 - 1 - k = 0 := by omega
      rw [h0, List.getElem_append_right hge]
      simp

theorem patOf_lt (p : List Bool) (hp : p.length ≤ 255) : (patOf p).toNat < 2 ^ p.length := by
  apply Nat.lt_pow_two_of_testBit
  intro i hi
  show (patOf p).getLsbD i = false
  induction p using List.reverseRecOn generalizing i with
  | nil => simp [patOf]
  | append_singleton p b ih =>
    rw [List.length_append, List.length_singleton] at hp hi
    rw [patOf_snoc, getLsbD_extendPath, if_neg (by omega), ih (by omega) (i - 1) (by omega)]
    simp

/-- The bits of an entry are its path. -/
theorem bits_entryOf (p : List Bool) (hp : p.length ≤ 255) : (entryOf p).bits = p := by
  have hl : (BitVec.ofNat 8 p.length).toNat = p.length := by simp; omega
  simp only [CodeEntry.bits, entryOf, bitsMsbFirst, hl]
  apply List.ext_getElem
  · simp
  · intro k h1 h2
    simp only [List.getElem_map, List.getElem_range]
    exact getLsbD_patOf p hp k h2

theorem proper_entryOf (p : List Bool) (hp : p.length ≤ 255) (h1 : 1 ≤ p.length) : (entryOf p).Proper := by
  have hl : (BitVec.ofNat 8 p.length).toNat = p.length := by simp; omega
  refine ⟨fun _ => ?_, fun h => by simp [entryOf] at h⟩
  simp only [entryOf, hl]
  exact ⟨h1, patOf_lt p hp⟩

/-! ### The leaves under a handle with their paths -/

/-- The leaves under `h` from left to right, each with its symbol and its path, `p` being the path of `h`. -/
def leafPaths (t : Tree) : Nat → Handle → List Bool → List (Byte × List Bool)
  | 0, _, _ => []
  | n + 1, h, p => match (t.nodeAt h).kind with
    | .leaf => [((t.nodeAt h).sym, p)]
    | .internal => leafPaths t n (t.nodeAt h).left (p ++ [false]) ++ leafPaths t n (t.nodeAt h).right (p ++ [true])

/-- Recording a list of leaves (R151). -/
def recordAll (c : Table CodeEntry) (l : List (Byte × List Bool)) : Table CodeEntry :=
  l.foldl (fun c q => c.put q.1 (entryOf q.2)) c

theorem codesUnder_eq (t : Tree) (n : Nat) (h : Handle) (p : List Bool) (c : Table CodeEntry) :
    codesUnder t n h (patOf p) (BitVec.ofNat 8 p.length) c = recordAll c (leafPaths t n h p) := by
  induction n generalizing h p c with
  | zero => rfl
  | succ n ih =>
    have hlen : ∀ b, BitVec.ofNat 8 p.length + 1#8 = BitVec.ofNat 8 (p ++ [b]).length := by
      intro b; rw [List.length_append, List.length_singleton, BitVec.ofNat_add]
    cases hk : (t.nodeAt h).kind with
    | leaf => simp only [codesUnder, leafPaths, hk]; rfl
    | internal =>
      simp only [codesUnder, leafPaths, hk]
      rw [← patOf_snoc, ← patOf_snoc, hlen false, ih]
      rw [← hlen false, hlen true, ih]
      rw [recordAll, recordAll, recordAll, List.foldl_append]

/-- `codes` records every leaf under the root with its path (R151). -/
theorem codes_eq (t : Tree) :
    codes t = recordAll (Vector.replicate 256 CodeEntry.zero) (leafPaths t 511 t.root []) :=
  codesUnder_eq t 511 t.root [] _

/-- What a symbol's entry is after recording: the last leaf of the symbol, or what it was. -/
theorem recordAll_at (c : Table CodeEntry) (l : List (Byte × List Bool)) (s : Byte) :
    (∃ q ∈ l, q.1 = s ∧ (recordAll c l).at s = entryOf q.2) ∨
    ((∀ q ∈ l, q.1 ≠ s) ∧ (recordAll c l).at s = c.at s) := by
  induction l using List.reverseRecOn with
  | nil => exact .inr ⟨by simp, rfl⟩
  | append_singleton l q ih =>
    have hr : recordAll c (l ++ [q]) = (recordAll c l).put q.1 (entryOf q.2) := by
      simp [recordAll, List.foldl_append]
    rw [hr, Table.at_put]
    by_cases hq : s = q.1
    · exact .inl ⟨q, by simp, hq.symm, by rw [if_pos hq]⟩
    · rw [if_neg hq]
      rcases ih with ⟨q', h1, h2, h3⟩ | ⟨h1, h2⟩
      · exact .inl ⟨q', by simp [h1], h2, h3⟩
      · refine .inr ⟨?_, h2⟩
        intro q' hq'
        rcases List.mem_append.mp hq' with h | h
        · exact h1 q' h
        · simp only [List.mem_singleton] at h
          rw [h]; exact fun e => hq e.symm

/-- The entry of a symbol in `codes`. -/
theorem codes_at (t : Tree) (s : Byte) :
    (∃ q ∈ leafPaths t 511 t.root [], q.1 = s ∧ (codes t).at s = entryOf q.2) ∨
    ((∀ q ∈ leafPaths t 511 t.root [], q.1 ≠ s) ∧ (codes t).at s = CodeEntry.zero) := by
  rw [codes_eq]
  have := recordAll_at (Vector.replicate 256 CodeEntry.zero) (leafPaths t 511 t.root []) s
  rwa [Table.at_replicate] at this

theorem leafPaths_leaves (t : Tree) (n : Nat) (h : Handle) (p : List Bool) :
    (leafPaths t n h p).map (fun q => (q.1, q.2.length)) =
      (t.leavesUnder n h).map fun q => (q.1, q.2 + p.length) := by
  induction n generalizing h p with
  | zero => rfl
  | succ n ih =>
    cases hk : (t.nodeAt h).kind with
    | leaf => simp [leafPaths, Tree.leavesUnder, hk]
    | internal =>
      simp only [leafPaths, Tree.leavesUnder, hk]
      rw [List.map_append, ih, ih, List.map_map, List.map_append]
      have : ∀ b : Bool, (fun q : Byte × Nat => (q.1, q.2 + (p ++ [b]).length)) =
          (fun q : Byte × Nat => (q.1, q.2 + p.length)) ∘ fun q => (q.1, q.2 + 1) := by
        intro b; funext q; simp; omega
      rw [this false, this true]

theorem leafPaths_prefix (t : Tree) (n : Nat) (h : Handle) (p : List Bool) :
    ∀ q ∈ leafPaths t n h p, p <+: q.2 := by
  induction n generalizing h p with
  | zero => intro q hq; simp [leafPaths] at hq
  | succ n ih =>
    intro q hq
    simp only [leafPaths] at hq
    split at hq
    · simp only [List.mem_singleton] at hq; rw [hq]
    · rcases List.mem_append.mp hq with hq | hq
      · exact (List.prefix_append p [false]).trans (ih _ _ q hq)
      · exact (List.prefix_append p [true]).trans (ih _ _ q hq)

/-- Walking from `h` along the rest of a leaf's path ends at that leaf, whatever bits follow (R194). -/
theorem walkBits_leafPath (t : Tree) (n : Nat) (h : Handle) (p : List Bool) (q : Byte × List Bool)
    (hq : q ∈ leafPaths t n h p) (rest : List Bool) :
    walkBits t h (q.2.drop p.length ++ rest) = some (q.1, rest) := by
  induction n generalizing h p with
  | zero => simp [leafPaths] at hq
  | succ n ih =>
    simp only [leafPaths] at hq
    split at hq
    · rename_i hk
      simp only [List.mem_singleton] at hq
      rw [hq, List.drop_length, List.nil_append]
      cases rest with
      | nil => simp [walkBits, hk]
      | cons b bs => simp [walkBits, hk]
    · rename_i hk
      have key : ∀ (b : Bool) (g : Handle), q ∈ leafPaths t n g (p ++ [b]) →
          g = (if b then (t.nodeAt h).right else (t.nodeAt h).left) →
          walkBits t h (q.2.drop p.length ++ rest) = some (q.1, rest) := by
        intro b g hg hgb
        have hpre := leafPaths_prefix t n g (p ++ [b]) q hg
        obtain ⟨r, hr⟩ := hpre
        have hd : q.2.drop p.length = b :: q.2.drop (p ++ [b]).length := by
          rw [← hr]; simp
        rw [hd, List.cons_append, walkBits, hk]
        simp only
        rw [← hgb]
        exact ih g (p ++ [b]) hg
      rcases List.mem_append.mp hq with hq | hq
      · exact key false _ hq rfl
      · exact key true _ hq rfl

theorem walkBits_append {t : Tree} {h : Handle} {bits rest more : List Bool} {s : Byte}
    (hw : walkBits t h bits = some (s, rest)) : walkBits t h (bits ++ more) = some (s, rest ++ more) := by
  induction bits generalizing h with
  | nil =>
    rw [walkBits] at hw
    split at hw
    · rename_i hk
      simp only [Option.some.injEq, Prod.mk.injEq] at hw
      obtain ⟨rfl, rfl⟩ := hw
      cases more with
      | nil => simp [walkBits, hk]
      | cons b bs => simp [walkBits, hk]
    · simp at hw
  | cons b bs ih =>
    rw [walkBits] at hw
    rw [List.cons_append, walkBits]
    split at hw
    · simp only [Option.some.injEq, Prod.mk.injEq] at hw
      obtain ⟨rfl, rfl⟩ := hw
      rfl
    · exact ih hw

/-- The traversal itself: it records the leaves under the handle and restores the stack (R150, R155). -/
theorem visit_spec {N : Nat} (n : Nat) (s : State) (hd : s.tree.DescendsBelow N) (h : Handle) (hN : h.val < N)
    (hn : h.val < n) (pat : Pattern) (len : BitVec 8) :
    visit n h pat len s = .ok { s with code := codesUnder s.tree n h pat len s.code } := by
  induction n generalizing s h pat len with
  | zero => omega
  | succ n ih =>
    cases hk : (s.tree.nodeAt h).kind with
    | leaf => simp only [visit, codesUnder, hk]; rfl
    | internal =>
      obtain ⟨hl, hr⟩ := hd h hN hk
      rw [Fin.lt_def] at hl hr
      simp only [visit, codesUnder, hk]
      rw [ih (s.pushFrame _) hd _ (by omega) (by omega), Res.bind_ok]
      exact ih { s with code := codesUnder s.tree n (s.tree.nodeAt h).left (extendPath pat false) (len + 1#8) s.code }
        hd (s.tree.nodeAt h).right (by omega) (by omega) _ _

/-- CG.GEN's body on a valid tree that descends below the root (R150, R151). -/
theorem generateCodes_ok {s : State} (hv : s.treeValid = true) (hd : s.tree.DescendsBelow (s.tree.root.val + 1)) :
    generateCodes s = .ok { s with code := codes s.tree, stack := [] } := by
  have : requireTree s = .ok s := by simp [requireTree, hv]
  rw [generateCodes, this, Res.bind_ok, traverse]
  exact visit_spec 511 { clearCode s with stack := [] } hd s.tree.root (Nat.lt_succ_self _) s.tree.root.isLt _ _

theorem generateCodes_noTree {s : State} (hv : s.treeValid = false) : generateCodes s = .raise .illegalCommand s := by
  simp [generateCodes, requireTree, hv]

/-! ### What the codes of a tree satisfy -/

/-- Under a descending root of bounded height, every recorded path is at most 255 long, at least 1 if the root is
internal. -/
theorem leafPaths_length {t : Tree} {N : Nat} (hd : t.DescendsBelow N) (hN : t.root.val < N)
    (hh : t.height 511 t.root ≤ 255) (hk : (t.nodeAt t.root).kind = .internal) :
    ∀ q ∈ leafPaths t 511 t.root [], 1 ≤ q.2.length ∧ q.2.length ≤ 255 := by
  intro q hq
  have hm : (q.1, q.2.length) ∈ (leafPaths t 511 t.root []).map (fun q => (q.1, q.2.length)) :=
    List.mem_map.mpr ⟨q, hq, rfl⟩
  rw [leafPaths_leaves] at hm
  simp only [List.length_nil, Nat.add_zero] at hm
  obtain ⟨l, hl, he⟩ := List.mem_map.mp hm
  have h1 := (Tree.height_lt_leaves hd t.root hN).2 l hl
  have h2 := Tree.leaves_depth_pos hd hN hk l hl
  have h3 : l.2 = q.2.length := by simpa using congrArg Prod.snd he
  omega

theorem leafPaths_syms (t : Tree) :
    (leafPaths t 511 t.root []).map Prod.fst = (t.leavesUnder 511 t.root).map Prod.fst := by
  have := congrArg (List.map Prod.fst) (leafPaths_leaves t 511 t.root [])
  simpa [List.map_map, Function.comp_def] using this

/-- A symbol's entry is valid exactly when a leaf under the root carries it. -/
theorem codes_valid_iff (t : Tree) (c : Byte) :
    ((codes t).at c).valid = true ↔ c ∈ (t.leavesUnder 511 t.root).map Prod.fst := by
  rw [← leafPaths_syms]
  rcases codes_at t c with ⟨q, h1, h2, h3⟩ | ⟨h1, h2⟩
  · rw [h3]
    simp only [entryOf, true_iff]
    exact List.mem_map.mpr ⟨q, h1, h2⟩
  · rw [h2]
    simp only [Bool.false_eq_true, false_iff]
    intro hm
    obtain ⟨q, hq, he⟩ := List.mem_map.mp hm
    exact h1 q hq he

/-- Two leaves whose paths are prefixes of one another are the same leaf. -/
theorem leafPaths_prefixFree {t : Tree} {q r : Byte × List Bool} (hq : q ∈ leafPaths t 511 t.root [])
    (hr : r ∈ leafPaths t 511 t.root []) (hp : q.2 <+: r.2) : q = r := by
  obtain ⟨m, hm⟩ := hp
  have h1 := walkBits_leafPath t 511 t.root [] q hq m
  have h2 := walkBits_leafPath t 511 t.root [] r hr []
  simp only [List.length_nil, List.drop_zero, List.append_nil] at h1 h2
  rw [hm, h2] at h1
  simp only [Option.some.injEq, Prod.mk.injEq] at h1
  obtain ⟨e1, e2⟩ := h1
  have : q.2 = r.2 := by rw [← hm, ← e2, List.append_nil]
  exact Prod.ext e1.symm this

/-- Kraft's equality over the leaves under a handle (R154). -/
theorem kraft_leafPaths {t : Tree} {N : Nat} (hd : t.DescendsBelow N) (n : Nat) (h : Handle) (hN : h.val < N)
    (hn : h.val < n) (p : List Bool) (m : Nat) (hm : p.length + t.height n h ≤ m) :
    ((leafPaths t n h p).map fun q => 2 ^ (m - q.2.length)).sum = 2 ^ (m - p.length) := by
  induction n generalizing h p with
  | zero => omega
  | succ n ih =>
    cases hk : (t.nodeAt h).kind with
    | leaf => simp [leafPaths, hk]
    | internal =>
      obtain ⟨hl, hr⟩ := hd h hN hk
      rw [Fin.lt_def] at hl hr
      simp only [Tree.height, hk] at hm
      simp only [leafPaths, hk, List.map_append, List.sum_append]
      rw [ih _ (by omega) (by omega) _ (by simp; omega), ih _ (by omega) (by omega) _ (by simp; omega)]
      simp only [List.length_append, List.length_singleton]
      obtain ⟨k, hk'⟩ : ∃ k, m - p.length = k + 1 := ⟨m - p.length - 1, by omega⟩
      rw [show m - (p.length + 1) = k by omega, hk', pow_succ]
      omega

end Sys2Proof.Machine
end

