-- ==== Sys2Proof/Laws/TreeAgree.lean ====
section
/-! SUPPORT. Two trees that agree on what is in use: TB.BUILD leaves such trees whatever it started on, and codes and walks
cannot tell them apart (spec/42_tree_builder.md R131). -/

namespace Sys2Proof.Machine

/-- Agreement on NN, NACT, the active slots in use and the nodes in use. -/
structure TreeAgree (t u : Tree) : Prop where
  nn : t.nn = u.nn
  nact : t.nact = u.nact
  active : ∀ i, i < t.nact.toNat → t.activeAt i = u.activeAt i
  node : ∀ h : Handle, h.val < t.nn.toNat → t.nodeAt h = u.nodeAt h

theorem collect_agree (f : Table U64) (t u : Tree) : TreeAgree (collect f t) (collect f u) := by
  obtain ⟨a1, a2, -, a4, a5⟩ := collect_spec f t
  obtain ⟨b1, b2, -, b4, b5⟩ := collect_spec f u
  refine ⟨BitVec.eq_of_toNat_eq (by rw [a1, b1]), BitVec.eq_of_toNat_eq (by rw [a2, b2]), ?_, ?_⟩
  · intro i hi
    rw [a2] at hi
    rw [a5, b5, if_pos hi, if_pos hi]
  · intro h hh
    rw [a1] at hh
    rw [a4, b4, dif_pos hh, dif_pos hh]

/-- One pass on trees that agree, every active handle being in use. -/
theorem TreeAgree.pass {t u : Tree} (h : TreeAgree t u) (h2 : 2 ≤ t.nact.toNat) (hn : t.nact.toNat ≤ 256)
    (hnn : t.nn.toNat < 511) (hb : ∀ i, i < t.nact.toNat → (t.activeAt i).val < t.nn.toNat) :
    TreeAgree (mergePass t) (mergePass u) := by
  have hw : ∀ i, i < t.nact.toNat → t.weightAt i = u.weightAt i := fun i hi => by
    rw [Tree.weightAt, Tree.weightAt, h.node _ (hb i hi), h.active i hi]
  have hnact : t.nact.toNat = u.nact.toNat := by rw [h.nact]
  obtain ⟨p1, p2, -, p4, p5⟩ := mergePass_spec h2 hn hnn
  obtain ⟨q1, q2, -, q4, q5⟩ := mergePass_spec (t := u) (by omega) (by omega) (by rw [← h.nn]; exact hnn)
  obtain ⟨f1, f2, f3⟩ := firstMin_spec (t := t) (by omega)
  obtain ⟨g1, g2, g3⟩ := firstMin_spec (t := u) (by omega)
  have hm1 : firstMin t = firstMin u := by
    rcases Nat.lt_trichotomy (firstMin t) (firstMin u) with hlt | heq | hgt
    · have x1 := g3 _ hlt
      have x2 := f2 (firstMin u) (by omega)
      rw [hw _ f1, hw _ (by omega)] at x2
      omega
    · exact heq
    · have x1 := f3 _ hgt
      have x2 := g2 (firstMin t) (by omega)
      rw [hw _ f1, hw _ (by omega)] at x1
      omega
  obtain ⟨s1, s2, s3, s4⟩ := secondMin_spec (m1 := firstMin t) h2
  obtain ⟨r1, r2, r3, r4⟩ := secondMin_spec (t := u) (m1 := firstMin t) (by omega)
  have hm2 : secondMin t (firstMin t) = secondMin u (firstMin t) := by
    rcases Nat.lt_trichotomy (secondMin t (firstMin t)) (secondMin u (firstMin t)) with hlt | heq | hgt
    · have x1 := r4 _ hlt s2
      have x2 := s3 (secondMin u (firstMin t)) (by omega) r2
      rw [hw _ s1, hw _ (by omega)] at x2
      omega
    · exact heq
    · have x1 := s4 _ hgt r2
      have x2 := r3 (secondMin t (firstMin t)) (by omega) s2
      rw [hw _ s1, hw _ (by omega)] at x1
      omega
  rw [← hm1, ← hm2] at q4 q5
  set m1 := firstMin t
  set m2 := secondMin t m1
  have hal : t.activeList = u.activeList := by
    rw [Tree.activeList, Tree.activeList, ← h.nact]
    exact List.map_congr_left fun i hi => h.active i (List.mem_range.mp hi)
  have hal' : (mergePass t).activeList = (mergePass u).activeList := by rw [p5, q5, hal, h.nn]
  have hnact' : (mergePass t).nact.toNat = (mergePass u).nact.toNat := by omega
  refine ⟨BitVec.eq_of_toNat_eq (by rw [p1, q1, h.nn]), BitVec.eq_of_toNat_eq hnact', ?_, ?_⟩
  · intro i hi
    have h1 : i < (mergePass t).activeList.length := by rw [Tree.length_activeList]; exact hi
    have h3 : i < (mergePass u).activeList.length := by rw [Tree.length_activeList]; omega
    rw [← Tree.getElem_activeList _ i h1, ← Tree.getElem_activeList _ i h3]
    simp only [hal']
  · intro g hg
    rw [p4, q4, ← h.nn]
    split_ifs with hgn
    · rw [h.active _ f1, h.active _ s1, hw _ f1, hw _ s1]
    · exact h.node g (by omega)

theorem iterate_agree {f : Table U64} (t u : Tree) (h : 1 < (occurring f).length) (k : Nat)
    (hk : k < (occurring f).length) :
    TreeAgree (Nat.repeat mergePass k (collect f t)) (Nat.repeat mergePass k (collect f u)) := by
  induction k with
  | zero => exact collect_agree f t u
  | succ k ih =>
    have hle := length_occurring_le f
    obtain ⟨-, c2, -⟩ := collect_spec f t
    obtain ⟨i1, i2⟩ := (MergeInv.ofCollect (t0 := t) (f := f) (by omega)).iterate k (by omega)
    have hs := i1.sum
    refine (ih (by omega)).pass (by omega) (by omega) (by omega) ?_
    intro i hi
    exact i1.below _ (List.mem_map.mpr ⟨i, List.mem_range.mpr hi, rfl⟩)

/-- Whatever tree state TB.BUILD finds, it ends alike (R131). -/
theorem buildOver_agree (f : Table U64) (t u : Tree) :
    TreeAgree (buildOver f t).2 (buildOver f u).2 ∧ (buildOver f t).2.root = (buildOver f u).2.root := by
  rcases Nat.lt_trichotomy (occurring f).length 1 with h | h | h
  · have h0 : occurring f = [] := List.length_eq_zero_iff.mp (by omega)
    rw [buildOver_empty t h0, buildOver_empty u h0]
    refine ⟨⟨rfl, rfl, ?_, ?_⟩, rfl⟩
    · intro i hi; exact absurd hi (by simp)
    · intro i hi; exact absurd hi (by simp)
  · obtain ⟨c, hc⟩ := List.length_eq_one_iff.mp h
    rw [buildOver_one t h, buildOver_one u h]
    obtain ⟨a0, a1, a2, an, ar, aa, aact, -⟩ := degenerate_spec t hc
    obtain ⟨b0, b1, b2, bn, br, ba, bact, -⟩ := degenerate_spec u hc
    refine ⟨⟨by rw [an, bn], by rw [aa, ba], ?_, ?_⟩, by rw [ar, br]⟩
    · intro i hi
      have hi' : i < 1 := by
        have h1 : (degenerate (collect f t)).nact.toNat = 1 := by rw [aa]; rfl
        have h2 : i < (degenerate (collect f t)).nact.toNat := hi
        omega
      obtain rfl : i = 0 := by omega
      rw [Tree.activeAt_zero, Tree.activeAt_zero, aact, bact]
    · intro g hg
      have h3 : (degenerate (collect f t)).nn.toNat = 3 := by rw [an]; rfl
      have h4 : g.val < (degenerate (collect f t)).nn.toNat := hg
      rcases (by omega : g.val = 0 ∨ g.val = 1 ∨ g.val = 2) with e | e | e
      · rw [show g = 0 from Fin.ext e, a0, b0]
      · rw [show g = 1 from Fin.ext e, a1, b1]
      · rw [show g = 2 from Fin.ext e, a2, b2]
  · rw [buildOver_many t h, buildOver_many u h]
    have ha := iterate_agree t u h ((occurring f).length - 1) (by omega)
    obtain ⟨-, c2, -⟩ := collect_spec f t
    obtain ⟨-, i2⟩ := (MergeInv.ofCollect (t0 := t) (f := f) (by omega)).iterate ((occurring f).length - 1) (by omega)
    have h0 := ha.active 0 (by omega)
    exact ⟨⟨ha.nn, ha.nact, ha.active, ha.node⟩, h0⟩

/-! ### Codes and walks see only the nodes under the root -/

theorem leafPaths_congr {t u : Tree} {N : Nat} (hd : t.DescendsBelow N)
    (he : ∀ g : Handle, g.val < N → u.nodeAt g = t.nodeAt g) (n : Nat) (h : Handle) (hN : h.val < N) (p : List Bool) :
    leafPaths u n h p = leafPaths t n h p := by
  induction n generalizing h p with
  | zero => rfl
  | succ n ih =>
    cases hk : (t.nodeAt h).kind with
    | leaf => simp only [leafPaths, he h hN, hk]
    | internal =>
      obtain ⟨hl, hr⟩ := hd h hN hk
      rw [Fin.lt_def] at hl hr
      simp only [leafPaths, he h hN, hk]
      rw [ih _ (by omega), ih _ (by omega)]

theorem walkBits_congr {t u : Tree} {N : Nat} (hd : t.DescendsBelow N)
    (he : ∀ g : Handle, g.val < N → u.nodeAt g = t.nodeAt g) (h : Handle) (hN : h.val < N) (bits : List Bool) :
    walkBits u h bits = walkBits t h bits := by
  induction bits generalizing h with
  | nil => simp only [walkBits, he h hN]
  | cons b bs ih =>
    cases hk : (t.nodeAt h).kind with
    | leaf => simp only [walkBits, he h hN, hk]
    | internal =>
      obtain ⟨hl, hr⟩ := hd h hN hk
      rw [Fin.lt_def] at hl hr
      simp only [walkBits, he h hN, hk]
      exact ih _ (by split <;> omega)

theorem decodeBits_congr {t u : Tree} {N : Nat} (hd : t.DescendsBelow N)
    (he : ∀ g : Handle, g.val < N → u.nodeAt g = t.nodeAt g) (hr : u.root = t.root) (hN : t.root.val < N) (n : Nat)
    (bits : List Bool) : decodeBits u n bits = decodeBits t n bits := by
  induction n generalizing bits with
  | zero => rfl
  | succ n ih =>
    simp only [decodeBits, hr, walkBits_congr hd he _ hN]
    cases walkBits t t.root bits with
    | none => rfl
    | some q => simp only [ih]

theorem bitsAfter_congr {t u : Tree} {N : Nat} (hd : t.DescendsBelow N)
    (he : ∀ g : Handle, g.val < N → u.nodeAt g = t.nodeAt g) (hr : u.root = t.root) (hN : t.root.val < N) (n : Nat)
    (bits : List Bool) : bitsAfter u n bits = bitsAfter t n bits := by
  induction n generalizing bits with
  | zero => rfl
  | succ n ih =>
    simp only [bitsAfter, hr, walkBits_congr hd he _ hN]
    cases walkBits t t.root bits with
    | none => rfl
    | some q => simp only [ih]

/-- The codes of the tree TB.BUILD leaves are those of the pure `build` (R131, R151). -/
theorem codes_buildOver {f : Table U64} (t : Tree) (h : occurring f ≠ []) :
    codes (buildOver f t).2 = codes (build f).2 := by
  have hb := buildOver_built Tree.reset h
  obtain ⟨ha, hr⟩ := buildOver_agree f Tree.reset t
  have hN : (buildOver f Tree.reset).2.root.val < (buildOver f Tree.reset).2.nn.toNat := by have := hb.nnRoot; omega
  have e := leafPaths_congr (u := (buildOver f t).2) hb.descends (fun g hg => (ha.node g hg).symm) 511 _ hN []
  rw [codes_eq, codes_eq, build, ← hr, e]

theorem decodeBits_buildOver {f : Table U64} (t : Tree) (h : occurring f ≠ []) (n : Nat) (bits : List Bool) :
    decodeBits (buildOver f t).2 n bits = decodeBits (build f).2 n bits := by
  have hb := buildOver_built Tree.reset h
  obtain ⟨ha, hr⟩ := buildOver_agree f Tree.reset t
  exact decodeBits_congr hb.descends (fun g hg => (ha.node g hg).symm) hr.symm (by have := hb.nnRoot; omega) n bits

theorem bitsAfter_buildOver {f : Table U64} (t : Tree) (h : occurring f ≠ []) (n : Nat) (bits : List Bool) :
    bitsAfter (buildOver f t).2 n bits = bitsAfter (build f).2 n bits := by
  have hb := buildOver_built Tree.reset h
  obtain ⟨ha, hr⟩ := buildOver_agree f Tree.reset t
  exact bitsAfter_congr hb.descends (fun g hg => (ha.node g hg).symm) hr.symm (by have := hb.nnRoot; omega) n bits

end Sys2Proof.Machine
end

