-- ==== Sys2Proof/Laws/Writer.lean ====
section
/-! SUPPORT. What the bit-stream writer can do: bits pending in ACC, whole bytes emitted, the padded last byte
(spec/44_bitstream_writer.md R160 to R165). -/

namespace Sys2Proof.Machine

/-- The number a bit string of at most eight bits reads as, its first bit most significant. -/
def valOf (l : List Bool) : Byte := l.foldl shiftIn 0#8

@[simp] theorem valOf_nil : valOf [] = 0#8 := rfl

theorem valOf_snoc (l : List Bool) (b : Bool) : valOf (l ++ [b]) = shiftIn (valOf l) b := by
  simp [valOf, List.foldl_append]

/-- The writer holds exactly the bits `p`, oldest first (R36). -/
def State.Pending (s : State) (p : List Bool) : Prop :=
  p.length < 8 ∧ s.acc = valOf p ∧ s.nbits = BitVec.ofNat 3 p.length

/-- The whole bytes of a bit string; the bits after the last whole byte are left out. -/
def wholeBytes (l : List Bool) : List Byte := (List.range (l.length / 8)).map (packByte l)

/-- The bits after the last whole byte. -/
def tailBits (l : List Bool) : List Bool := l.drop (8 * (l.length / 8))

theorem length_wholeBytes (l : List Bool) : (wholeBytes l).length = l.length / 8 := by simp [wholeBytes]

theorem length_pack (l : List Bool) : (pack l).length = (l.length + 7) / 8 := by simp [pack]

theorem length_tailBits (l : List Bool) : (tailBits l).length = l.length % 8 := by
  simp [tailBits]; omega

theorem packByte_zero {l1 : List Bool} (h : l1.length = 8) (l2 : List Bool) : packByte (l1 ++ l2) 0 = valOf l1 := by
  obtain ⟨a, b, c, d, e, f, g, i, rfl⟩ : ∃ a b c d e f g i, l1 = [a, b, c, d, e, f, g, i] := by
    match l1, h with
    | [a, b, c, d, e, f, g, i], _ => exact ⟨a, b, c, d, e, f, g, i, rfl⟩
  rfl

theorem packByte_succ {l1 : List Bool} (h : l1.length = 8) (l2 : List Bool) (j : Nat) :
    packByte (l1 ++ l2) (j + 1) = packByte l2 j := by
  have : ∀ i, (l1 ++ l2).getD (8 * (j + 1) + i) false = l2.getD (8 * j + i) false := by
    intro i
    rw [List.getD_append_right _ _ _ _ (by omega), h]
    congr 1; omega
  simp only [packByte, this]

theorem wholeBytes_cons {l1 : List Bool} (h : l1.length = 8) (l2 : List Bool) :
    wholeBytes (l1 ++ l2) = valOf l1 :: wholeBytes l2 := by
  have : (l1 ++ l2).length / 8 = l2.length / 8 + 1 := by rw [List.length_append]; omega
  rw [wholeBytes, wholeBytes, this, List.range_succ_eq_map]
  simp [packByte_zero h, packByte_succ h, Function.comp_def]

theorem pack_cons {l1 : List Bool} (h : l1.length = 8) (l2 : List Bool) : pack (l1 ++ l2) = valOf l1 :: pack l2 := by
  have : ((l1 ++ l2).length + 7) / 8 = (l2.length + 7) / 8 + 1 := by rw [List.length_append]; omega
  rw [pack, pack, this, List.range_succ_eq_map]
  simp [packByte_zero h, packByte_succ h, Function.comp_def]

theorem tailBits_cons {l1 : List Bool} (h : l1.length = 8) (l2 : List Bool) : tailBits (l1 ++ l2) = tailBits l2 := by
  have : 8 * ((l1 ++ l2).length / 8) = l1.length + 8 * (l2.length / 8) := by rw [List.length_append]; omega
  rw [tailBits, this, List.drop_append, tailBits]
  simp [h]

theorem wholeBytes_short {l : List Bool} (h : l.length < 8) : wholeBytes l = [] := by
  simp [wholeBytes, Nat.div_eq_of_lt h]

theorem tailBits_short {l : List Bool} (h : l.length < 8) : tailBits l = l := by
  simp [tailBits, Nat.div_eq_of_lt h]

@[simp] theorem pack_nil : pack [] = [] := rfl

/-- A group of 1 to 7 bits is one byte, zero-padded below (R105, R162). -/
theorem pack_short {l : List Bool} (h : l.length < 8) (hp : l ≠ []) : pack l = [padded (valOf l) l.length] := by
  match l, h, hp with
  | [a], _, _ =>
    exact (by decide +kernel : ∀ a : Bool, pack [a] = [padded (valOf [a]) 1]) a
  | [a, b], _, _ =>
    exact (by decide +kernel : ∀ a b : Bool, pack [a, b] = [padded (valOf [a, b]) 2]) a b
  | [a, b, c], _, _ =>
    exact (by decide +kernel : ∀ a b c : Bool, pack [a, b, c] = [padded (valOf [a, b, c]) 3]) a b c
  | [a, b, c, d], _, _ =>
    exact (by decide +kernel : ∀ a b c d : Bool, pack [a, b, c, d] = [padded (valOf [a, b, c, d]) 4]) a b c d
  | [a, b, c, d, e], _, _ =>
    exact (by decide +kernel : ∀ a b c d e : Bool, pack [a, b, c, d, e] = [padded (valOf [a, b, c, d, e]) 5]) a b c d e
  | [a, b, c, d, e, f], _, _ =>
    exact (by decide +kernel : ∀ a b c d e f : Bool, pack [a, b, c, d, e, f] = [padded (valOf [a, b, c, d, e, f]) 6]) a b c d e f
  | [a, b, c, d, e, f, g], _, _ =>
    exact (by decide +kernel : ∀ a b c d e f g : Bool, pack [a, b, c, d, e, f, g] = [padded (valOf [a, b, c, d, e, f, g]) 7]) a b c d e f g

/-- Packing is the whole bytes followed by the padded rest. -/
theorem pack_eq (l : List Bool) :
    pack l = wholeBytes l ++ (if tailBits l = [] then [] else [padded (valOf (tailBits l)) (tailBits l).length]) := by
  induction hn : l.length / 8 generalizing l with
  | zero =>
    have hlt : l.length < 8 := by omega
    rw [wholeBytes_short hlt, tailBits_short hlt]
    split_ifs with he
    · subst he; rfl
    · simpa using pack_short hlt he
  | succ n ih =>
    obtain ⟨l1, l2, rfl, h8⟩ : ∃ l1 l2, l = l1 ++ l2 ∧ l1.length = 8 :=
      ⟨l.take 8, l.drop 8, (List.take_append_drop 8 l).symm, by simp; omega⟩
    rw [pack_cons h8, wholeBytes_cons h8, tailBits_cons h8, ih l2 (by rw [List.length_append] at hn; omega)]
    simp

/-! ### The procedures -/

/-- Appending does not look at the writer. -/
theorem State.setWriter_appendAll (s : State) (a : Byte) (n : BitVec 3) (bs : List Byte) :
    (s.setWriter a n).appendAll bs = (s.appendAll bs).setWriter a n := by
  induction bs generalizing s with
  | nil => rfl
  | cons b bs ih => exact ih (s.append b)

theorem State.Pending.nbits_toNat {s : State} {p : List Bool} (h : s.Pending p) : s.nbits.toNat = p.length := by
  rw [h.2.2]; simp; exact h.1

/-- Every writer holds some bits, when ACC has none above NBITS (R165). -/
theorem State.exists_pending {s : State} (h : s.acc.toNat < 2 ^ s.nbits.toNat) : ∃ p, s.Pending p := by
  have key : ∀ (n : BitVec 3) (a : Byte), a.toNat < 2 ^ n.toNat →
      a = valOf ((List.range n.toNat).map fun k => a.getLsbD (n.toNat - 1 - k)) := by decide +kernel
  refine ⟨(List.range s.nbits.toNat).map fun k => s.acc.getLsbD (s.nbits.toNat - 1 - k), ?_, key _ _ h, ?_⟩
  · simpa using s.nbits.isLt
  · simp

/-- The value of fewer than eight bits lies below the power of their number. -/
theorem valOf_lt (l : List Bool) (h : l.length ≤ 8) : (valOf l).toNat < 2 ^ l.length := by
  induction l using List.reverseRecOn with
  | nil => simp
  | append_singleton l b ih =>
    rw [List.length_append, List.length_singleton] at h ⊢
    have := ih (by omega)
    rw [valOf_snoc, shiftIn]
    have hp : (2 : Nat) ^ (l.length + 1) = 2 * 2 ^ l.length := by ring
    have hle : (2 : Nat) ^ l.length ≤ 2 ^ 7 := Nat.pow_le_pow_right (by norm_num) (by omega)
    have hor : (valOf l <<< 1 ||| (BitVec.ofBool b).setWidth 8) = valOf l <<< 1 + (BitVec.ofBool b).setWidth 8 := by
      generalize valOf l = v; revert v b; decide +kernel
    have hb : ((BitVec.ofBool b).setWidth 8).toNat ≤ 1 := by cases b <;> decide
    rw [hor, BitVec.toNat_add, BitVec.toNat_shiftLeft, Nat.shiftLeft_eq]
    omega

theorem State.Pending.writer {s : State} {p : List Bool} (h : s.Pending p) : s.acc.toNat < 2 ^ s.nbits.toNat := by
  rw [h.nbits_toNat, h.2.1]; exact valOf_lt p (by have := h.1; omega)

theorem State.clearWriter_pending (s : State) : s.clearWriter.Pending [] := ⟨by simp, rfl, rfl⟩

/-- `write_bit` with fewer than seven bits pending (R160). -/
theorem writeBit_short {s : State} {p : List Bool} (hp : s.Pending p) (h : p.length < 7) (b : Bool) :
    writeBit b s = .ok (s.setWriter (valOf (p ++ [b])) (BitVec.ofNat 3 (p.length + 1))) := by
  unfold writeBit
  simp only [hp.nbits_toNat]
  rw [if_neg (by omega), hp.2.1, valOf_snoc]

/-- `write_bit` at the eighth bit (R160). -/
theorem writeBit_full {s : State} {p : List Bool} (hp : s.Pending p) (h : p.length = 7) (b : Bool) :
    writeBit b s = (emit (valOf (p ++ [b])) s).bind fun s => .ok s.clearWriter := by
  unfold writeBit
  simp only [hp.nbits_toNat]
  rw [if_pos (by omega), hp.2.1, valOf_snoc]

/-- Writing a bit string: the whole bytes of what was pending and what is written are appended, the rest stays pending,
and nothing else changes (R160, R161). -/
theorem writeBits_ok {bits : List Bool} {s : State} {p : List Bool} (hp : s.Pending p)
    (h : s.olen.toNat + (p.length + bits.length) / 8 ≤ s.obufCap.toNat) :
    writeBits bits s = .ok ((s.appendAll (wholeBytes (p ++ bits))).setWriter
      (valOf (tailBits (p ++ bits))) (BitVec.ofNat 3 (tailBits (p ++ bits)).length)) := by
  induction bits generalizing s p with
  | nil =>
    simp only [List.append_nil, wholeBytes_short hp.1, tailBits_short hp.1, State.appendAll_nil, writeBits]
    rw [← hp.2.1, ← hp.2.2]; rfl
  | cons b bs ih =>
    have hl := hp.1
    simp only [List.length_cons] at h
    rw [writeBits]
    by_cases h7 : p.length = 7
    · have h8 : (p ++ [b]).length = 8 := by simp [h7]
      have hcap : s.olen.toNat < s.obufCap.toNat := by omega
      rw [writeBit_full hp h7, emit_ok hcap, Res.bind_ok, Res.bind_ok,
        ih (State.clearWriter_pending _) (by
          rw [State.clearWriter_olen, State.clearWriter_obufCap, State.append_olen_toNat _ hcap,
            State.append_obufCap]
          simp only [List.length_nil]; omega)]
      rw [show p ++ b :: bs = (p ++ [b]) ++ bs by simp, wholeBytes_cons h8, tailBits_cons h8]
      simp only [List.nil_append, State.appendAll_cons]
      rw [State.clearWriter, State.setWriter_appendAll]
      rfl
    · rw [writeBit_short hp (by omega), Res.bind_ok,
        ih (p := p ++ [b]) ⟨by simp; omega, rfl, by simp⟩ (by
          simp only [State.setWriter_olen, State.setWriter_obufCap, List.length_append, List.length_singleton]
          have : p.length + 1 + bs.length = p.length + (bs.length + 1) := by omega
          rw [this]; exact h)]
      rw [List.append_assoc, List.singleton_append]
      rw [State.setWriter_appendAll]
      rfl

/-- Writing a bit string that does not fit is refused (R62, U6). -/
theorem writeBits_full {bits : List Bool} {s : State} {p : List Bool} (hp : s.Pending p)
    (hl : s.olen.toNat ≤ s.obufCap.toNat) (h : s.obufCap.toNat < s.olen.toNat + (p.length + bits.length) / 8) :
    writeBits bits s = .refused .obufFull := by
  induction bits generalizing s p with
  | nil => have := hp.1; simp only [List.length_nil] at h; omega
  | cons b bs ih =>
    have hlt := hp.1
    simp only [List.length_cons] at h
    rw [writeBits]
    by_cases h7 : p.length = 7
    · rw [writeBit_full hp h7]
      rcases emit_cases (valOf (p ++ [b])) s with ⟨hc, he⟩ | ⟨hc, he⟩
      · have hol := State.append_olen_toNat (valOf (p ++ [b])) hc
        rw [he, Res.bind_ok, Res.bind_ok]
        exact ih (State.clearWriter_pending _) (by simp only [State.clearWriter_olen, State.clearWriter_obufCap, State.append_obufCap]; omega)
          (by simp only [State.clearWriter_olen, State.clearWriter_obufCap, State.append_obufCap, List.length_nil]; omega)
      · rw [he]; rfl
    · rw [writeBit_short hp (by omega), Res.bind_ok]
      exact ih (p := p ++ [b]) ⟨by simp; omega, rfl, by simp⟩ hl (by
          simp only [State.setWriter_olen, State.setWriter_obufCap, List.length_append, List.length_singleton]
          have : p.length + 1 + bs.length = p.length + (bs.length + 1) := by omega
          rw [this]; exact h)

/-- Flush with nothing pending emits nothing (R162). -/
theorem flush_empty {s : State} (h : s.nbits = 0#3) : flush s = .ok s := by simp [flush, h]

/-- Flush with bits pending appends them as one padded byte (R162). -/
theorem flush_ok {s : State} {p : List Bool} (hp : s.Pending p) (hne : p ≠ [])
    (h : s.olen.toNat < s.obufCap.toNat) :
    flush s = .ok (s.append (padded (valOf p) p.length)).clearWriter := by
  have : s.nbits ≠ 0#3 := by
    intro e
    have h0 := hp.nbits_toNat
    rw [e] at h0
    exact hne (List.length_eq_zero_iff.mp (by simpa using h0.symm))
  rw [flush, if_neg this, hp.nbits_toNat, hp.2.1, emit_ok h]
  rfl

end Sys2Proof.Machine
end

