-- ==== Sys2Proof/Laws/Encoder.lean ====
section
/-! SUPPORT. What the encoder's steps do, in terms of the bits written (spec/47_sequencer.md R190 to R193, R197). -/

namespace Sys2Proof.Machine

/-! ### Each step of the writer: what is appended, and that only OBUF, OLEN, ACC, NBITS differ -/

/-- From `s` to `t` only OBUF, OLEN, ACC and NBITS differ. -/
def SameButWriter (s t : State) : Prop :=
  t = { s with obuf := t.obuf, olen := t.olen, acc := t.acc, nbits := t.nbits }

theorem SameButWriter.refl (s : State) : SameButWriter s s := rfl

theorem SameButWriter.trans {s t u : State} (h1 : SameButWriter s t) (h2 : SameButWriter t u) : SameButWriter s u := by
  unfold SameButWriter at *
  rw [h2, h1]

theorem State.appendAll_same (s : State) (bs : List Byte) : SameButWriter s (s.appendAll bs) := by
  have hn : ∀ (s : State), (s.appendAll bs).acc = s.acc ∧ (s.appendAll bs).nbits = s.nbits := by
    induction bs with
    | nil => intro s; exact ⟨rfl, rfl⟩
    | cons b bs ih => intro s; exact ih (s.append b)
  unfold SameButWriter
  rw [(hn s).1, (hn s).2]
  exact State.appendAll_eq s bs

theorem SameButWriter.ibufByte {s t : State} (h : SameButWriter s t) (a : Nat) : ibufByte t a = ibufByte s a := by
  rw [h]; rfl

theorem SameButWriter.code {s t : State} (h : SameButWriter s t) : t.code = s.code := by rw [h]
theorem SameButWriter.eidx {s t : State} (h : SameButWriter s t) : t.eidx = s.eidx := by rw [h]
theorem SameButWriter.obufCap {s t : State} (h : SameButWriter s t) : t.obufCap = s.obufCap := by rw [h]

theorem emitAll_stage {s : State} {bs : List Byte} (h : s.olen.toNat + bs.length ≤ s.obufCap.toNat) :
    ∃ t, emitAll bs s = .ok t ∧ Appended s t bs ∧ SameButWriter s t ∧ t.acc = s.acc ∧ t.nbits = s.nbits := by
  refine ⟨s.appendAll bs, emitAll_ok h, State.appendAll_appended h, State.appendAll_same s bs, ?_, ?_⟩ <;>
  · rw [State.appendAll_eq]

/-- Writing bits, with the writer holding `p` (R161). -/
theorem writeBits_stage {s : State} {p : List Bool} (hp : s.Pending p) (bits : List Bool)
    (h : s.olen.toNat + (p.length + bits.length) / 8 ≤ s.obufCap.toNat) :
    ∃ t, writeBits bits s = .ok t ∧ Appended s t (wholeBytes (p ++ bits)) ∧ t.Pending (tailBits (p ++ bits)) ∧
      SameButWriter s t := by
  have hl : (wholeBytes (p ++ bits)).length = (p.length + bits.length) / 8 := by
    rw [length_wholeBytes, List.length_append]
  refine ⟨_, writeBits_ok hp h, ?_, ?_, ?_⟩
  · exact State.appendAll_appended (by rw [hl]; exact h)
  · refine ⟨?_, rfl, rfl⟩
    rw [length_tailBits]; omega
  · exact (State.appendAll_same s _).trans rfl

/-- Flushing, with the writer holding `p` (R162). -/
theorem flush_stage {s : State} {p : List Bool} (hp : s.Pending p)
    (h : s.olen.toNat + (if p = [] then 0 else 1) ≤ s.obufCap.toNat) :
    ∃ t, flush s = .ok t ∧ Appended s t (if p = [] then [] else [padded (valOf p) p.length]) ∧ t.Pending [] ∧
      SameButWriter s t := by
  by_cases hne : p = []
  · subst hne
    refine ⟨s, flush_empty ?_, ⟨by simp, by simp, by simp⟩, hp, .refl s⟩
    rw [hp.2.2]; rfl
  · rw [if_neg hne] at h ⊢
    refine ⟨_, flush_ok hp hne (by omega), ?_, State.clearWriter_pending _, rfl⟩
    exact State.appendAll_appended (bs := [padded (valOf p) p.length]) (by simpa using h)

/-- Flushing with bits pending and no room is refused. -/
theorem flush_full {s : State} {p : List Bool} (hp : s.Pending p) (hne : p ≠ [])
    (h : s.obufCap.toNat ≤ s.olen.toNat) : flush s = .refused .obufFull := by
  have : s.nbits ≠ 0#3 := by
    intro e
    have h0 := hp.nbits_toNat
    rw [e] at h0
    exact hne (List.length_eq_zero_iff.mp (by simpa using h0.symm))
  rw [flush, if_neg this, emit_full h, Res.bind_refused]

/-- Whatever the state, writing bits ends well, changing the writer and the output only, or is refused. -/
theorem writeBits_cases (bits : List Bool) (s : State) :
    (∃ t, writeBits bits s = .ok t ∧ SameButWriter s t) ∨ writeBits bits s = .refused .obufFull := by
  induction bits generalizing s with
  | nil => exact .inl ⟨s, rfl, .refl s⟩
  | cons b bs ih =>
    have h1 : (∃ t, writeBit b s = .ok t ∧ SameButWriter s t) ∨ writeBit b s = .refused .obufFull := by
      unfold writeBit
      simp only
      split_ifs with h
      · rcases emit_cases (shiftIn s.acc b) s with ⟨-, he⟩ | ⟨-, he⟩
        · rw [he, Res.bind_ok]; exact .inl ⟨_, rfl, rfl⟩
        · rw [he, Res.bind_refused]; exact .inr rfl
      · exact .inl ⟨_, rfl, rfl⟩
    rcases h1 with ⟨t, ht, hs⟩ | hr
    · rw [writeBits, ht, Res.bind_ok]
      rcases ih t with ⟨u, hu, hsu⟩ | hu
      · exact .inl ⟨u, hu, hs.trans hsu⟩
      · exact .inr hu
    · rw [writeBits, hr, Res.bind_refused]; exact .inr rfl

theorem writeBits_append (a b : List Bool) (s : State) :
    writeBits (a ++ b) s = (writeBits a s).bind (writeBits b) := by
  induction a generalizing s with
  | nil => rfl
  | cons x a ih =>
    rw [List.cons_append, writeBits, writeBits, Res.bind_assoc]
    congr 1
    funext t
    exact ih t

/-- Writing does not see EIDX. -/
theorem writeBits_eidx (bits : List Bool) (s : State) (e : U64) :
    writeBits bits { s with eidx := e } = (writeBits bits s).bind fun t => .ok { t with eidx := e } := by
  induction bits generalizing s with
  | nil => rfl
  | cons b bs ih =>
    have h1 : writeBit b { s with eidx := e } = (writeBit b s).bind fun t => .ok { t with eidx := e } := by
      unfold writeBit
      simp only
      split_ifs with h
      · unfold emit
        simp only
        split_ifs <;> rfl
      · rfl
    rw [writeBits, h1, writeBits, Res.bind_assoc, Res.bind_assoc]
    congr 1
    funext t
    rw [Res.bind_ok]
    exact ih t

/-! ### ENC.SYM's body and the loop -/

theorem encodeSymbol_valid {s : State} {c : Byte} (hv : (s.code.at c).valid = true) (hl : (s.code.at c).len ≠ 0#8) :
    encodeSymbol c s = writeBits (s.code.at c).bits s := by
  simp [encodeSymbol, hv, hl]

theorem encodeSymbol_invalid {s : State} {c : Byte} (h : (s.code.at c).valid = false ∨ (s.code.at c).len = 0#8) :
    encodeSymbol c s = .raise .invalidCode s := by
  simp [encodeSymbol, h]

/-- The loop of step 5 over valid symbols writes their codes one after the other (R193, R103). -/
theorem encodeLoop_eq (n : Nat) (s : State) (hw : s.eidx.toNat + n < 2 ^ 64)
    (hv : ∀ i, i < n → (s.code.at (ibufByte s (s.eidx.toNat + i))).valid = true ∧
      (s.code.at (ibufByte s (s.eidx.toNat + i))).len ≠ 0#8) :
    encodeLoop n s =
      (writeBits (bodyBits s.code ((List.range n).map fun i => ibufByte s (s.eidx.toNat + i))) s).bind
        fun t => .ok { t with eidx := s.eidx + BitVec.ofNat 64 n } := by
  induction n generalizing s with
  | zero =>
    simp only [encodeLoop, List.range_zero, List.map_nil, bodyBits, List.flatMap_nil, writeBits, Res.bind_ok]
    rw [show s.eidx + BitVec.ofNat 64 0 = s.eidx by simp]
  | succ n ih =>
    obtain ⟨hv0, hl0⟩ := hv 0 (by omega)
    rw [Nat.add_zero] at hv0 hl0
    have hb : bodyBits s.code ((List.range (n + 1)).map fun i => ibufByte s (s.eidx.toNat + i)) =
        (s.code.at (ibufByte s s.eidx.toNat)).bits ++
          bodyBits s.code ((List.range n).map fun i => ibufByte s (s.eidx.toNat + 1 + i)) := by
      rw [List.range_succ_eq_map, List.map_cons, bodyBits, List.flatMap_cons, Nat.add_zero, List.map_map, bodyBits]
      congr 2
      apply List.map_congr_left
      intro i _
      show ibufByte s (s.eidx.toNat + (i + 1)) = _
      congr 1; omega
    rw [encodeLoop, encodeSymbol_valid hv0 hl0, hb, writeBits_append, Res.bind_assoc]
    rcases writeBits_cases (s.code.at (ibufByte s s.eidx.toNat)).bits s with ⟨t, ht, hs⟩ | hr
    · rw [ht, Res.bind_ok, Res.bind_ok]
      have he : (t.eidx + 1#64).toNat = s.eidx.toNat + 1 := by
        rw [hs.eidx, BitVec.toNat_add]; simp; omega
      obtain ⟨u, hu⟩ : ∃ u : State, u = { t with eidx := t.eidx + 1#64 } := ⟨_, rfl⟩
      have hib : ∀ a, ibufByte u a = ibufByte s a := fun a => by rw [hu]; exact hs.ibufByte a
      have hue : u.eidx = s.eidx + 1#64 := by rw [hu, hs.eidx]
      have huc : u.code = s.code := by rw [hu]; exact hs.code
      have hun : u.eidx.toNat = s.eidx.toNat + 1 := by rw [hu]; exact he
      rw [← hu, ih u (by omega) fun i hi => by
        have := hv (i + 1) (by omega)
        rw [hib, hun, huc]
        rw [show s.eidx.toNat + (i + 1) = s.eidx.toNat + 1 + i by omega] at this
        exact this]
      simp only [hib, huc, hun]
      rw [hue, hu, writeBits_eidx, Res.bind_assoc, show s.eidx + 1#64 + BitVec.ofNat 64 n = s.eidx + BitVec.ofNat 64 (n + 1) by
        rw [Nat.add_comm n 1, BitVec.ofNat_add, BitVec.add_assoc]]
      rfl
    · rw [hr, Res.bind_refused, Res.bind_refused]

end Sys2Proof.Machine
end

