-- ==== Sys2Proof/Laws/Bits.lean ====
section
/-! SUPPORT. Bit strings as numbers: what the writer appends and keeps, as arithmetic (spec/44_bitstream_writer.md R160 to
R164). -/

namespace Sys2Proof.Machine

/-- A bit string read as a binary number, first bit most significant. -/
def natOf (l : List Bool) : Nat := l.foldl (fun n b => 2 * n + b.toNat) 0

theorem natOf_snoc (l : List Bool) (b : Bool) : natOf (l ++ [b]) = 2 * natOf l + b.toNat := by
  simp [natOf, List.foldl_append]

theorem natOf_lt (l : List Bool) : natOf l < 2 ^ l.length := by
  induction l using List.reverseRecOn with
  | nil => simp [natOf]
  | append_singleton l b ih =>
    rw [natOf_snoc, List.length_append, List.length_singleton, pow_succ]
    have := Bool.toNat_le b
    omega

theorem natOf_append (a b : List Bool) : natOf (a ++ b) = natOf a * 2 ^ b.length + natOf b := by
  induction b using List.reverseRecOn with
  | nil => simp [natOf]
  | append_singleton b x ih =>
    rw [← List.append_assoc, natOf_snoc, ih, natOf_snoc, List.length_append, List.length_singleton, pow_succ]
    ring

theorem natOf_take (l : List Bool) (k : Nat) : natOf (l.take k) = natOf l / 2 ^ (l.length - k) := by
  have h := natOf_append (l.take k) (l.drop k)
  rw [List.take_append_drop, List.length_drop] at h
  have h2 := natOf_lt (l.drop k)
  rw [List.length_drop] at h2
  rw [h, Nat.add_comm, Nat.add_mul_div_right _ _ (by positivity), Nat.div_eq_of_lt h2, Nat.zero_add]

theorem natOf_drop (l : List Bool) (k : Nat) : natOf (l.drop k) = natOf l % 2 ^ (l.length - k) := by
  have h := natOf_append (l.take k) (l.drop k)
  rw [List.take_append_drop, List.length_drop] at h
  have h2 := natOf_lt (l.drop k)
  rw [List.length_drop] at h2
  rw [h, Nat.add_comm, Nat.add_mul_mod_self_right, Nat.mod_eq_of_lt h2]

theorem shiftIn_ofNat (n : Nat) (b : Bool) : shiftIn (BitVec.ofNat 8 n) b = BitVec.ofNat 8 (2 * n + b.toNat) := by
  apply BitVec.eq_of_toNat_eq
  have key : ∀ (a : Byte) (b : Bool), (shiftIn a b).toNat = (2 * a.toNat + b.toNat) % 256 := by decide +kernel
  rw [key]
  simp only [BitVec.toNat_ofNat]
  omega

theorem valOf_eq (l : List Bool) : valOf l = BitVec.ofNat 8 (natOf l) := by
  induction l using List.reverseRecOn with
  | nil => rfl
  | append_singleton l b ih => rw [valOf_snoc, ih, shiftIn_ofNat, natOf_snoc]

/-- `write_bits(v, n)` sends the `n` low bits of `v` (R92, R161). -/
theorem natOf_bitsMsbFirst (v : Pattern) (n : Nat) : natOf (bitsMsbFirst v n) = v.toNat % 2 ^ n := by
  induction n with
  | zero => simp [bitsMsbFirst, natOf, Nat.mod_one]
  | succ n ih =>
    have hs : bitsMsbFirst v (n + 1) = [v.getLsbD n] ++ bitsMsbFirst v n := by
      simp only [bitsMsbFirst, List.range_succ_eq_map, List.map_cons, List.map_map]
      congr 1
      apply List.map_congr_left
      intro k _
      show v.getLsbD (n + 1 - 1 - (k + 1)) = _
      congr 1; omega
    have hl : (bitsMsbFirst v n).length = n := by simp [bitsMsbFirst]
    rw [hs, natOf_append, ih, hl]
    have h1 : natOf [v.getLsbD n] = v.toNat / 2 ^ n % 2 := by
      rw [BitVec.getLsbD, Nat.testBit_eq_decide_div_mod_eq]
      rcases Nat.mod_two_eq_zero_or_one (v.toNat / 2 ^ n) with h | h <;> simp [natOf, h]
    rw [h1, Nat.mod_pow_succ]
    ring

theorem length_bitsMsbFirst (v : Pattern) (n : Nat) : (bitsMsbFirst v n).length = n := by simp [bitsMsbFirst]

/-- Byte `j` of the whole bytes, as arithmetic. -/
theorem packByte_eq (l : List Bool) (j : Nat) (h : 8 * (j + 1) ≤ l.length) :
    packByte l j = BitVec.ofNat 8 (natOf l / 2 ^ (l.length - 8 * (j + 1))) := by
  have h1 : packByte l j = valOf ((l.drop (8 * j)).take 8) := by
    have hl : ((l.drop (8 * j)).take 8).length = 8 := by simp; omega
    have hz := packByte_zero hl []
    rw [List.append_nil] at hz
    rw [← hz, packByte, packByte]
    have key : ∀ (m : List Nat) (acc : Byte), (∀ i ∈ m, i < 8) →
        m.foldl (fun acc i => shiftIn acc (l.getD (8 * j + i) false)) acc =
        m.foldl (fun acc i => shiftIn acc (((l.drop (8 * j)).take 8).getD (8 * 0 + i) false)) acc := by
      intro m
      induction m with
      | nil => intro acc _; rfl
      | cons i m ih =>
        intro acc hm
        have hi := hm i (List.mem_cons_self ..)
        have e : l.getD (8 * j + i) false = ((l.drop (8 * j)).take 8).getD (8 * 0 + i) false := by
          rw [Nat.mul_zero, Nat.zero_add, List.getD_eq_getElem?_getD, List.getD_eq_getElem?_getD,
            List.getElem?_take_of_lt hi, List.getElem?_drop]
        rw [List.foldl_cons, List.foldl_cons, e, ih _ fun k hk => hm k (List.mem_cons_of_mem _ hk)]
    exact key _ _ fun i hi => List.mem_range.mp hi
  rw [h1, valOf_eq, natOf_take, natOf_drop, List.length_drop]
  apply BitVec.eq_of_toNat_eq
  simp only [BitVec.toNat_ofNat]
  obtain ⟨r, hr⟩ : ∃ r, l.length = 8 * j + 8 + r := ⟨l.length - (8 * j + 8), by omega⟩
  rw [hr, show 8 * j + 8 + r - 8 * j = r + 8 by omega, show r + 8 - 8 = r by omega,
    show 8 * j + 8 + r - 8 * (j + 1) = r by omega, pow_add]
  have : natOf l % (2 ^ r * 2 ^ 8) / 2 ^ r = natOf l / 2 ^ r % 2 ^ 8 := Nat.mod_mul_right_div_self _ _ _
  rw [this, Nat.mod_mod]

/-- The whole bytes of a bit string, as arithmetic. -/
theorem wholeBytes_eq (l : List Bool) :
    wholeBytes l = (List.range (l.length / 8)).map fun j => BitVec.ofNat 8 (natOf l / 2 ^ (l.length - 8 * (j + 1))) := by
  rw [wholeBytes]
  apply List.map_congr_left
  intro j hj
  exact packByte_eq l j (by have := List.mem_range.mp hj; omega)

/-- What is left over, as arithmetic. -/
theorem valOf_tailBits (l : List Bool) : valOf (tailBits l) = BitVec.ofNat 8 (natOf l % 2 ^ (l.length % 8)) := by
  rw [valOf_eq, tailBits, natOf_drop]
  congr 3
  omega

/-- The pending bits are the number in ACC. -/
theorem State.Pending.natOf {s : State} {p : List Bool} (h : s.Pending p) : natOf p = s.acc.toNat := by
  have := natOf_lt p
  have hp : 2 ^ p.length ≤ 2 ^ 7 := Nat.pow_le_pow_right (by norm_num) (by have := h.1; omega)
  rw [h.2.1, valOf_eq, BitVec.toNat_ofNat, Nat.mod_eq_of_lt (by omega)]

/-- Writing the `n` low bits of `v`, by whether they fit (R161, R190). -/
theorem writeBits_arith {s : State} (hw : s.acc.toNat < 2 ^ s.nbits.toNat) (hl : s.olen.toNat ≤ s.obufCap.toNat)
    (v : Pattern) (n : Nat) :
    (s.olen.toNat + (s.nbits.toNat + n) / 8 ≤ s.obufCap.toNat →
      ∃ t, endCommand (writeBits (bitsMsbFirst v n) s) = .next t ∧ WritesBits s t v.toNat n) ∧
    (s.obufCap.toNat < s.olen.toNat + (s.nbits.toNat + n) / 8 →
      endCommand (writeBits (bitsMsbFirst v n) s) = .refused .obufFull) := by
  obtain ⟨p, hp⟩ := State.exists_pending hw
  have hn := hp.nbits_toNat
  have hlen := length_bitsMsbFirst v n
  constructor
  · intro h
    obtain ⟨t, ht, ha, htp, hs⟩ := writeBits_stage hp (bitsMsbFirst v n) (by rw [hlen, ← hn]; exact h)
    refine ⟨t.finish, by rw [ht]; rfl, ?_⟩
    have hl2 : (p ++ bitsMsbFirst v n).length = s.nbits.toNat + n := by rw [List.length_append, hlen, hn]
    have hnat : natOf (p ++ bitsMsbFirst v n) = s.acc.toNat * 2 ^ n + v.toNat % 2 ^ n := by
      rw [natOf_append, hp.natOf, natOf_bitsMsbFirst, hlen]
    rw [wholeBytes_eq, hl2, hnat] at ha
    refine ⟨ha, ?_, ?_, ?_⟩
    · show t.nbits = _
      rw [htp.2.2, length_tailBits, hl2]
    · show t.acc = _
      rw [htp.2.1, valOf_tailBits, hl2, hnat]
    · unfold SameButWriter at hs
      rw [State.finish, hs]
  · intro h
    rw [writeBits_full hp hl (by rw [hlen, ← hn]; exact h)]; rfl

end Sys2Proof.Machine
end

