-- ==== Sys2Proof/Laws/Compress.lean ====
section
/-! SUPPORT. ENC.RUN's body as a whole (spec/47_sequencer.md R193, R197). -/

namespace Sys2Proof.Machine

theorem occurring_tally {x : List Byte} (h : x.length < 2 ^ 64) (hne : x ≠ []) : occurring (tally x) ≠ [] := by
  obtain ⟨c, l, rfl⟩ := List.exists_cons_of_ne_nil hne
  intro e
  have := mem_occurring.mpr ((tally_ne_zero h c).mpr (List.mem_cons_self ..))
  rw [e] at this
  simp at this

/-- In the code table of a built tree a symbol that was counted has a valid entry of length 1 to 255 (R154). -/
theorem Built.code_valid {f : Table U64} {t0 t : Tree} (h : Built f t0 t) {c : Byte} (hc : f.at c ≠ 0#64) :
    ∃ p, (codes t).at c = entryOf p ∧ 1 ≤ p.length ∧ p.length ≤ 255 ∧ (c, p) ∈ leafPaths t 511 t.root [] := by
  have hN : t.root.val < t.nn.toNat := by have := h.nnRoot; omega
  have hv := (codes_valid_iff t c).mpr ((h.mem_leaves c).mpr hc)
  rcases codes_at t c with ⟨q, h1, h2, h3⟩ | ⟨-, h2⟩
  · obtain ⟨l1, l2⟩ := leafPaths_length h.descends hN h.height h.rootInternal q h1
    exact ⟨q.2, h3, l1, l2, by rw [← h2]; exact h1⟩
  · rw [h2] at hv; simp at hv

theorem len_entryOf {p : List Bool} (h : p.length ≤ 255) : (entryOf p).len.toNat = p.length := by
  simp [entryOf]; omega

/-- The state in which ENC.RUN writes the header. -/
def State.readyToWrite (s : State) : State :=
  { s with
    outValid := false, olen := 0#64, acc := 0#8, nbits := 0#3, cur := 0#8, rem := 0#4, rpos := 0#64
    treeValid := false, freq := tally s.input, tree := (buildOver (tally s.input) s.tree).2
    code := codes (buildOver (tally s.input) s.tree).2, stack := [], origSize := s.ilen }

/-- Steps 1 to 3 of ENC.RUN on a non-empty input always succeed (R193). -/
theorem compressInput_eq {s : State} (h : s.ilen ≠ 0#64) :
    compressInput s = (writeHeader s.readyToWrite).bind fun s =>
      (encodeBody s).bind fun s => (flush s).bind fun s => .ok (s.setOutValid true) := by
  have hne : s.input ≠ [] := fun e => h (input_eq_nil.mp e)
  have hocc := occurring_tally (length_input_lt s) hne
  have hb := buildOver_built s.tree hocc
  have h1 : buildTree (countInput s.init) =
      .ok (((countInput s.init).setTree (buildOver (tally s.input) s.tree).2).setTreeValid true) := by
    have hf := (buildOver_fst (tally s.input) s.tree).mpr hocc
    have hc : buildOver (countInput s.init).freq (countInput s.init).tree = buildOver (tally s.input) s.tree := rfl
    simp only [buildTree, hc, hf, if_true]
  rw [compressInput, h1, Res.bind_ok, generateCodes_ok rfl, Res.bind_ok]
  · rfl
  · have := hb.nnRoot
    show (buildOver (tally s.input) s.tree).2.DescendsBelow ((buildOver (tally s.input) s.tree).2.root.val + 1)
    rw [← this]
    exact hb.descends

theorem buildTree_fail {s : State} {t : Tree} (h : buildOver s.freq s.tree = (false, t)) :
    buildTree s = .raise .emptyInput ((s.setTree t).setTreeValid false) := by
  simp only [buildTree, h]; rfl

theorem buildTree_ok {s : State} {t : Tree} (h : buildOver s.freq s.tree = (true, t)) :
    buildTree s = .ok ((s.setTree t).setTreeValid true) := by
  simp only [buildTree, h]; rfl

/-- ENC.RUN on an empty input (R193, R213). -/
theorem compressInput_empty {s : State} (h : s.ilen = 0#64) :
    compressInput s = .raise .emptyInput { s.init with
      freq := Vector.replicate 256 0#64, tree := { s.tree with nn := 0#10, root := 0, nact := 0#9 } } := by
  have hi : s.init.input = [] := input_eq_nil.mpr h
  have h0 : occurring (Vector.replicate 256 0#64) = [] := occurring_eq_nil.mpr fun c => by simp
  have h1 : buildTree (countInput s.init) = .raise .emptyInput { s.init with
      freq := Vector.replicate 256 0#64, tree := { s.tree with nn := 0#10, root := 0, nact := 0#9 } } := by
    have hc : countInput s.init = { s.init with freq := Vector.replicate 256 0#64 } := by
      rw [countInput, hi, tally_nil]
    have hf : ({ s.init with freq := Vector.replicate 256 0#64 } : State).freq = Vector.replicate 256 0#64 := rfl
    have ht : ({ s.init with freq := Vector.replicate 256 0#64 } : State).tree = s.tree := rfl
    rw [hc, buildTree_fail (t := { s.tree with nn := 0#10, root := 0, nact := 0#9 }) (by
      rw [hf, ht]; exact buildOver_empty s.tree h0)]
    rfl
  rw [compressInput, h1, Res.bind_raise]

/-- Steps 4 to 6, by whether the container fits (R193, R197, R243). -/
theorem compressInput_spec {s : State} (h : s.ilen ≠ 0#64) :
    let k := codes (buildOver (tally s.input) s.tree).2
    let out := header s.ilen (tally s.input) ++ pack (bodyBits k s.input)
    (out.length ≤ s.obufCap.toNat → ∃ t, compressInput s = .ok t ∧ Appended s.init t out ∧
      t = { s with
        freq := tally s.input, code := k, tree := (buildOver (tally s.input) s.tree).2
        obuf := t.obuf, olen := t.olen, eidx := s.ilen, stack := [], origSize := s.ilen, outValid := true
        treeValid := false, acc := 0#8, nbits := 0#3, cur := 0#8, rem := 0#4, rpos := 0#64 }) ∧
    (s.obufCap.toNat < out.length → compressInput s = .refused .obufFull) := by
  intro k out
  have hne : s.input ≠ [] := fun e => h (input_eq_nil.mp e)
  have hocc := occurring_tally (length_input_lt s) hne
  have hb := buildOver_built s.tree hocc
  set B := bodyBits k s.input with hB
  have hlen : out.length = 2060 + (B.length + 7) / 8 := by
    show (header _ _ ++ pack _).length = _
    rw [List.length_append, length_header, length_pack]
  have hhd : writeHeader s.readyToWrite = emitAll (header s.ilen (tally s.input)) s.readyToWrite := rfl
  have hloop : ∀ v : State, SameButWriter s.readyToWrite v →
      encodeBody v = (writeBits B { v with eidx := 0#64 }).bind fun t => .ok { t with eidx := s.ilen } := by
    intro v hv
    have hcode : v.code = k := hv.code
    have hib : ∀ a, ibufByte v a = ibufByte s a := fun a => hv.ibufByte a
    have hil : v.ilen.toNat = s.ilen.toNat := by rw [hv]; rfl
    have hlist : (List.range s.ilen.toNat).map (fun i => ibufByte v (0 + i)) = s.input := by
      rw [State.input]
      apply List.map_congr_left
      intro i _
      rw [Nat.zero_add, hib]
    have := encodeLoop_eq s.ilen.toNat { v with eidx := 0#64 } (by have := s.ilen.isLt; show 0 + s.ilen.toNat < 2 ^ 64; omega) fun i hi => by
      show (v.code.at (ibufByte v (0 + i))).valid = true ∧ (v.code.at (ibufByte v (0 + i))).len ≠ 0#8
      rw [Nat.zero_add, hcode, hib]
      have hm : ibufByte s i ∈ s.input := by
        rw [← getElem_input s i (by rw [length_input]; exact hi)]
        exact List.getElem_mem _
      obtain ⟨p, hp, h1, h2, -⟩ := hb.code_valid ((tally_ne_zero (length_input_lt s) _).mpr hm)
      show ((codes (buildOver (tally s.input) s.tree).2).at (ibufByte s i)).valid = true ∧ _
      rw [hp]
      refine ⟨rfl, fun e => ?_⟩
      have := len_entryOf h2
      rw [e] at this
      simp at this; omega
    have hz : (0#64 + BitVec.ofNat 64 s.ilen.toNat) = s.ilen := by simp
    have hw : encodeLoop s.ilen.toNat { v with eidx := 0#64 } =
        (writeBits B { v with eidx := 0#64 }).bind fun t => .ok { t with eidx := s.ilen } := by
      rw [this]
      simp only [hcode, hz]
      show Res.bind (writeBits (bodyBits k ((List.range s.ilen.toNat).map fun i => ibufByte v (0 + i))) _) _ = _
      rw [hlist]
    rw [encodeBody, hil, hw]
    rcases writeBits_cases B { v with eidx := 0#64 } with ⟨t, ht, -⟩ | hr
    · rw [ht]; rfl
    · rw [hr]; rfl
  have h0 : s.readyToWrite.olen.toNat = 0 := rfl
  have hcap : s.readyToWrite.obufCap = s.obufCap := rfl
  rw [compressInput_eq h, hhd]
  rcases Nat.lt_or_ge s.obufCap.toNat 2060 with hsmall | hbig
  · refine ⟨fun hc => by omega, fun _ => ?_⟩
    rw [emitAll_full (by omega) (by rw [length_header, h0, hcap]; omega), Res.bind_refused]
  · obtain ⟨v, hv, hva, hvs, hvacc, hvn⟩ := emitAll_stage (s := s.readyToWrite) (bs := header s.ilen (tally s.input))
      (by rw [length_header, h0, hcap]; omega)
    rw [hv, Res.bind_ok, hloop v hvs]
    set w : State := { v with eidx := 0#64 } with hw
    have hwp : w.Pending [] := ⟨by simp, by rw [hw]; exact hvacc, by rw [hw]; exact hvn⟩
    have hwo : w.olen.toNat = 2060 := by
      show v.olen.toNat = _
      rw [hva.1, length_header, h0]
    have hwc : w.obufCap = s.obufCap := by rw [hw]; exact hvs.obufCap
    rcases Nat.lt_or_ge s.obufCap.toNat (2060 + B.length / 8) with hmid | hfit
    · refine ⟨fun hc => by omega, fun _ => ?_⟩
      rw [writeBits_full hwp (by rw [hwo, hwc]; omega) (by rw [hwo, hwc]; simpa using hmid), Res.bind_refused,
        Res.bind_refused]
    · obtain ⟨x, hx, hxa, hxp, hxs⟩ := writeBits_stage hwp B (by rw [hwo, hwc]; simpa using hfit)
      rw [List.nil_append] at hxa hxp
      rw [hx, Res.bind_ok, Res.bind_ok]
      set y : State := { x with eidx := s.ilen } with hy
      have hyp : y.Pending (tailBits B) := hxp
      have hyo : y.olen.toNat = 2060 + B.length / 8 := by
        show x.olen.toNat = _
        rw [hxa.1, hwo, length_wholeBytes]
      have hyc : y.obufCap = s.obufCap := by rw [hy]; show x.obufCap = _; rw [hxs.obufCap, hwc]
      have htl := length_tailBits B
      have hpk := pack_eq B
      have hplen : (pack B).length = B.length / 8 + (if tailBits B = [] then 0 else 1) := by
        rw [hpk, List.length_append, length_wholeBytes]
        split_ifs <;> simp
      rw [length_pack] at hplen
      constructor
      · intro hc
        obtain ⟨z, hz, hza, hzp, hzs⟩ := flush_stage hyp (by rw [hyo, hyc]; omega)
        rw [hz, Res.bind_ok]
        refine ⟨z.setOutValid true, rfl, ?_, ?_⟩
        · have e1 : Appended s.init v (header s.ilen (tally s.input)) := hva
          have e2 : Appended v x (wholeBytes B) := hxa
          have e3 : Appended x (z.setOutValid true) (if tailBits B = [] then [] else [padded (valOf (tailBits B)) (tailBits B).length]) := hza
          have := (e1.trans e2).trans e3
          rw [List.append_assoc, ← hpk] at this
          exact this
        · have hzacc : z.acc = 0#8 := hzp.2.1
          have hzn : z.nbits = 0#3 := hzp.2.2
          unfold SameButWriter at hvs hxs hzs
          have e : z = { s.readyToWrite with obuf := z.obuf, olen := z.olen, acc := z.acc, nbits := z.nbits, eidx := s.ilen } := by
            rw [hzs, hy, hxs, hw, hvs]
          rw [hzacc, hzn] at e
          rw [State.setOutValid, e]
          rfl
      · intro hc
        have hne : tailBits B ≠ [] := by
          intro e
          rw [if_pos e] at hplen
          omega
        rw [if_neg hne] at hplen
        rw [flush_full hyp hne (by rw [hyo, hyc]; omega), Res.bind_refused]

/-- The bits of a body: count times code length, added up over the symbols (R197). -/
theorem length_bodyBits (k : Table CodeEntry) (x : List Byte) :
    (bodyBits k x).length = (allSymbols.map fun c => x.count c * (k.at c).len.toNat).sum := by
  have hlen : ∀ c, (k.at c).bits.length = (k.at c).len.toNat := fun c => by simp [CodeEntry.bits, bitsMsbFirst]
  rw [sum_count_mul (fun c => (k.at c).len.toNat), bodyBits, List.length_flatMap]
  simp only [hlen]

/-- The code table of a rooted tree has proper entries only (R150, R154). -/
theorem codes_proper {t : Tree} (hd : t.Descending) (hr : t.Rooted) (c : Byte) : ((codes t).at c).Proper := by
  obtain ⟨h1, h2, h3, -, -⟩ := hr
  rcases codes_at t c with ⟨q, g1, g2, g3⟩ | ⟨-, g⟩
  · obtain ⟨l1, l2⟩ := leafPaths_length (N := 511) (hd.below 511) t.root.isLt h3 h1 q g1
    rw [g3]; exact proper_entryOf _ l2 l1
  · rw [g]; exact ⟨by simp, fun _ => rfl⟩

end Sys2Proof.Machine
end

