-- ==== Sys2Proof/Laws/Reader.lean ====
section
/-! SUPPORT. What the bit-stream reader and the tree walk can do, in terms of the bits still to be delivered
(spec/45_bitstream_reader.md R170 to R172, spec/47_sequencer.md R194, R195). -/

namespace Sys2Proof.Machine

theorem length_ibufBitsFrom (s : State) (a n : Nat) : (ibufBitsFrom s a n).length = 8 * n := by
  induction n generalizing a with
  | zero => rfl
  | succ n ih => simp [ibufBitsFrom, ibufBits, ih]; omega

theorem ibufByte_congr {s t : State} (hi : t.ibuf = s.ibuf) (hr : t.resets = s.resets) (a : Nat) :
    ibufByte t a = ibufByte s a := by rw [ibufByte, ibufByte, hi, hr]

theorem ibufBitsFrom_congr {s t : State} (hi : t.ibuf = s.ibuf) (hr : t.resets = s.resets) (a n : Nat) :
    ibufBitsFrom t a n = ibufBitsFrom s a n := by
  induction n generalizing a with
  | zero => rfl
  | succ n ih => simp only [ibufBitsFrom, ih, ibufBits, ibufByte_congr hi hr]

/-- The bits still to be delivered depend on the reader, ILEN and IBUF alone. -/
theorem State.unread_congr {s t : State} (hi : t.ibuf = s.ibuf) (hr : t.resets = s.resets) (hc : t.cur = s.cur)
    (hm : t.rem = s.rem) (hp : t.rpos = s.rpos) (hl : t.ilen = s.ilen) : t.unread = s.unread := by
  rw [State.unread, State.unread, State.held, State.held, hc, hm, hp, hl, ibufBitsFrom_congr hi hr]

theorem length_unread (s : State) : s.unread.length = s.bitsLeft := by
  simp [State.unread, State.held, length_ibufBitsFrom, State.bitsLeft]

/-- What reading and walking never touch: everything but CUR, REM, RPOS, RBIT and CURN. -/
def SameButReader (s t : State) : Prop :=
  t = { s with cur := t.cur, rem := t.rem, rpos := t.rpos, rbit := t.rbit, curn := t.curn }

theorem SameButReader.refl (s : State) : SameButReader s s := rfl

theorem SameButReader.trans {s t u : State} (h1 : SameButReader s t) (h2 : SameButReader t u) : SameButReader s u := by
  unfold SameButReader at *
  rw [h2, h1]

theorem SameButReader.ibufByte {s t : State} (h : SameButReader s t) (a : Nat) : ibufByte t a = ibufByte s a :=
  ibufByte_congr (by rw [h]) (by rw [h]) a

theorem SameButReader.ibufBitsFrom {s t : State} (h : SameButReader s t) (a n : Nat) :
    ibufBitsFrom t a n = ibufBitsFrom s a n := ibufBitsFrom_congr (by rw [h]) (by rw [h]) a n

theorem SameButReader.tree {s t : State} (h : SameButReader s t) : t.tree = s.tree := by rw [h]
theorem SameButReader.ilen {s t : State} (h : SameButReader s t) : t.ilen = s.ilen := by rw [h]

theorem State.takeBit_same (s : State) : SameButReader s s.takeBit := rfl
theorem State.pullByte_same (s : State) : SameButReader s s.pullByte := rfl
theorem State.descend_same (s : State) : SameButReader s s.descend := rfl

/-- Taking a held bit delivers the first of them and keeps the others. -/
theorem State.held_takeBit {s : State} (h : s.rem ≠ 0#4) : s.held = s.nextBit :: s.takeBit.held := by
  have hpos : 0 < s.rem.toNat := by
    rcases Nat.eq_zero_or_pos s.rem.toNat with h0 | h0
    · exact absurd (BitVec.eq_of_toNat_eq h0) h
    · exact h0
  obtain ⟨n, hn⟩ : ∃ n, s.rem.toNat = n + 1 := ⟨s.rem.toNat - 1, by omega⟩
  have hr : s.takeBit.rem.toNat = n := by
    have := s.rem.isLt
    rw [State.takeBit_rem, BitVec.toNat_sub]
    simp; omega
  rw [State.held, State.held, hn, hr, List.range_succ_eq_map]
  simp only [List.map_cons, List.map_map, State.nextBit, hn, State.takeBit_cur]
  congr 1
  apply List.map_congr_left
  intro k _
  simp only [Function.comp_apply]
  congr 1; omega

/-- No bit left: `read_bit` raises StreamExhausted and changes nothing (R170). -/
theorem readBit_nil {s : State} (h : s.unread = []) : readBit s = .raise .streamExhausted s := by
  have hl : s.bitsLeft = 0 := by rw [← length_unread, h]; rfl
  unfold State.bitsLeft at hl
  have hr : s.rem = 0#4 := BitVec.eq_of_toNat_eq (by simp; omega)
  rw [readBit, if_pos hr, if_pos (by omega)]

/-- A bit left: `read_bit` delivers the next one and keeps the others (R170). -/
theorem readBit_cons {s : State} {b : Bool} {bs : List Bool} (h : s.unread = b :: bs) :
    ∃ t, readBit s = .ok t ∧ t.rbit = b ∧ t.unread = bs ∧ SameButReader s t ∧ t.curn = s.curn := by
  by_cases hr : s.rem = 0#4
  · have hlt : ¬ s.ilen.toNat ≤ s.rpos.toNat := by
      intro hle
      have : s.bitsLeft = 0 := by simp [State.bitsLeft, hr]; omega
      rw [← length_unread, h] at this
      simp at this
    have hp : s.pullByte.rpos.toNat = s.rpos.toNat + 1 := by
      have := s.ilen.isLt
      rw [State.pullByte_rpos, BitVec.toNat_add]
      simp; omega
    refine ⟨s.pullByte.takeBit, by rw [readBit, if_pos hr, if_neg hlt], ?_, ?_, rfl, rfl⟩ <;>
    · have hu : s.unread = s.pullByte.held ++
          ibufBitsFrom s (s.rpos.toNat + 1) (s.ilen.toNat - (s.rpos.toNat + 1)) := by
        have hn : s.ilen.toNat - s.rpos.toNat = (s.ilen.toNat - (s.rpos.toNat + 1)) + 1 := by omega
        rw [State.unread, hn, ibufBitsFrom]
        simp [State.held, hr, ibufBits]
      rw [State.held_takeBit (by simp), h, List.cons_append, List.cons.injEq] at hu
      first
        | exact hu.1.symm
        | rw [hu.2, State.unread, State.takeBit_rpos, hp]
          congr 1
          exact (State.takeBit_same _).ibufBitsFrom _ _ |>.trans ((State.pullByte_same s).ibufBitsFrom _ _)
  · refine ⟨s.takeBit, by rw [readBit, if_neg hr], ?_, ?_, rfl, rfl⟩ <;>
    · have hu := h
      rw [State.unread, State.held_takeBit hr, List.cons_append, List.cons.injEq] at hu
      first
        | exact hu.1
        | rw [← hu.2, State.unread]
          congr 1
          exact (State.takeBit_same s).ibufBitsFrom _ _

theorem State.unread_descend (s : State) : s.descend.unread = s.unread := State.unread_congr rfl rfl rfl rfl rfl rfl

/-- The walk in terms of the bits left (R194, R195): to a leaf, or out of bits. The state it leaves differs in the
reader and CURN only. -/
theorem walk_spec (s : State) :
    (∃ sym rest t, walkBits s.tree s.curn s.unread = some (sym, rest) ∧ walk s.bitsLeft s = .ok t ∧
      t.walkNode.kind = .leaf ∧ t.walkNode.sym = sym ∧ t.unread = rest ∧ SameButReader s t) ∨
    (∃ t, walkBits s.tree s.curn s.unread = none ∧ walk s.bitsLeft s = .raise .truncatedStream t ∧
      t.unread = [] ∧ SameButReader s t) := by
  rw [← length_unread]
  generalize hu : s.unread = bits
  induction bits generalizing s with
  | nil =>
    have hw : s.walkNode = s.tree.nodeAt s.curn := rfl
    simp only [walkBits, List.length_nil, walk]
    cases hk : (s.tree.nodeAt s.curn).kind with
    | leaf => exact .inl ⟨_, _, s, rfl, by rw [hw, hk], by rw [hw, hk], rfl, hu, .refl s⟩
    | internal => exact .inr ⟨s, rfl, by rw [hw, hk], hu, .refl s⟩
  | cons b bs ih =>
    have hw : s.walkNode = s.tree.nodeAt s.curn := rfl
    simp only [walkBits, List.length_cons, walk]
    cases hk : (s.tree.nodeAt s.curn).kind with
    | leaf => exact .inl ⟨_, _, s, rfl, by rw [hw, hk], by rw [hw, hk], rfl, hu, .refl s⟩
    | internal =>
      obtain ⟨t, ht, hb, htu, hst, hc⟩ := readBit_cons hu
      have hs2 : SameButReader s t.descend := hst.trans t.descend_same
      have hcur : t.descend.curn = if b then (s.tree.nodeAt s.curn).right else (s.tree.nodeAt s.curn).left := by
        rw [State.descend_curn, hb, State.walkNode, hst.tree, hc]
      have := ih t.descend (by rw [State.unread_descend, htu])
      rw [hcur, hs2.tree] at this
      rw [hw, hk, ht]
      simp only [Res.onRaise_ok, Res.bind_ok]
      rcases this with ⟨sym, rest, u, h1, h2, h3, h4, h5, h6⟩ | ⟨u, h1, h2, h3, h4⟩
      · exact .inl ⟨sym, rest, u, h1, h2, h3, h4, h5, hs2.trans h6⟩
      · exact .inr ⟨u, h1, h2, h3, hs2.trans h4⟩

/-- The loop of R195 as its pseudocode writes it: at a leaf the walk ends; at an internal node it reads a bit, a reader
that is exhausted makes it fail with TruncatedStream, and otherwise it goes left on 0, right on 1. -/
theorem walk_unfold (s : State) :
    walk s.bitsLeft s = match s.walkNode.kind with
      | .leaf => .ok s
      | .internal => (Res.onRaise .streamExhausted (readBit s) fun s => .raise .truncatedStream s).bind fun t =>
          walk t.bitsLeft t.descend := by
  rw [← length_unread]
  cases hu : s.unread with
  | nil =>
    rw [readBit_nil hu]
    simp only [List.length_nil, walk, Res.onRaise_same, Res.bind_raise] <;>
      cases s.walkNode.kind <;> rfl
  | cons b bs =>
    obtain ⟨t, ht, -, htu, -, -⟩ := readBit_cons hu
    rw [ht]
    simp only [List.length_cons, walk, ht, Res.onRaise_ok, Res.bind_ok, ← length_unread, htu] <;>
      cases s.walkNode.kind <;> rfl

/-! ### The reader's registers after some bits -/

/-- From `s` to `t` the reader delivered the next `n` bits: these are gone from the bits to be delivered, CUR, REM and RPOS
stand where that leaves them, and RBIT is the last of them (R40), the old one if there was none. -/
def Reads (s t : State) (n : Nat) : Prop :=
  n ≤ s.unread.length ∧ t.unread = s.unread.drop n ∧ ReaderAfter s t n ∧ t.rbit = (s.unread.take n).getLastD s.rbit

/-- The reader's registers, ILEN and IBUF are all that `Reads` sees. -/
def SameForReader (s t : State) : Prop :=
  t.cur = s.cur ∧ t.rem = s.rem ∧ t.rpos = s.rpos ∧ t.rbit = s.rbit ∧ t.ilen = s.ilen ∧ t.ibuf = s.ibuf ∧ t.resets = s.resets

theorem SameForReader.unread {s t : State} (h : SameForReader s t) : t.unread = s.unread := by
  obtain ⟨hc, hm, hp, -, hl, hi, hr⟩ := h
  exact State.unread_congr hi hr hc hm hp hl

theorem Reads.of_same {s t : State} (h : SameForReader s t) : Reads s t 0 := by
  refine ⟨Nat.zero_le _, by simpa using h.unread, ?_, by simpa using h.2.2.2.1⟩
  obtain ⟨hc, hm, hp, -⟩ := h
  simp [ReaderAfter, hc, hm, hp]

/-- Reading on: `n` bits, then `m` bits. -/
theorem Reads.trans {s t u : State} {n m : Nat} (h1 : Reads s t n) (h2 : Reads t u m)
    (hb : ∀ a, ibufByte t a = ibufByte s a) : Reads s u (n + m) := by
  obtain ⟨l1, u1, ⟨p1, m1, k1, c1⟩, b1⟩ := h1
  obtain ⟨l2, u2, ⟨p2, m2, k2, c2⟩, b2⟩ := h2
  rw [u1, List.length_drop] at l2
  have hq : (n + m - s.rem.toNat + 7) / 8 = (n - s.rem.toNat + 7) / 8 + (m - t.rem.toNat + 7) / 8 := by omega
  refine ⟨by omega, by rw [u2, u1, List.drop_drop], ⟨by omega, by omega, fun h => k2 (k1 h), ?_⟩, ?_⟩
  · simp only [hq]
    rw [c2, hb]
    by_cases h0 : (m - t.rem.toNat + 7) / 8 = 0
    · simp [h0, c1]
    · rw [if_neg h0, if_neg (by omega)]
      congr 1; omega
  · rw [b2, b1, u1, List.take_add]
    cases hm : (s.unread.drop n).take m <;> simp [List.getLastD_eq_getLast?]

/-- The state `Reads` starts from may differ in what it does not see. -/
theorem Reads.congr {s s' t t' : State} {n : Nat} (h : Reads s t n) (hs : SameForReader s s') (ht : SameForReader t t') :
    Reads s' t' n := by
  have hu := hs.unread
  have hv := ht.unread
  obtain ⟨sc, sm, sp, sb, -, si, sr⟩ := hs
  obtain ⟨tc, tm, tp, tb, -, -, -⟩ := ht
  obtain ⟨l, u, ⟨p, m, k, c⟩, b⟩ := h
  unfold Reads ReaderAfter
  rw [hu, hv, sc, sm, sp, sb, tc, tm, tp, tb]
  simp only [ibufByte_congr si sr]
  exact ⟨l, u, ⟨p, m, k, c⟩, b⟩

/-- `read_bit` that delivers (R170). -/
theorem readBit_reads {s t : State} (h : readBit s = .ok t) : Reads s t 1 := by
  cases hu : s.unread with
  | nil => rw [readBit_nil hu] at h; cases h
  | cons b bs =>
    obtain ⟨t', ht, hb, htu, -, -⟩ := readBit_cons hu
    rw [ht] at h
    obtain rfl := Res.ok.inj h
    refine ⟨by simp [hu], by rw [hu, htu]; rfl, ?_, by rw [hu, hb]; rfl⟩
    rw [readBit] at ht
    by_cases hr : s.rem = 0#4
    · rw [if_pos hr] at ht
      split_ifs at ht with hl
      obtain rfl := Res.ok.inj ht
      have hp : s.pullByte.takeBit.rpos.toNat = s.rpos.toNat + 1 := by
        have := s.ilen.isLt
        rw [State.takeBit_rpos, State.pullByte_rpos, BitVec.toNat_add]
        simp; omega
      have hm : s.pullByte.takeBit.rem = 7#4 := by rw [State.takeBit_rem, State.pullByte_rem]; rfl
      have hc : s.pullByte.takeBit.cur = ibufByte s s.rpos.toNat := rfl
      generalize s.pullByte.takeBit = w at hp hm hc
      simp [ReaderAfter, hr, hp, hm, hc]
    · rw [if_neg hr] at ht
      obtain rfl := Res.ok.inj ht
      have hpos : s.rem.toNat ≠ 0 := fun h0 => hr (BitVec.eq_of_toNat_eq h0)
      have hm : s.takeBit.rem.toNat = s.rem.toNat - 1 := by
        have := s.rem.isLt
        rw [State.takeBit_rem, BitVec.toNat_sub]
        simp; omega
      have hz : (1 - s.rem.toNat + 7) / 8 = 0 := by omega
      refine ⟨?_, ?_, ?_, ?_⟩ <;> simp only [hz, hm, State.takeBit_rpos, State.takeBit_cur] <;> simp <;> omega

/-- The walk reads some bits, whether it reaches a leaf or runs out of them (R195, R215). -/
theorem walk_reads (n : Nat) {s t : State} (h : walk n s = .ok t ∨ walk n s = .raise .truncatedStream t) :
    ∃ k, Reads s t k ∧ SameButReader s t := by
  induction n generalizing s with
  | zero =>
    unfold walk at h
    cases hk : s.walkNode.kind <;> simp only [hk] at h <;>
    · rcases h with h | h <;> cases h
      exact ⟨0, .of_same ⟨rfl, rfl, rfl, rfl, rfl, rfl, rfl⟩, .refl _⟩
  | succ n ih =>
    unfold walk at h
    cases hk : s.walkNode.kind with
    | leaf =>
      simp only [hk] at h
      rcases h with h | h <;> cases h
      exact ⟨0, .of_same ⟨rfl, rfl, rfl, rfl, rfl, rfl, rfl⟩, .refl _⟩
    | internal =>
      simp only [hk] at h
      cases hu : s.unread with
      | nil =>
        rw [readBit_nil hu, Res.onRaise_same, Res.bind_raise] at h
        rcases h with h | h <;> cases h
        exact ⟨0, .of_same ⟨rfl, rfl, rfl, rfl, rfl, rfl, rfl⟩, .refl _⟩
      | cons b bs =>
        obtain ⟨v, hv, -, -, hs, -⟩ := readBit_cons hu
        rw [hv, Res.onRaise_ok, Res.bind_ok] at h
        obtain ⟨k, h1, h2⟩ := ih h
        have hd : SameButReader s v.descend := hs.trans v.descend_same
        have h3 : Reads s v.descend 1 :=
          (readBit_reads hv).congr ⟨rfl, rfl, rfl, rfl, rfl, rfl, rfl⟩ ⟨rfl, rfl, rfl, rfl, rfl, rfl, rfl⟩
        exact ⟨1 + k, h3.trans h1 hd.ibufByte, hd.trans h2⟩

end Sys2Proof.Machine
end

