-- ==== Sys2Proof/Laws/Decoder.lean ====
section
/-! SUPPORT. What `decode_symbol()` and the decoder's loop can do, in terms of the bits still to be delivered
(spec/47_sequencer.md R195, R196, R198). -/

namespace Sys2Proof.Machine

/-- What decoding never touches: everything but the reader, CURN, SYM, DCNT and the output. -/
def SameButDecode (s t : State) : Prop :=
  t = { s with cur := t.cur, rem := t.rem, rpos := t.rpos, rbit := t.rbit, curn := t.curn, sym := t.sym,
               dcnt := t.dcnt, obuf := t.obuf, olen := t.olen }

theorem SameButDecode.refl (s : State) : SameButDecode s s := rfl

theorem SameButDecode.trans {s t u : State} (h1 : SameButDecode s t) (h2 : SameButDecode t u) :
    SameButDecode s u := by
  unfold SameButDecode at *
  rw [h2, h1]

theorem SameButReader.decode {s t : State} (h : SameButReader s t) : SameButDecode s t := by
  unfold SameButReader at h
  unfold SameButDecode
  rw [h]

theorem SameButDecode.tree {s t : State} (h : SameButDecode s t) : t.tree = s.tree := by rw [h]
theorem SameButDecode.obufCap {s t : State} (h : SameButDecode s t) : t.obufCap = s.obufCap := by rw [h]
theorem SameButReader.obufCap {s t : State} (h : SameButReader s t) : t.obufCap = s.obufCap := by rw [h]
theorem SameButReader.olen {s t : State} (h : SameButReader s t) : t.olen = s.olen := by rw [h]
theorem SameButReader.obuf {s t : State} (h : SameButReader s t) : t.obuf = s.obuf := by rw [h]
theorem SameButReader.dcnt {s t : State} (h : SameButReader s t) : t.dcnt = s.dcnt := by rw [h]
theorem SameButReader.sym {s t : State} (h : SameButReader s t) : t.sym = s.sym := by rw [h]

/-- `decode_symbol()` (R195): it emits the leaf's symbol, or fails with TruncatedStream having emitted nothing, or is
refused because the output is full. -/
theorem decodeSymbol_spec (s : State) :
    (∃ sym rest t, walkBits s.tree s.tree.root s.unread = some (sym, rest) ∧ s.olen.toNat < s.obufCap.toNat ∧
      decodeSymbol s = .ok (t.append sym) ∧ t.sym = sym ∧ t.unread = rest ∧ SameButDecode s t ∧
      t.olen = s.olen ∧ t.obuf = s.obuf ∧ t.dcnt = s.dcnt) ∨
    (∃ sym rest, walkBits s.tree s.tree.root s.unread = some (sym, rest) ∧ s.obufCap.toNat ≤ s.olen.toNat ∧
      decodeSymbol s = .refused .obufFull) ∨
    (∃ t, walkBits s.tree s.tree.root s.unread = none ∧ decodeSymbol s = .raise .truncatedStream t ∧
      t.unread = [] ∧ SameButReader s t) := by
  set s1 : State := { s with curn := s.tree.root } with hs1
  have hb : s1.bitsLeft = s.bitsLeft := rfl
  have hs : SameButReader s s1 := rfl
  have hw := walk_spec s1
  rw [State.unread_congr (s := s) (t := s1) rfl rfl rfl rfl rfl rfl, hb] at hw
  unfold decodeSymbol
  rcases hw with ⟨sym, rest, t, h1, h2, h3, h4, h5, h6⟩ | ⟨t, h1, h2, h3, h4⟩
  · have ht := hs.trans h6
    rw [← hs1, h2, Res.bind_ok]
    rcases emit_cases t.setSym.sym t.setSym with ⟨hc, he⟩ | ⟨hc, he⟩
    · rw [State.setSym_olen, State.setSym_obufCap, ht.olen, ht.obufCap] at hc
      refine .inl ⟨sym, rest, t.setSym, h1, hc, by rw [he, State.setSym_sym, h4], ?_, ?_, ?_, ?_, ?_, ?_⟩
      · rw [State.setSym_sym, h4]
      · rw [← h5]; exact State.unread_congr rfl rfl rfl rfl rfl rfl
      · exact ht.decode.trans rfl
      · rw [State.setSym_olen, ht.olen]
      · rw [State.setSym_obuf, ht.obuf]
      · rw [State.setSym_dcnt, ht.dcnt]
    · rw [State.setSym_olen, State.setSym_obufCap, ht.olen, ht.obufCap] at hc
      exact .inr (.inl ⟨sym, rest, h1, hc, he⟩)
  · exact .inr (.inr ⟨t, h1, by rw [← hs1, h2]; rfl, h3, hs.trans h4⟩)

/-- The decoder's loop when the output fits (R196, R198): the symbols for which there are bits are appended in order;
it ends, or fails with TruncatedStream when the bits run out first. -/
theorem decodeLoop_spec (n : Nat) (s : State)
    (hcap : s.olen.toNat + (decodeBits s.tree n s.unread).1.length ≤ s.obufCap.toNat) :
    ∃ t, Appended s t (decodeBits s.tree n s.unread).1 ∧ SameButDecode s t ∧
      decodeLoop n s = (if (decodeBits s.tree n s.unread).2 then .ok t else .raise .truncatedStream t) ∧
      t.unread = bitsAfter s.tree n s.unread ∧ t.sym = (decodeBits s.tree n s.unread).1.getLastD s.sym := by
  induction n generalizing s with
  | zero => exact ⟨s, ⟨by simp [decodeBits], by simp [decodeBits], by simp [decodeBits]⟩, .refl s, rfl, rfl, rfl⟩
  | succ n ih =>
    rcases decodeSymbol_spec s with ⟨sym, rest, t, h1, h2, h3, hsym, h4, h5, h6, h7, h8⟩ | ⟨sym, rest, h1, h2, -⟩ |
      ⟨t, h1, h2, h3, h4⟩
    · have hd : decodeBits s.tree (n + 1) s.unread =
          (sym :: (decodeBits s.tree n rest).1, (decodeBits s.tree n rest).2) := by simp [decodeBits, h1]
      have hb : bitsAfter s.tree (n + 1) s.unread = bitsAfter s.tree n rest := by simp [bitsAfter, h1]
      rw [hd] at hcap ⊢
      simp only [List.length_cons] at hcap
      set u : State := { t.append sym with dcnt := (t.append sym).dcnt + 1#64 } with hu
      have hto : t.olen.toNat < t.obufCap.toNat := by rw [h6, h5.obufCap]; exact h2
      have huo : u.olen.toNat = s.olen.toNat + 1 := by
        show (t.append sym).olen.toNat = _
        rw [State.append_olen_toNat _ hto, h6]
      have hus : SameButDecode s u := h5.trans rfl
      have hur : u.unread = rest := by rw [← h4]; exact State.unread_congr rfl rfl rfl rfl rfl rfl
      have husym : u.sym = sym := hsym
      have hap : Appended s u [sym] := by
        have := State.appendAll_appended (s := t) (bs := [sym]) (by simpa using hto)
        obtain ⟨a1, a2, a3⟩ := this
        refine ⟨by rw [huo]; simp, ?_, ?_⟩
        · intro i hi; rw [← h6]; exact a2 i hi
        · intro a ha
          rw [← h7]
          exact a3 a (by rw [h6]; exact ha)
      obtain ⟨v, i1, i2, i3, i4, i5⟩ := ih u (by rw [hur, huo, hus.tree, hus.obufCap]; omega)
      rw [hur, hus.tree] at i1 i3 i4 i5
      refine ⟨v, hap.trans i1, hus.trans i2, by rw [decodeLoop, h3, Res.bind_ok]; exact i3, by rw [hb]; exact i4, ?_⟩
      rw [i5, husym, List.getLastD_cons]
    · exfalso
      simp only [decodeBits, h1, List.length_cons] at hcap
      omega
    · have hd : decodeBits s.tree (n + 1) s.unread = ([], false) := by simp [decodeBits, h1]
      have hb : bitsAfter s.tree (n + 1) s.unread = [] := by simp [bitsAfter, h1]
      rw [hd]
      refine ⟨t, ⟨by rw [h4.olen]; simp, by simp, fun a _ => by rw [h4.obuf]⟩, h4.decode, ?_, by rw [hb]; exact h3, h4.sym⟩
      rw [decodeLoop, h2]
      rfl

/-- The bits run out exactly when a walk fails. -/
theorem bitsAfter_truncated {t : Tree} (n : Nat) (bits : List Bool) (h : (decodeBits t n bits).2 = false) :
    bitsAfter t n bits = [] := by
  induction n generalizing bits with
  | zero => simp [decodeBits] at h
  | succ n ih =>
    unfold decodeBits at h
    unfold bitsAfter
    cases hw : walkBits t t.root bits with
    | none => rfl
    | some q => rw [hw] at h; exact ih _ h

/-- Every symbol costs at least one bit when the root is internal (R263). -/
theorem walkBits_consumes {t : Tree} {h : Handle} {bits rest : List Bool} {sym : Byte}
    (hk : (t.nodeAt h).kind = .internal) (hw : walkBits t h bits = some (sym, rest)) :
    rest.length < bits.length := by
  have key : ∀ (bits : List Bool) (h : Handle) (rest : List Bool) (sym : Byte),
      walkBits t h bits = some (sym, rest) → rest.length ≤ bits.length := by
    intro bits
    induction bits with
    | nil =>
      intro h rest sym hw
      unfold walkBits at hw
      cases hk : (t.nodeAt h).kind <;> simp [hk] at hw
      simp [hw.2]
    | cons b bs ih =>
      intro h rest sym hw
      unfold walkBits at hw
      cases hk : (t.nodeAt h).kind <;> simp only [hk] at hw
      · simp only [Option.some.injEq, Prod.mk.injEq] at hw
        rw [← hw.2]
      · have := ih _ _ _ hw
        simp; omega
  cases bits with
  | nil => simp [walkBits, hk] at hw
  | cons b bs =>
    simp only [walkBits, hk] at hw
    have := key _ _ _ _ hw
    simp; omega

theorem decodeBits_length {t : Tree} (hk : (t.nodeAt t.root).kind = .internal) (n : Nat) (bits : List Bool) :
    (decodeBits t n bits).1.length ≤ bits.length := by
  induction n generalizing bits with
  | zero => simp [decodeBits]
  | succ n ih =>
    unfold decodeBits
    cases hw : walkBits t t.root bits with
    | none => simp
    | some p =>
      obtain ⟨sym, rest⟩ := p
      have := walkBits_consumes hk hw
      have := ih rest
      simp; omega

/-- `decode_symbol()` reads some bits, whether it emits or fails with TruncatedStream (R195, R215). -/
theorem decodeSymbol_reads {s t : State} (h : decodeSymbol s = .ok t ∨ decodeSymbol s = .raise .truncatedStream t) :
    ∃ n, Reads s t n ∧ SameButDecode s t := by
  unfold decodeSymbol at h
  have hs : SameForReader { s with curn := s.tree.root } s := ⟨rfl, rfl, rfl, rfl, rfl, rfl, rfl⟩
  have h0 : SameButReader s { s with curn := s.tree.root } := rfl
  cases hw : walk s.bitsLeft { s with curn := s.tree.root } with
  | ok v =>
    rw [hw, Res.bind_ok] at h
    obtain ⟨n, h1, h2⟩ := walk_reads _ (.inl hw)
    rcases emit_cases v.setSym.sym v.setSym with ⟨-, he⟩ | ⟨-, he⟩ <;> rw [he] at h <;> rcases h with h | h <;> cases h
    exact ⟨n, h1.congr hs ⟨rfl, rfl, rfl, rfl, rfl, rfl, rfl⟩,
      h0.decode.trans (h2.decode.trans rfl)⟩
  | raise k v =>
    rw [hw, Res.bind_raise] at h
    rcases h with h | h <;> cases h
    obtain ⟨n, h1, h2⟩ := walk_reads _ (.inr hw)
    exact ⟨n, h1.congr hs ⟨rfl, rfl, rfl, rfl, rfl, rfl, rfl⟩, h0.decode.trans h2.decode⟩
  | fault f => rw [hw] at h; rcases h with h | h <;> cases h
  | refused f => rw [hw] at h; rcases h with h | h <;> cases h

/-- The decoder's loop reads some bits, whether it ends or the bits run out (R196). -/
theorem decodeLoop_reads (n : Nat) {s t : State}
    (h : decodeLoop n s = .ok t ∨ decodeLoop n s = .raise .truncatedStream t) : ∃ k, Reads s t k ∧ SameButDecode s t := by
  induction n generalizing s with
  | zero =>
    rcases h with h | h <;> cases h
    exact ⟨0, .of_same ⟨rfl, rfl, rfl, rfl, rfl, rfl, rfl⟩, .refl _⟩
  | succ n ih =>
    rw [decodeLoop] at h
    cases hd : decodeSymbol s with
    | ok v =>
      rw [hd, Res.bind_ok] at h
      obtain ⟨j, h1, h2⟩ := decodeSymbol_reads (.inl hd)
      obtain ⟨k, h3, h4⟩ := ih h
      have h5 : SameButDecode s { v with dcnt := v.dcnt + 1#64 } := h2.trans rfl
      have h6 : Reads s { v with dcnt := v.dcnt + 1#64 } j :=
        h1.congr ⟨rfl, rfl, rfl, rfl, rfl, rfl, rfl⟩ ⟨rfl, rfl, rfl, rfl, rfl, rfl, rfl⟩
      exact ⟨j + k, h6.trans h3 (ibufByte_congr (by rw [h5]) (by rw [h5])), h5.trans h4⟩
    | raise k v =>
      rw [hd, Res.bind_raise] at h
      rcases h with h | h <;> cases h
      exact decodeSymbol_reads (.inr hd)
    | fault f => rw [hd] at h; rcases h with h | h <;> cases h
    | refused f => rw [hd] at h; rcases h with h | h <;> cases h

end Sys2Proof.Machine
end

