-- ==== Sys2Proof/Laws/Decompress.lean ====
section
/-! SUPPORT. DEC.RUN's body as a whole (spec/47_sequencer.md R196, R198), and that decoding undoes encoding (R199). -/

namespace Sys2Proof.Machine

/-- A loop that decodes more symbols than fit in OBUF is refused (R243). -/
theorem decodeLoop_full (n : Nat) (s : State) (hl : s.olen.toNat ≤ s.obufCap.toNat)
    (h : s.obufCap.toNat < s.olen.toNat + (decodeBits s.tree n s.unread).1.length) :
    decodeLoop n s = .refused .obufFull := by
  induction n generalizing s with
  | zero => simp [decodeBits] at h; omega
  | succ n ih =>
    rcases decodeSymbol_spec s with ⟨sym, rest, t, h1, h2, h3, -, h4, h5, h6, -, -⟩ | ⟨sym, rest, h1, -, h3⟩ |
      ⟨t, h1, -, -, -⟩
    · have hd : (decodeBits s.tree (n + 1) s.unread).1 = sym :: (decodeBits s.tree n rest).1 := by simp [decodeBits, h1]
      rw [hd, List.length_cons] at h
      rw [decodeLoop, h3, Res.bind_ok]
      have hto : t.olen.toNat < t.obufCap.toNat := by rw [h6, h5.obufCap]; exact h2
      apply ih
      · show (t.append sym).olen.toNat ≤ t.obufCap.toNat
        rw [State.append_olen_toNat _ hto]; omega
      · have hur : ({ t.append sym with dcnt := (t.append sym).dcnt + 1#64 } : State).unread = rest := by
          rw [← h4]; exact State.unread_congr rfl rfl rfl rfl rfl rfl
        rw [hur]
        show t.obufCap.toNat < (t.append sym).olen.toNat + (decodeBits t.tree n rest).1.length
        rw [State.append_olen_toNat _ hto, h6, h5.tree, h5.obufCap]
        omega
    · rw [decodeLoop, h3, Res.bind_refused]
    · simp [decodeBits, h1] at h; omega

/-! ### The bits of the body -/

theorem length_bitsOfBytes (bs : List Byte) : (bitsOfBytes bs).length = 8 * bs.length := by
  induction bs with
  | nil => rfl
  | cons b bs ih =>
    rw [bitsOfBytes, List.flatMap_cons, List.length_append, ← bitsOfBytes, ih, List.length_cons]
    simp; omega

theorem ibufBitsFrom_eq (s : State) (a n : Nat) :
    ibufBitsFrom s a n = bitsOfBytes ((List.range n).map fun i => ibufByte s (a + i)) := by
  induction n generalizing a with
  | zero => rfl
  | succ n ih =>
    rw [ibufBitsFrom, ih, List.range_succ_eq_map, List.map_cons, bitsOfBytes, bitsOfBytes, List.flatMap_cons, List.map_map]
    congr 2
    apply List.map_congr_left
    intro i _
    show ibufByte s (a + 1 + i) = ibufByte s (a + (i + 1))
    congr 1; omega

theorem drop_input (s : State) (a : Nat) :
    s.input.drop a = (List.range (s.ilen.toNat - a)).map fun i => ibufByte s (a + i) := by
  apply List.ext_getElem
  · simp [length_input]
  · intro i h1 h2
    rw [List.getElem_drop, getElem_input]
    simp

/-- A reader started at `a` with no bits held delivers the bits of the input from `a` on (R170, R171). -/
theorem unread_started {s : State} (hr : s.rem = 0#4) :
    s.unread = bitsOfBytes (s.input.drop s.rpos.toNat) := by
  rw [State.unread, ibufBitsFrom_eq, drop_input]
  have : s.held = [] := by simp [State.held, hr]
  rw [this, List.nil_append]

/-! ### DEC.RUN's body -/

/-- The state after step 1 of DEC.RUN. -/
def State.headerTaken (s : State) : State :=
  { s.init with
    cur := 0#8, rem := 0#4, rpos := 2060#64, origSize := le64At s.input 4, freq := countsOf s.input }

theorem State.headerTaken_eq (s : State) : s.headerTaken = { s with
    outValid := false, olen := 0#64, acc := 0#8, nbits := 0#3, treeValid := false
    cur := 0#8, rem := 0#4, rpos := 2060#64, origSize := le64At s.input 4, freq := countsOf s.input } := by
  unfold State.headerTaken State.init
  rfl

theorem readHeader_init (s : State) :
    readHeader s.init = if formatOk s.input then .ok s.headerTaken else .raise .formatError s.init := by
  have hi : s.init.input = s.input := rfl
  rw [readHeader, headerOk_eq, hi]
  split_ifs with h
  · have hlen : 2060 ≤ s.ilen.toNat := by
      rw [formatOk, length_input] at h
      simp only [Bool.and_eq_true, decide_eq_true_eq] at h
      exact h.1
    have e1 : ibufWord64 s.init Config.sizeOffset = le64At s.input 4 := ibufWord64_eq (s := s.init) (by
      show 4 + 7 < s.ilen.toNat; omega)
    have e2 : storedCounts s.init = countsOf s.input := storedCounts_eq (s := s.init) hlen
    rw [loadHeader, e1, e2]
    rfl
  · rfl

theorem decompressInput_format {s : State} (h : formatOk s.input = false) :
    decompressInput s = .raise .formatError s.init := by
  rw [decompressInput, readHeader_init, h]; rfl

theorem decompressInput_empty {s : State} (h : formatOk s.input = true) (he : occurring (countsOf s.input) = []) :
    decompressInput s = .raise .emptyInput
      { s.headerTaken with tree := { s.tree with nn := 0#10, root := 0, nact := 0#9 } } := by
  have hf : s.headerTaken.freq = countsOf s.input := rfl
  have ht : s.headerTaken.tree = s.tree := rfl
  have hb : buildOver s.headerTaken.freq s.headerTaken.tree =
      (false, { s.tree with nn := 0#10, root := 0, nact := 0#9 }) := by
    rw [hf, ht]; exact buildOver_empty s.tree he
  rw [decompressInput, readHeader_init, h, if_pos rfl, Res.bind_ok, buildTree_fail hb, Res.bind_raise]
  rfl

/-- DEC.RUN on a container with a good header and a count, by what the body decodes to (R196, R198, R216). -/
theorem decompressInput_spec {s : State} (h : formatOk s.input = true) (he : occurring (countsOf s.input) ≠ []) :
    let d := decodeBits (build (countsOf s.input)).2 (le64At s.input 4).toNat (bitsOfBytes (s.input.drop 2060))
    (d.1.length ≤ s.obufCap.toNat → ∃ t, Appended s.init t d.1 ∧
      t = { s.headerTaken with
        tree := (buildOver (countsOf s.input) s.tree).2, treeValid := false, cur := t.cur, rem := t.rem, rpos := t.rpos
        rbit := t.rbit, curn := t.curn, sym := t.sym, dcnt := t.dcnt, obuf := t.obuf, olen := t.olen } ∧
      t.unread = bitsAfter (build (countsOf s.input)).2 (le64At s.input 4).toNat (bitsOfBytes (s.input.drop 2060)) ∧
      t.sym = d.1.getLastD s.sym ∧ (∃ n, Reads s.headerTaken t n) ∧
      decompressInput s = if d.2 then .ok (t.setOutValid true) else .raise .truncatedStream t) ∧
    (s.obufCap.toNat < d.1.length → decompressInput s = .refused .obufFull) := by
  intro d
  have hb : buildOver s.headerTaken.freq s.headerTaken.tree = (true, (buildOver (countsOf s.input) s.tree).2) :=
    by
      have hf : s.headerTaken.freq = countsOf s.input := rfl
      have ht : s.headerTaken.tree = s.tree := rfl
      rw [hf, ht]
      exact buildOver_eq s.tree he
  obtain ⟨T, hT⟩ : ∃ T, T = (buildOver (countsOf s.input) s.tree).2 := ⟨_, rfl⟩
  rw [← hT] at hb ⊢
  obtain ⟨u, hu⟩ : ∃ u : State, u = { (s.headerTaken.setTree T).setTreeValid true with dcnt := 0#64 } := ⟨_, rfl⟩
  have hin : u.input = s.input := by rw [hu]; rfl
  have hrp : u.rpos.toNat = 2060 := by
    have : u.rpos = 2060#64 := by rw [hu]; rfl
    rw [this]; rfl
  have hun : u.unread = bitsOfBytes (s.input.drop 2060) := by
    rw [unread_started (s := u) (by rw [hu]; rfl), hrp, hin]
  have hos : ((s.headerTaken.setTree T).setTreeValid true).origSize = le64At s.input 4 := rfl
  have hd : decodeBits u.tree (le64At s.input 4).toNat u.unread = d := by
    have hut : u.tree = T := by rw [hu]; rfl
    rw [hun, hut, hT, decodeBits_buildOver s.tree he]
  have hr : bitsAfter u.tree (le64At s.input 4).toNat u.unread =
      bitsAfter (build (countsOf s.input)).2 (le64At s.input 4).toNat (bitsOfBytes (s.input.drop 2060)) := by
    have hut : u.tree = T := by rw [hu]; rfl
    rw [hun, hut, hT, bitsAfter_buildOver s.tree he]
  have hus : u.sym = s.sym := by rw [hu]; rfl
  have hstep : decompressInput s = (Res.onRaise .truncatedStream (decodeLoop (le64At s.input 4).toNat u)
      fun s => .raise .truncatedStream (s.setTreeValid false)).bind
        fun s => .ok ((s.setTreeValid false).setOutValid true) := by
    rw [decompressInput, readHeader_init, h, if_pos rfl, Res.bind_ok, buildTree_ok hb, Res.bind_ok, decodeBody, hos, hu]
    rfl
  have h0 : u.olen.toNat = 0 := by rw [hu]; rfl
  have hcap : u.obufCap = s.obufCap := by rw [hu]; rfl
  constructor
  · intro hc
    obtain ⟨t, ha, hs, hl, hx, hy⟩ := decodeLoop_spec (le64At s.input 4).toNat u (by rw [hd, h0, hcap]; omega)
    rw [hd] at ha hl hy
    rw [hr] at hx
    rw [hus] at hy
    have hrd : ∃ n, Reads u t n := by
      cases hd2 : d.2 <;> rw [hd2] at hl
      · exact (decodeLoop_reads _ (.inr hl)).imp fun _ h => h.1
      · exact (decodeLoop_reads _ (.inl hl)).imp fun _ h => h.1
    have hsame : SameForReader u s.headerTaken := by rw [hu]; exact ⟨rfl, rfl, rfl, rfl, rfl, rfl, rfl⟩
    refine ⟨t.setTreeValid false, by rw [hu] at ha; exact ha, ?_, ?_, hy,
      hrd.imp fun _ h => h.congr hsame ⟨rfl, rfl, rfl, rfl, rfl, rfl, rfl⟩, ?_⟩
    · unfold SameButDecode at hs
      rw [State.setTreeValid, hs, hu, State.setTreeValid, State.setTree]
    · rw [← hx]; exact State.unread_congr rfl rfl rfl rfl rfl rfl
    · rw [hstep, hl]
      cases hd2 : d.2
      · simp only [Bool.false_eq_true, if_false, Res.onRaise_same, Res.bind_raise]
      · simp only [if_true, Res.onRaise_ok, Res.bind_ok]
  · intro hc
    rw [hstep, decodeLoop_full _ u (by rw [h0]; omega) (by rw [hd, h0, hcap]; omega)]
    rfl

/-! ### Decoding undoes encoding -/

theorem bitsOfBytes_append (a b : List Byte) : bitsOfBytes (a ++ b) = bitsOfBytes a ++ bitsOfBytes b := by
  simp [bitsOfBytes, List.flatMap_append]

/-- The bits of packed bytes start with the bits packed (R164, R171). -/
theorem bits_pack (l : List Bool) : ∃ pad, bitsOfBytes (pack l) = l ++ pad ∧ ∀ b ∈ pad, b = false := by
  induction hn : l.length / 8 generalizing l with
  | zero =>
    have hlt : l.length < 8 := by omega
    match l, hlt with
    | [], _ => exact ⟨[], rfl, by simp⟩
    | [a], _ =>
      exact ⟨List.replicate 7 false, (by decide +kernel : ∀ a, bitsOfBytes (pack [a]) = [a] ++ List.replicate 7 false) a,
        by simp⟩
    | [a, b], _ =>
      exact ⟨List.replicate 6 false,
        (by decide +kernel : ∀ a b, bitsOfBytes (pack [a, b]) = [a, b] ++ List.replicate 6 false) a b, by simp⟩
    | [a, b, c], _ =>
      exact ⟨List.replicate 5 false,
        (by decide +kernel : ∀ a b c, bitsOfBytes (pack [a, b, c]) = [a, b, c] ++ List.replicate 5 false) a b c, by simp⟩
    | [a, b, c, d], _ =>
      exact ⟨List.replicate 4 false,
        (by decide +kernel : ∀ a b c d, bitsOfBytes (pack [a, b, c, d]) = [a, b, c, d] ++ List.replicate 4 false)
          a b c d, by simp⟩
    | [a, b, c, d, e], _ =>
      exact ⟨List.replicate 3 false,
        (by decide +kernel : ∀ a b c d e, bitsOfBytes (pack [a, b, c, d, e]) =
          [a, b, c, d, e] ++ List.replicate 3 false) a b c d e, by simp⟩
    | [a, b, c, d, e, f], _ =>
      exact ⟨List.replicate 2 false,
        (by decide +kernel : ∀ a b c d e f, bitsOfBytes (pack [a, b, c, d, e, f]) =
          [a, b, c, d, e, f] ++ List.replicate 2 false) a b c d e f, by simp⟩
    | [a, b, c, d, e, f, g], _ =>
      exact ⟨List.replicate 1 false,
        (by decide +kernel : ∀ a b c d e f g, bitsOfBytes (pack [a, b, c, d, e, f, g]) =
          [a, b, c, d, e, f, g] ++ List.replicate 1 false) a b c d e f g, by simp⟩
  | succ n ih =>
    obtain ⟨l1, l2, rfl, h1⟩ : ∃ l1 l2, l = l1 ++ l2 ∧ l1.length = 8 :=
      ⟨l.take 8, l.drop 8, (List.take_append_drop 8 l).symm, by rw [List.length_take]; omega⟩
    obtain ⟨pad, hp, hf⟩ := ih l2 (by rw [List.length_append] at hn; omega)
    refine ⟨pad, ?_, hf⟩
    rw [pack_cons h1]
    have : bitsOfBytes [valOf l1] = l1 := by
      match l1, h1 with
      | [a, b, c, d, e, f, g, i], _ =>
        exact (by decide +kernel : ∀ a b c d e f g i,
          bitsOfBytes [valOf [a, b, c, d, e, f, g, i]] = [a, b, c, d, e, f, g, i]) a b c d e f g i
    rw [show valOf l1 :: pack l2 = [valOf l1] ++ pack l2 from rfl, bitsOfBytes_append, this, hp, List.append_assoc]

/-- Walking a built tree along the codes of counted symbols gives the symbols back, whatever bits follow (R199). -/
theorem decodeBits_bodyBits {f : Table U64} {t0 t : Tree} (h : Built f t0 t) (x : List Byte)
    (hx : ∀ c ∈ x, f.at c ≠ 0#64) (more : List Bool) :
    decodeBits t x.length (bodyBits (codes t) x ++ more) = (x, true) := by
  induction x with
  | nil => rfl
  | cons c x ih =>
    obtain ⟨p, hp, -, h2, hm⟩ := h.code_valid (hx c (List.mem_cons_self ..))
    have hbits : bodyBits (codes t) (c :: x) ++ more = p ++ (bodyBits (codes t) x ++ more) := by
      rw [bodyBits, List.flatMap_cons, hp, bits_entryOf p h2, List.append_assoc, ← bodyBits]
    have hw := walkBits_leafPath t 511 t.root [] (c, p) hm (bodyBits (codes t) x ++ more)
    simp only [List.length_nil, List.drop_zero] at hw
    rw [hbits, List.length_cons, decodeBits, hw]
    simp only
    rw [ih fun d hd => hx d (List.mem_cons_of_mem _ hd)]

/-- What `compress` makes is decoded back, with whatever bytes follow it in the container (R199, R100). -/
theorem decodeBits_compressed {x : List Byte} (hne : x ≠ []) (hl : x.length < 2 ^ 64) (rest : List Byte) :
    decodeBits (build (tally x)).2 x.length
      (bitsOfBytes (pack (bodyBits (codes (build (tally x)).2) x) ++ rest)) = (x, true) := by
  have hb := buildOver_built Tree.reset (occurring_tally hl hne)
  obtain ⟨pad, hp, -⟩ := bits_pack (bodyBits (codes (build (tally x)).2) x)
  rw [bitsOfBytes_append, hp, List.append_assoc]
  exact decodeBits_bodyBits hb x (fun c hc => (tally_ne_zero hl c).mpr hc) _

end Sys2Proof.Machine
end

