-- ==== Sys2Proof/Laws/Output.lean ====
section
/-! SUPPORT. What any procedure that writes the output can do to OBUF and OLEN, and what any procedure that reads the input
can do to RPOS and REM, whatever the state it starts in (spec/10_state.md R28, R39; spec/20_memory.md R62, R65). -/

namespace Sys2Proof.Machine

/-- From `s` to `t` some bytes were appended, each below the capacity. -/
def OutputGrows (s t : State) : Prop :=
  ∃ bs, (bs = [] ∨ s.olen.toNat + bs.length ≤ s.obufCap.toNat) ∧ t.obuf = (s.appendAll bs).obuf ∧
    t.olen = (s.appendAll bs).olen ∧ t.obufCap = s.obufCap

theorem OutputGrows.refl (s : State) : OutputGrows s s := ⟨[], .inl rfl, rfl, rfl, rfl⟩

/-- Appending sees OBUF and OLEN alone. -/
theorem State.appendAll_congr {s t : State} (h1 : s.obuf = t.obuf) (h2 : s.olen = t.olen) (bs : List Byte) :
    (s.appendAll bs).obuf = (t.appendAll bs).obuf ∧ (s.appendAll bs).olen = (t.appendAll bs).olen := by
  induction bs generalizing s t with
  | nil => exact ⟨h1, h2⟩
  | cons b bs ih =>
    exact ih (by rw [State.append_obuf, State.append_obuf, h1, h2]) (by rw [State.append_olen, State.append_olen, h2])

theorem OutputGrows.trans {s t u : State} (h1 : OutputGrows s t) (h2 : OutputGrows t u) : OutputGrows s u := by
  obtain ⟨bs, c1, o1, l1, k1⟩ := h1
  obtain ⟨cs, c2, o2, l2, k2⟩ := h2
  obtain ⟨e1, e2⟩ := State.appendAll_congr o1 l1 cs
  refine ⟨bs ++ cs, ?_, by rw [o2, e1, State.appendAll_append], by rw [l2, e2, State.appendAll_append], by rw [k2, k1]⟩
  rcases c1 with rfl | c1
  · rw [State.appendAll_nil] at l1
    rw [l1, k1] at c2
    exact c2
  · have := (State.appendAll_appended c1).1
    rcases c2 with rfl | c2
    · right; simpa using c1
    · right
      rw [l1, this, k1] at c2
      rw [List.length_append]; omega

/-- What is unchanged grows by nothing. -/
theorem OutputGrows.of_eq {s t : State} (h1 : t.obuf = s.obuf) (h2 : t.olen = s.olen) (h3 : t.obufCap = s.obufCap) :
    OutputGrows s t := ⟨[], .inl rfl, h1, h2, h3⟩

theorem OutputGrows.after {s u t : State} (h : OutputGrows u t) (h1 : u.obuf = s.obuf) (h2 : u.olen = s.olen)
    (h3 : u.obufCap = s.obufCap) : OutputGrows s t := (OutputGrows.of_eq h1 h2 h3).trans h

/-- The bytes are appended: they stand from OLEN on and nothing else changes (R62, R65). -/
theorem OutputGrows.appended {s t : State} (h : OutputGrows s t) :
    ∃ bs, Appended s t bs ∧ (bs = [] ∨ t.olen.toNat ≤ s.obufCap.toNat) := by
  obtain ⟨bs, c, o, l, k⟩ := h
  rcases c with rfl | c
  · refine ⟨[], ?_, .inl rfl⟩
    rw [State.appendAll_nil] at o l
    refine ⟨by rw [l]; simp, by simp, fun a _ => by rw [o]⟩
  · obtain ⟨a1, a2, a3⟩ := State.appendAll_appended c
    refine ⟨bs, ⟨by rw [l]; exact a1, fun i hi => by rw [o]; exact a2 i hi, fun a ha => by rw [o]; exact a3 a ha⟩,
      .inr ?_⟩
    rw [l, a1]; omega

/-- The memory stays in canonical form and below the capacity. -/
theorem State.appendAll_wf {s : State} {bs : List Byte} (h : bs = [] ∨ s.olen.toNat + bs.length ≤ s.obufCap.toNat)
    (hw : Mem.wf s.obuf = true) (hb : Mem.below s.obufCap.toNat s.obuf = true) :
    Mem.wf (s.appendAll bs).obuf = true ∧ Mem.below s.obufCap.toNat (s.appendAll bs).obuf = true := by
  induction bs generalizing s with
  | nil => exact ⟨hw, hb⟩
  | cons b bs ih =>
    have hc : s.olen.toNat + (bs.length + 1) ≤ s.obufCap.toNat := by
      rcases h with h | h
      · simp at h
      · simpa using h
    have hlt : s.olen.toNat < s.obufCap.toNat := by omega
    have := ih (s := s.append b)
      (.inr (by rw [State.append_olen_toNat b hlt, State.append_obufCap]; omega))
      (by rw [State.append_obuf]; exact Mem.wf_write _ _ hw)
      (by rw [State.append_obuf, State.append_obufCap]; exact Mem.below_write _ hlt hb)
    rw [State.append_obufCap] at this
    exact this

theorem OutputGrows.wf {s t : State} (h : OutputGrows s t) (hw : Mem.wf s.obuf = true)
    (hb : Mem.below s.obufCap.toNat s.obuf = true) :
    Mem.wf t.obuf = true ∧ Mem.below t.obufCap.toNat t.obuf = true := by
  obtain ⟨bs, c, o, -, k⟩ := h
  rw [o, k]
  exact State.appendAll_wf c hw hb

/-! ### The writers -/

theorem emit_grows {b : Byte} {s t : State} (h : emit b s = .ok t) : OutputGrows s t ∧ t = s.append b := by
  rcases emit_cases b s with ⟨hc, he⟩ | ⟨-, he⟩
  · rw [he] at h
    obtain rfl := Res.ok.inj h
    exact ⟨⟨[b], .inr (by simpa using hc), rfl, rfl, rfl⟩, rfl⟩
  · rw [he] at h; exact absurd h (by simp)

theorem emit_not_raise {b : Byte} {s t : State} {k : ErrKind} : emit b s ≠ .raise k t := by
  unfold emit; split_ifs <;> simp

theorem emit_not_fault {b : Byte} {s : State} {f : Fault} : emit b s ≠ .fault f := by
  unfold emit; split_ifs <;> simp

theorem emitAll_grows {bs : List Byte} {s t : State} (h : emitAll bs s = .ok t) :
    OutputGrows s t ∧ SameButWriter s t ∧ t.acc = s.acc ∧ t.nbits = s.nbits := by
  induction bs generalizing s with
  | nil => obtain rfl := Res.ok.inj h; exact ⟨.refl _, .refl _, rfl, rfl⟩
  | cons b bs ih =>
    rw [emitAll] at h
    obtain ⟨u, hu, ht⟩ := Res.bind_eq_ok.mp h
    obtain ⟨g, rfl⟩ := emit_grows hu
    obtain ⟨g2, w2, a2, n2⟩ := ih ht
    exact ⟨g.trans g2, SameButWriter.trans (t := s.append b) rfl w2, a2, n2⟩

theorem writeBit_grows {b : Bool} {s t : State} (h : writeBit b s = .ok t) : OutputGrows s t ∧ SameButWriter s t := by
  unfold writeBit at h
  simp only at h
  split_ifs at h
  · obtain ⟨u, hu, ht⟩ := Res.bind_eq_ok.mp h
    obtain ⟨g, rfl⟩ := emit_grows hu
    obtain rfl := Res.ok.inj ht
    exact ⟨g.trans (.of_eq rfl rfl rfl), rfl⟩
  · obtain rfl := Res.ok.inj h
    exact ⟨.of_eq rfl rfl rfl, rfl⟩

theorem writeBits_grows {bits : List Bool} {s t : State} (h : writeBits bits s = .ok t) :
    OutputGrows s t ∧ SameButWriter s t := by
  induction bits generalizing s with
  | nil => obtain rfl := Res.ok.inj h; exact ⟨.refl _, .refl _⟩
  | cons b bs ih =>
    rw [writeBits] at h
    obtain ⟨u, hu, ht⟩ := Res.bind_eq_ok.mp h
    obtain ⟨g, w⟩ := writeBit_grows hu
    obtain ⟨g2, w2⟩ := ih ht
    exact ⟨g.trans g2, w.trans w2⟩

theorem flush_cases (s : State) :
    (∃ t, flush s = .ok t ∧ OutputGrows s t ∧ SameButWriter s t) ∨ flush s = .refused .obufFull := by
  unfold flush
  split_ifs
  · exact .inl ⟨s, rfl, .refl s, .refl s⟩
  · rcases emit_cases (padded s.acc s.nbits.toNat) s with ⟨hc, he⟩ | ⟨-, he⟩
    · rw [he, Res.bind_ok]
      exact .inl ⟨_, rfl, (emit_grows he).1.trans (.of_eq rfl rfl rfl), rfl⟩
    · rw [he, Res.bind_refused]; exact .inr rfl

theorem flush_grows {s t : State} (h : flush s = .ok t) : OutputGrows s t ∧ SameButWriter s t := by
  rcases flush_cases s with ⟨u, hu, g⟩ | hr
  · rw [hu] at h; obtain rfl := Res.ok.inj h; exact g
  · rw [hr] at h; exact absurd h (by simp)

theorem SameButWriter.grows_eidx {s t : State} (e : U64) (h : OutputGrows s t) : OutputGrows s { t with eidx := e } :=
  h.trans (.of_eq rfl rfl rfl)

theorem encodeLoop_grows {n : Nat} {s t : State} (h : encodeLoop n s = .ok t) : OutputGrows s t := by
  induction n generalizing s with
  | zero => obtain rfl := Res.ok.inj h; exact .refl _
  | succ n ih =>
    rw [encodeLoop] at h
    obtain ⟨u, hu, ht⟩ := Res.bind_eq_ok.mp h
    have : OutputGrows s u := by
      unfold encodeSymbol at hu
      simp only at hu
      split_ifs at hu
      exact (writeBits_grows hu).1
    exact this.trans ((ih ht).after rfl rfl rfl)

theorem encodeBody_grows {s t : State} (h : encodeBody s = .ok t) : OutputGrows s t := by
  unfold encodeBody at h
  rcases Res.onRaise_eq_ok.mp h with h | ⟨u, -, h⟩
  · exact (encodeLoop_grows h).after rfl rfl rfl
  · rcases flush_cases u with ⟨v, hv, -⟩ | hr
    · rw [hv] at h; simp at h
    · rw [hr] at h; simp at h

/-- ENC.RUN's output from the header on (R193). -/
theorem writeContainer_grows {s t : State}
    (h : ((writeHeader s).bind fun s => (encodeBody s).bind fun s => (flush s).bind fun s => .ok (s.setOutValid true)) =
      .ok t) : OutputGrows s t := by
  obtain ⟨u, hu, h⟩ := Res.bind_eq_ok.mp h
  obtain ⟨v, hv, h⟩ := Res.bind_eq_ok.mp h
  obtain ⟨w, hw, h⟩ := Res.bind_eq_ok.mp h
  obtain rfl := Res.ok.inj h
  exact (((emitAll_grows hu).1.trans (encodeBody_grows hv)).trans (flush_grows hw).1).trans (.of_eq rfl rfl rfl)

/-! ### The readers -/

/-- What reading keeps: RPOS within the input (R39), fewer than eight bits held (R170). -/
def ReaderKept (s t : State) : Prop :=
  t.ilen = s.ilen ∧ (s.rpos.toNat ≤ s.ilen.toNat → t.rpos.toNat ≤ s.ilen.toNat) ∧
    (s.rem.toNat ≤ 7 → t.rem.toNat ≤ 7)

theorem ReaderKept.refl (s : State) : ReaderKept s s := ⟨rfl, id, id⟩

theorem ReaderKept.trans {s t u : State} (h1 : ReaderKept s t) (h2 : ReaderKept t u) : ReaderKept s u := by
  obtain ⟨a1, b1, c1⟩ := h1
  obtain ⟨a2, b2, c2⟩ := h2
  rw [a1] at a2 b2
  exact ⟨a2, fun h => b2 (b1 h), fun h => c2 (c1 h)⟩

theorem ReaderKept.of_eq {s t : State} (h1 : t.ilen = s.ilen) (h2 : t.rpos = s.rpos) (h3 : t.rem = s.rem) :
    ReaderKept s t := ⟨h1, by rw [h2]; exact id, by rw [h3]; exact id⟩

/-- `read_bit`: it delivers a bit, or raises StreamExhausted and changes nothing (R170). -/
theorem readBit_cases (s : State) :
    (∃ t, readBit s = .ok t ∧ SameButReader s t ∧ t.curn = s.curn ∧ ReaderKept s t) ∨
    readBit s = .raise .streamExhausted s := by
  unfold readBit
  split_ifs with h1 h2
  · exact .inr rfl
  · refine .inl ⟨_, rfl, rfl, rfl, rfl, fun _ => ?_, fun _ => ?_⟩
    · have := s.ilen.isLt
      show (s.rpos + 1#64).toNat ≤ _
      rw [BitVec.toNat_add]; simp; omega
    · show (8#4 - 1#4 : BitVec 4).toNat ≤ 7
      decide
  · refine .inl ⟨_, rfl, rfl, rfl, rfl, id, fun h => ?_⟩
    have hr : s.rem.toNat ≠ 0 := fun e => h1 (BitVec.eq_of_toNat_eq e)
    show (s.rem - 1#4).toNat ≤ 7
    rw [BitVec.toNat_sub]
    have := s.rem.isLt
    simp; omega

/-- The walk: it ends, or raises TruncatedStream; only the reader and CURN change (R195). -/
theorem walk_cases (n : Nat) (s : State) :
    (∃ t, walk n s = .ok t ∧ SameButReader s t ∧ ReaderKept s t) ∨
    (∃ t, walk n s = .raise .truncatedStream t ∧ SameButReader s t ∧ ReaderKept s t) := by
  induction n generalizing s with
  | zero =>
    unfold walk
    cases s.walkNode.kind
    · exact .inl ⟨s, rfl, .refl s, .refl s⟩
    · exact .inr ⟨s, rfl, .refl s, .refl s⟩
  | succ n ih =>
    unfold walk
    cases s.walkNode.kind
    · exact .inl ⟨s, rfl, .refl s, .refl s⟩
    · rcases readBit_cases s with ⟨t, ht, hs, -, hk⟩ | hr
      · simp only [ht, Res.onRaise_ok, Res.bind_ok]
        have h1 := hs.trans t.descend_same
        have h2 : ReaderKept s t.descend := hk.trans (.of_eq rfl rfl rfl)
        rcases ih t.descend with ⟨u, hu, a, b⟩ | ⟨u, hu, a, b⟩
        · exact .inl ⟨u, hu, h1.trans a, h2.trans b⟩
        · exact .inr ⟨u, hu, h1.trans a, h2.trans b⟩
      · simp only [hr, Res.onRaise_same, Res.bind_raise]
        exact .inr ⟨s, rfl, .refl s, .refl s⟩

/-- `decode_symbol`: it ends, raises TruncatedStream with nothing emitted, or is refused (R195). -/
theorem decodeSymbol_cases (s : State) :
    (∃ t, decodeSymbol s = .ok t ∧ SameButDecode s t ∧ ReaderKept s t ∧ OutputGrows s t) ∨
    (∃ t, decodeSymbol s = .raise .truncatedStream t ∧ SameButReader s t ∧ ReaderKept s t) ∨
    decodeSymbol s = .refused .obufFull := by
  unfold decodeSymbol
  rcases walk_cases s.bitsLeft { s with curn := s.tree.root } with ⟨t, ht, a, b⟩ | ⟨t, ht, a, b⟩
  · have a' : SameButReader s t := SameButReader.trans (t := { s with curn := s.tree.root }) rfl a
    rw [ht, Res.bind_ok]
    rcases emit_cases t.setSym.sym t.setSym with ⟨-, he⟩ | ⟨-, he⟩
    · refine .inl ⟨_, he, ?_, ?_, ?_⟩
      · exact a'.decode.trans rfl
      · exact (ReaderKept.trans (t := t) b (.of_eq rfl rfl rfl))
      · exact (emit_grows he).1.after a'.obuf a'.olen a'.obufCap
    · exact .inr (.inr he)
  · rw [ht, Res.bind_raise]
    exact .inr (.inl ⟨t, rfl, SameButReader.trans (t := { s with curn := s.tree.root }) rfl a, b⟩)

/-- The decoder's loop, whatever the state (R196). -/
theorem decodeLoop_cases (n : Nat) (s : State) :
    (∃ t, (decodeLoop n s = .ok t ∨ decodeLoop n s = .raise .truncatedStream t) ∧ SameButDecode s t ∧ ReaderKept s t ∧
      OutputGrows s t) ∨ decodeLoop n s = .refused .obufFull := by
  induction n generalizing s with
  | zero => exact .inl ⟨s, .inl rfl, .refl s, .refl s, .refl s⟩
  | succ n ih =>
    rw [decodeLoop]
    rcases decodeSymbol_cases s with ⟨t, ht, a, b, c⟩ | ⟨t, ht, a, b⟩ | hr
    · rw [ht, Res.bind_ok]
      have a1 : SameButDecode s { t with dcnt := t.dcnt + 1#64 } := a.trans rfl
      have b1 : ReaderKept s { t with dcnt := t.dcnt + 1#64 } := b.trans (.of_eq rfl rfl rfl)
      have c1 : OutputGrows s { t with dcnt := t.dcnt + 1#64 } := c.trans (.of_eq rfl rfl rfl)
      rcases ih { t with dcnt := t.dcnt + 1#64 } with ⟨u, hu, a2, b2, c2⟩ | hr
      · exact .inl ⟨u, hu, a1.trans a2, b1.trans b2, c1.trans c2⟩
      · exact .inr hr
    · rw [ht, Res.bind_raise]
      exact .inl ⟨t, .inr rfl, a.decode, b, .of_eq a.obuf a.olen a.obufCap⟩
    · rw [hr, Res.bind_refused]; exact .inr rfl

/-- DEC.RUN's step 3 (R196). -/
theorem decodeBody_cases (s : State) :
    (∃ t, (decodeBody s = .ok t ∧ SameButDecode s t ∨
        decodeBody s = .raise .truncatedStream (t.setTreeValid false) ∧ SameButDecode s t) ∧ ReaderKept s t ∧
      OutputGrows s t) ∨ decodeBody s = .refused .obufFull := by
  unfold decodeBody
  rcases decodeLoop_cases s.origSize.toNat { s with dcnt := 0#64 } with ⟨t, ht, a, b, c⟩ | hr
  · have a1 : SameButDecode s t := SameButDecode.trans (t := { s with dcnt := 0#64 }) rfl a
    have c1 : OutputGrows s t := c.after rfl rfl rfl
    rcases ht with ht | ht
    · rw [ht]; exact .inl ⟨t, .inl ⟨rfl, a1⟩, b, c1⟩
    · rw [ht, Res.onRaise_same]; exact .inl ⟨t, .inr ⟨rfl, a1⟩, b, c1⟩
  · rw [hr]; exact .inr rfl

end Sys2Proof.Machine
end

