-- ==== Sys2Proof/Laws/Commands.lean ====
section
/-! SUPPORT. One lemma per command: everything `exec` can answer with a next state, whatever the state it starts in
(spec/60_exceptions.md R210, R211). Later proofs cite these and do not unfold `exec`. -/

namespace Sys2Proof.Machine

theorem exec_fcRun (s : State) :
    exec .fcRun s = .next { s with freq := tally s.input, err := 0#4, busy := false } := rfl

theorem exec_tbBuild_next {s t : State} (h : exec .tbBuild s = .next t) :
    (occurring s.freq ≠ [] ∧ Built s.freq s.tree t.tree ∧ t.tree = (buildOver s.freq s.tree).2 ∧
      t = { s with tree := t.tree, treeValid := true, err := 0#4, busy := false }) ∨
    (occurring s.freq = [] ∧ t = { s with
      tree := { s.tree with nn := 0#10, root := 0, nact := 0#9 }, treeValid := false, err := 1#4, busy := false }) := by
  have e0 : exec .tbBuild s = endCommand (buildTree s) := rfl
  rw [e0] at h
  by_cases ho : occurring s.freq = []
  · rw [buildTree_fail (buildOver_empty s.tree ho)] at h
    obtain rfl := Host.Outcome.next.inj h
    exact .inr ⟨ho, rfl⟩
  · rw [buildTree_ok (buildOver_eq s.tree ho)] at h
    have hb := buildOver_built s.tree ho
    obtain ⟨T, hT⟩ : ∃ T, T = (buildOver s.freq s.tree).2 := ⟨_, rfl⟩
    rw [← hT] at h hb
    obtain rfl := Host.Outcome.next.inj h
    exact .inl ⟨ho, hb, hT, rfl⟩

/-- Whatever the store, CG.GEN's traversal changes the code table and the stack alone. -/
theorem visit_frame (n : Nat) (h : Handle) (pat : Pattern) (len : BitVec 8) (s : State) :
    (∃ t, visit n h pat len s = .ok t ∧ t = { s with code := t.code, stack := t.stack }) ∨
    visit n h pat len s = .fault .nodeStoreNotATree := by
  induction n generalizing h pat len s with
  | zero => exact .inr rfl
  | succ n ih =>
    unfold visit
    simp only
    cases (s.tree.nodeAt h).kind with
    | leaf => exact .inl ⟨_, rfl, rfl⟩
    | internal =>
      simp only
      rcases ih (s.tree.nodeAt h).left (extendPath pat false) (len + 1#8)
        (s.pushFrame ⟨(s.tree.nodeAt h).right, extendPath pat true, len + 1#8⟩) with ⟨t, ht, hs⟩ | hf
      · rw [ht, Res.bind_ok]
        cases hst : t.stack with
        | nil => exact .inr rfl
        | cons f rest =>
          rcases ih f.handle f.pat f.len { t with stack := rest } with ⟨u, hu, hsu⟩ | hf
          · refine .inl ⟨u, hu, ?_⟩
            rw [hsu, hs]; rfl
          · exact .inr hf
      · rw [hf]; exact .inr rfl

theorem exec_cgGen_next {s t : State} (h : exec .cgGen s = .next t) :
    (s.treeValid = true ∧ t = { s with code := t.code, stack := t.stack, err := 0#4, busy := false }) ∨
    (s.treeValid = false ∧ t = { s with err := 7#4, busy := false }) := by
  have e0 : exec .cgGen s = endCommand (generateCodes s) := rfl
  rw [e0] at h
  rcases (Bool.eq_false_or_eq_true s.treeValid).symm with hv | hv
  · rw [generateCodes_noTree hv] at h
    exact .inr ⟨hv, (Host.Outcome.next.inj h).symm⟩
  · refine .inl ⟨hv, ?_⟩
    have hr : requireTree s = .ok s := by simp [requireTree, hv]
    rw [generateCodes, hr, Res.bind_ok, traverse] at h
    rcases visit_frame 511 (clearCode s).tree.root 0#255 0#8 { clearCode s with stack := [] } with ⟨u, hu, hs⟩ | hf
    · rw [hu] at h
      obtain rfl := Host.Outcome.next.inj h
      rw [State.finish, hs]; rfl
    · rw [hf] at h; exact absurd h (by simp)

/-- A command of the writer. -/
theorem endWriter_next {r : Res} {s t : State}
    (hr : (∀ u, r = .ok u → OutputGrows s u ∧ SameButWriter s u) ∧ ∀ k u, r ≠ .raise k u)
    (h : endCommand r = .next t) :
    OutputGrows s t ∧ t = { s with
      obuf := t.obuf, olen := t.olen, acc := t.acc, nbits := t.nbits, err := 0#4, busy := false } := by
  rcases endCommand_eq_next.mp h with ⟨u, hu, rfl⟩ | ⟨k, u, hu, -⟩
  · obtain ⟨g, w⟩ := hr.1 u hu
    refine ⟨g.trans (.of_eq rfl rfl rfl), ?_⟩
    unfold SameButWriter at w
    rw [State.finish, w]
  · exact absurd hu (hr.2 k u)

theorem writeBits_not_raise (bits : List Bool) (s u : State) (k : ErrKind) : writeBits bits s ≠ .raise k u := by
  rcases writeBits_cases bits s with ⟨t, ht, -⟩ | hr
  · rw [ht]; simp
  · rw [hr]; simp

theorem writeBit_eq (b : Bool) (s : State) : writeBit b s = writeBits [b] s := by
  cases h : writeBit b s <;> rw [writeBits, h] <;> rfl

theorem exec_bwBit_next {b : Bool} {s t : State} (h : exec (.bwBit b) s = .next t) :
    OutputGrows s t ∧ t = { s with
      obuf := t.obuf, olen := t.olen, acc := t.acc, nbits := t.nbits, err := 0#4, busy := false } :=
  endWriter_next (r := writeBit b s) ⟨fun _ hu => writeBit_grows hu, fun k u => by
    rw [writeBit_eq]; exact writeBits_not_raise _ _ _ _⟩ h

theorem exec_bwBits_next {s t : State} (h : exec .bwBits s = .next t) :
    OutputGrows s t ∧ t = { s with
      obuf := t.obuf, olen := t.olen, acc := t.acc, nbits := t.nbits, err := 0#4, busy := false } :=
  endWriter_next (r := writeBits s.wbBits s) ⟨fun _ hu => writeBits_grows hu, fun _ _ => writeBits_not_raise _ _ _ _⟩ h

theorem exec_bwFlush_next {s t : State} (h : exec .bwFlush s = .next t) :
    OutputGrows s t ∧ t = { s with
      obuf := t.obuf, olen := t.olen, acc := t.acc, nbits := t.nbits, err := 0#4, busy := false } :=
  endWriter_next (r := flush s) ⟨fun _ hu => flush_grows hu, fun k u => by
    rcases flush_cases s with ⟨t, ht, -⟩ | hr
    · rw [ht]; simp
    · rw [hr]; simp⟩ h

theorem emitAll_not_raise (bs : List Byte) (s u : State) (k : ErrKind) : emitAll bs s ≠ .raise k u := by
  induction bs generalizing s with
  | nil => simp [emitAll]
  | cons b bs ih =>
    rw [emitAll]
    intro h
    rcases Res.bind_eq_raise.mp h with h | ⟨t, -, h⟩
    · exact emit_not_raise h
    · exact ih t h

theorem exec_cfWrhdr_next {s t : State} (h : exec .cfWrhdr s = .next t) :
    OutputGrows s t ∧ t = { s with
      obuf := t.obuf, olen := t.olen, acc := t.acc, nbits := t.nbits, err := 0#4, busy := false } ∧
    t.acc = s.acc ∧ t.nbits = s.nbits := by
  have e0 : exec .cfWrhdr s = endCommand (emitAll (header s.origSize s.freq) s) := rfl
  rw [e0] at h
  obtain ⟨h1, h2⟩ := endWriter_next (s := s) ⟨fun _ hu => ⟨(emitAll_grows hu).1, (emitAll_grows hu).2.1⟩,
    fun _ _ => emitAll_not_raise _ _ _ _⟩ h
  refine ⟨h1, h2, ?_⟩
  rcases endCommand_eq_next.mp h with ⟨u, hu, rfl⟩ | ⟨k, u, hu, -⟩
  · exact (emitAll_grows hu).2.2
  · exact absurd hu (emitAll_not_raise _ _ _ _)

theorem exec_brBit_next {s t : State} (h : exec .brBit s = .next t) :
    ReaderKept s t ∧ ((t = { s with
      cur := t.cur, rem := t.rem, rpos := t.rpos, rbit := t.rbit, err := 0#4, busy := false }) ∨
    t = { s with err := 5#4, busy := false }) := by
  have e0 : exec .brBit s = endCommand (readBit s) := rfl
  rw [e0] at h
  rcases readBit_cases s with ⟨u, hu, hs, hc, hk⟩ | hr
  · rw [hu] at h
    obtain rfl := Host.Outcome.next.inj h
    refine ⟨hk.trans (.of_eq rfl rfl rfl), .inl ?_⟩
    unfold SameButReader at hs
    rw [hc] at hs
    rw [State.finish, hs]
  · rw [hr] at h
    obtain rfl := Host.Outcome.next.inj h
    exact ⟨.of_eq rfl rfl rfl, .inr rfl⟩

theorem exec_cfRdhdr_next {s t : State} (h : exec .cfRdhdr s = .next t) :
    (2060 ≤ s.ilen.toNat ∧ t = { s with
      origSize := t.origSize, freq := t.freq, rpos := 2060#64, cur := 0#8, rem := 0#4, err := 0#4, busy := false }) ∨
    t = { s with err := 2#4, busy := false } := by
  have e0 : exec .cfRdhdr s = endCommand (readHeader s) := rfl
  rw [e0, readHeader] at h
  split_ifs at h with hg
  · obtain rfl := Host.Outcome.next.inj h
    refine .inl ⟨?_, rfl⟩
    simp only [headerOk, Bool.and_eq_true, decide_eq_true_eq] at hg
    exact hg.1.1
  · exact .inr (Host.Outcome.next.inj h).symm

theorem exec_encSym_next {c : Byte} {s t : State} (h : exec (.encSym c) s = .next t) :
    (OutputGrows s t ∧ t = { s with
      obuf := t.obuf, olen := t.olen, acc := t.acc, nbits := t.nbits, err := 0#4, busy := false }) ∨
    t = { s with err := 4#4, busy := false } := by
  have e0 : exec (.encSym c) s = endCommand (encodeSymbol c s) := rfl
  rw [e0] at h
  unfold encodeSymbol at h
  simp only at h
  split_ifs at h with hv
  · exact .inr (Host.Outcome.next.inj h).symm
  · exact .inl (endWriter_next ⟨fun _ hu => writeBits_grows hu, fun _ _ => writeBits_not_raise _ _ _ _⟩ h)

theorem exec_decSym_next {s t : State} (h : exec .decSym s = .next t) :
    ReaderKept s t ∧ OutputGrows s t ∧
    ((s.treeValid = true ∧ SameButDecode { s with err := 0#4, busy := false } t) ∨
     (s.treeValid = true ∧ SameButReader { s with err := 3#4, busy := false } t) ∨
     (s.treeValid = false ∧ t = { s with err := 7#4, busy := false })) := by
  have e0 : exec .decSym s = endCommand ((requireTree s).bind decodeSymbol) := rfl
  rw [e0] at h
  rcases (Bool.eq_false_or_eq_true s.treeValid).symm with hv | hv
  · have hr : requireTree s = .raise .illegalCommand s := by simp [requireTree, hv]
    rw [hr] at h
    obtain rfl := Host.Outcome.next.inj h
    exact ⟨.of_eq rfl rfl rfl, .of_eq rfl rfl rfl, .inr (.inr ⟨hv, rfl⟩)⟩
  · have hr : requireTree s = .ok s := by simp [requireTree, hv]
    rw [hr, Res.bind_ok] at h
    rcases decodeSymbol_cases s with ⟨u, hu, a, b, c⟩ | ⟨u, hu, a, b⟩ | hf
    · rw [hu] at h
      obtain rfl := Host.Outcome.next.inj h
      refine ⟨b.trans (.of_eq rfl rfl rfl), c.trans (.of_eq rfl rfl rfl), .inl ⟨hv, ?_⟩⟩
      unfold SameButDecode at a ⊢
      rw [State.finish, a]
    · rw [hu] at h
      obtain rfl := Host.Outcome.next.inj h
      refine ⟨b.trans (.of_eq rfl rfl rfl), .of_eq a.obuf a.olen a.obufCap, .inr (.inl ⟨hv, ?_⟩)⟩
      unfold SameButReader at a ⊢
      rw [State.abort, a]; rfl
    · rw [hf] at h; exact absurd h (by simp)

/-- ENC.RUN: on an empty input, or on another one, where `out` is the container (R193). -/
theorem exec_encRun_next {s t : State} (h : exec .encRun s = .next t) :
    (s.ilen = 0#64 ∧ t = { s.init with
      freq := Vector.replicate 256 0#64, tree := { s.tree with nn := 0#10, root := 0, nact := 0#9 }
      err := 1#4, busy := false }) ∨
    (s.ilen ≠ 0#64 ∧ ∃ out, compress s.input = .ok out ∧ out.length ≤ s.obufCap.toNat ∧ Appended s.init t out ∧
      OutputGrows s.init t ∧ Built (tally s.input) s.tree t.tree ∧ t.code = codes t.tree ∧
      t = { s with
        freq := tally s.input, code := t.code, tree := t.tree, obuf := t.obuf, olen := t.olen, eidx := s.ilen, stack := []
        origSize := s.ilen, outValid := true, treeValid := false, acc := 0#8, nbits := 0#3
        cur := 0#8, rem := 0#4, rpos := 0#64, err := 0#4, busy := false }) := by
  have e0 : exec .encRun s = endCommand (compressInput s) := rfl
  rw [e0] at h
  by_cases hz : s.ilen = 0#64
  · rw [compressInput_empty hz] at h
    exact .inl ⟨hz, (Host.Outcome.next.inj h).symm⟩
  · right
    have hne : s.input ≠ [] := fun e => hz (input_eq_nil.mp e)
    have hocc := occurring_tally (length_input_lt s) hne
    have hb := buildOver_built s.tree hocc
    have hco := codes_buildOver s.tree hocc
    obtain ⟨h1, h2⟩ := compressInput_spec hz
    obtain ⟨T, hT⟩ : ∃ T, T = (buildOver (tally s.input) s.tree).2 := ⟨_, rfl⟩
    have hcomp : compress s.input = .ok (header s.ilen (tally s.input) ++ pack (bodyBits (codes T) s.input)) := by
      rw [hT, hco, compress, if_neg hne]
      simp only [length_input]
      rw [show BitVec.ofNat 64 s.ilen.toNat = s.ilen by simp]
    rw [← hT] at h1 h2 hb
    refine ⟨hz, _, hcomp, ?_⟩
    rcases Nat.lt_or_ge s.obufCap.toNat (header s.ilen (tally s.input) ++ pack (bodyBits (codes T) s.input)).length with
      hc | hc
    · rw [h2 hc] at h; exact absurd h (by simp)
    · obtain ⟨u, hu, ha, hs⟩ := h1 hc
      rw [hu] at h
      obtain rfl := Host.Outcome.next.inj h
      have hg : OutputGrows s.init u := by
        rw [compressInput_eq hz] at hu
        exact (writeContainer_grows hu).after rfl rfl rfl
      refine ⟨hc, ha, hg.trans (.of_eq rfl rfl rfl), ?_, ?_, ?_⟩
      · have : u.finish.tree = T := by rw [hs]; rfl
        rw [this]; exact hb
      · rw [hs]; rfl
      · rw [State.finish, hs]

/-- DEC.RUN: a bad header, an all-zero table, or a body to decode (R196). -/
theorem exec_decRun_next {s t : State} (h : exec .decRun s = .next t) :
    (formatOk s.input = false ∧ t = { s.init with err := 2#4, busy := false }) ∨
    (formatOk s.input = true ∧ occurring (countsOf s.input) = [] ∧ t = { s.headerTaken with
      tree := { s.tree with nn := 0#10, root := 0, nact := 0#9 }, err := 1#4, busy := false }) ∨
    (formatOk s.input = true ∧ occurring (countsOf s.input) ≠ [] ∧
      let d := decodeBits (build (countsOf s.input)).2 (le64At s.input 4).toNat (bitsOfBytes (s.input.drop 2060))
      d.1.length ≤ s.obufCap.toNat ∧ Appended s.init t d.1 ∧ OutputGrows s.init t ∧ ReaderKept s.headerTaken t ∧
      Built (countsOf s.input) s.tree t.tree ∧ t.tree = (buildOver (countsOf s.input) s.tree).2 ∧
      t.unread = bitsAfter (build (countsOf s.input)).2 (le64At s.input 4).toNat (bitsOfBytes (s.input.drop 2060)) ∧
      t.sym = d.1.getLastD s.sym ∧ (∃ n, Reads s.headerTaken t n) ∧
      t.err = (if d.2 then 0#4 else 3#4) ∧ t.outValid = d.2 ∧
      t = { s.headerTaken with
        tree := t.tree, treeValid := false, outValid := t.outValid, cur := t.cur, rem := t.rem, rpos := t.rpos
        rbit := t.rbit, curn := t.curn, sym := t.sym, dcnt := t.dcnt, obuf := t.obuf, olen := t.olen
        err := t.err, busy := false }) := by
  have e0 : exec .decRun s = endCommand (decompressInput s) := rfl
  rw [e0] at h
  cases hf : formatOk s.input with
  | false =>
    rw [decompressInput_format hf] at h
    exact .inl ⟨rfl, (Host.Outcome.next.inj h).symm⟩
  | true =>
    right
    by_cases ho : occurring (countsOf s.input) = []
    · rw [decompressInput_empty hf ho] at h
      exact .inl ⟨rfl, ho, (Host.Outcome.next.inj h).symm⟩
    · refine .inr ⟨rfl, ho, ?_⟩
      intro d
      have hb := buildOver_built s.tree ho
      obtain ⟨h1, h2⟩ := decompressInput_spec hf ho
      obtain ⟨T, hT⟩ : ∃ T, T = (buildOver (countsOf s.input) s.tree).2 := ⟨_, rfl⟩
      have hbt : buildTree s.headerTaken = .ok ((s.headerTaken.setTree T).setTreeValid true) :=
        buildTree_ok (by
          have hfr : s.headerTaken.freq = countsOf s.input := rfl
          have htr : s.headerTaken.tree = s.tree := rfl
          rw [hfr, htr, hT]; exact buildOver_eq s.tree ho)
      rw [← hT] at h1 hb
      rcases Nat.lt_or_ge s.obufCap.toNat d.1.length with hc | hc
      · rw [h2 hc] at h; exact absurd h (by simp)
      · obtain ⟨u, ha, hs, hun, hsy, hrd, hr⟩ := h1 hc
        have hsplit : decompressInput s = (decodeBody ((s.headerTaken.setTree T).setTreeValid true)).bind
            fun s => .ok ((s.setTreeValid false).setOutValid true) := by
          rw [decompressInput, readHeader_init, hf, if_pos rfl, Res.bind_ok, hbt, Res.bind_ok]
        obtain ⟨w, hw⟩ : ∃ w, w = (s.headerTaken.setTree T).setTreeValid true := ⟨_, rfl⟩
        have hgk : OutputGrows s.init u ∧ ReaderKept s.headerTaken u := by
          rw [hsplit, ← hw] at hr
          have w1 : w.obuf = s.init.obuf := by rw [hw]; rfl
          have w2 : w.olen = s.init.olen := by rw [hw]; rfl
          have w3 : w.obufCap = s.init.obufCap := by rw [hw]; rfl
          have w4 : ReaderKept s.headerTaken w := .of_eq (by rw [hw]; rfl) (by rw [hw]; rfl) (by rw [hw]; rfl)
          rcases decodeBody_cases w with ⟨v, hv, b, c⟩ | hf
          · rcases hv with ⟨hv, -⟩ | ⟨hv, -⟩
            · rw [hv, Res.bind_ok] at hr
              cases hd2 : d.2 with
              | false => rw [show (decodeBits _ _ _).2 = false from hd2] at hr; simp at hr
              | true =>
                rw [show (decodeBits _ _ _).2 = true from hd2, if_pos rfl] at hr
                have e := Res.ok.inj hr
                have q1 : u.obuf = v.obuf := by
                  have := congrArg State.obuf e; exact this.symm
                have q2 : u.olen = v.olen := by
                  have := congrArg State.olen e; exact this.symm
                have q3 : u.obufCap = v.obufCap := by
                  have := congrArg State.obufCap e; exact this.symm
                have q4 : u.ilen = v.ilen := by
                  have := congrArg State.ilen e; exact this.symm
                have q5 : u.rpos = v.rpos := by
                  have := congrArg State.rpos e; exact this.symm
                have q6 : u.rem = v.rem := by
                  have := congrArg State.rem e; exact this.symm
                exact ⟨(c.after w1 w2 w3).trans (.of_eq q1 q2 q3), (w4.trans b).trans (.of_eq q4 q5 q6)⟩
            · rw [hv, Res.bind_raise] at hr
              cases hd2 : d.2 with
              | true => rw [show (decodeBits _ _ _).2 = true from hd2] at hr; simp at hr
              | false =>
                rw [show (decodeBits _ _ _).2 = false from hd2, if_neg (by simp)] at hr
                have e := (Res.raise.inj hr).2
                rw [← e]
                exact ⟨(c.after w1 w2 w3).trans (.of_eq rfl rfl rfl), (w4.trans b).trans (.of_eq rfl rfl rfl)⟩
          · rw [hf, Res.bind_refused] at hr
            split_ifs at hr
        obtain ⟨hg, hk⟩ := hgk
        rw [hr] at h
        refine ⟨hc, ?_⟩
        cases hd2 : d.2 with
        | true =>
          rw [show (decodeBits _ _ _).2 = true from hd2, if_pos rfl] at h
          obtain rfl := Host.Outcome.next.inj h
          refine ⟨ha, hg.trans (.of_eq rfl rfl rfl), hk.trans (.of_eq rfl rfl rfl), ?_, ?_, ?_, hsy,
            hrd.imp fun _ h => h.congr ⟨rfl, rfl, rfl, rfl, rfl, rfl, rfl⟩ ⟨rfl, rfl, rfl, rfl, rfl, rfl, rfl⟩, rfl, rfl, ?_⟩
          · have : (u.setOutValid true).finish.tree = T := by rw [hs]; rfl
            rw [this]; exact hb
          · rw [← hT, hs]; rfl
          · rw [← hun]; exact State.unread_congr rfl rfl rfl rfl rfl rfl
          · rw [State.setOutValid, State.finish, hs]
        | false =>
          rw [show (decodeBits _ _ _).2 = false from hd2, if_neg (by simp)] at h
          obtain rfl := Host.Outcome.next.inj h
          refine ⟨ha, hg.trans (.of_eq rfl rfl rfl), hk.trans (.of_eq rfl rfl rfl), ?_, ?_, ?_, hsy,
            hrd.imp fun _ h => h.congr ⟨rfl, rfl, rfl, rfl, rfl, rfl, rfl⟩ ⟨rfl, rfl, rfl, rfl, rfl, rfl, rfl⟩, rfl, ?_, ?_⟩
          · have : (u.abort .truncatedStream).tree = T := by rw [hs]; rfl
            rw [this]; exact hb
          · rw [← hT, hs]; rfl
          · rw [← hun]; exact State.unread_congr rfl rfl rfl rfl rfl rfl
          · rw [hs]; rfl
          · rw [State.abort, hs]

end Sys2Proof.Machine
end

