-- ==== Sys2Proof/Laws/Encoding.lean ====
section
/-! SUPPORT. The opcode map selects at most one row (spec/30_encoding.md R91), so the decoder's answer is that row's command. -/

namespace Sys2Proof

/-- Every mask keeps the whole op field, and every pattern lies in it. -/
theorem opcodeTable_masks : ∀ r ∈ opcodeTable, r.mask &&& 0xFF#16 = 0xFF#16 ∧ r.pattern &&& 0xFF#16 = r.pattern := by
  simp only [opcodeTable, List.mem_cons, List.not_mem_nil, or_false, forall_eq_or_imp, forall_eq]
  decide

/-- A word that selects a row has the row's pattern as its op field. -/
theorem OpcodeRow.selects_op {r : OpcodeRow} {w : Word} (hr : r ∈ opcodeTable) (h : r.selects w = true) :
    w &&& 0xFF#16 = r.pattern := by
  obtain ⟨hm, hp⟩ := opcodeTable_masks r hr
  have h' : w &&& r.mask = r.pattern := eq_of_beq h
  calc w &&& 0xFF#16 = w &&& (r.mask &&& 0xFF#16) := by rw [hm]
    _ = (w &&& r.mask) &&& 0xFF#16 := (BitVec.and_assoc w _ _).symm
    _ = r.pattern := by rw [h', hp]

/-- The patterns are pairwise different. -/
theorem opcodeTable_patterns : opcodeTable.Pairwise fun r q => r.pattern ≠ q.pattern := by
  have : (opcodeTable.map OpcodeRow.pattern).Pairwise (· ≠ ·) := by decide
  exact List.pairwise_map.mp this

/-- The decoder answers the command of the row that a word selects. -/
theorem decode_of_selects {r : OpcodeRow} {w : Word} (hr : r ∈ opcodeTable) (h : r.selects w = true) :
    decode w = .command (r.make w) := by
  have key : ∀ l : List OpcodeRow, (∀ q ∈ l, q ∈ opcodeTable) → l.Pairwise (fun r q => r.pattern ≠ q.pattern) → r ∈ l →
      l.find? (fun q => q.selects w) = some r := by
    intro l hl hp hm
    induction l with
    | nil => simp at hm
    | cons q l ih =>
      rw [List.pairwise_cons] at hp
      rcases List.mem_cons.mp hm with rfl | hm'
      · simp [h]
      · have hq : q.selects w = false := by
          by_contra hc
          have h1 := OpcodeRow.selects_op (hl q (List.mem_cons_self ..)) (by simpa using hc)
          have h2 := OpcodeRow.selects_op hr h
          exact hp.1 r hm' (h1.symm.trans h2)
        rw [List.find?_cons_of_neg (by simp [hq])]
        exact ih (fun x hx => hl x (List.mem_cons_of_mem _ hx)) hp.2 hm'
  rw [decode, key opcodeTable (fun _ h => h) opcodeTable_patterns hr]

/-- A word is illegal exactly when it selects no row (R93). -/
theorem decode_illegal_iff (w : Word) :
    (∃ e, decode w = .illegal e) ↔ ∀ r ∈ opcodeTable, r.selects w = false := by
  unfold decode
  cases h : opcodeTable.find? (fun r => r.selects w) with
  | none => simpa using h
  | some r =>
    have h1 := List.find?_some h
    have h2 := List.mem_of_find?_eq_some h
    simp only [reduceCtorEq, exists_false, false_iff, not_forall]
    exact ⟨r, h2, by simpa using h1⟩

end Sys2Proof
end

