-- ==== Sys2Proof/Laws/PerInstr.lean ====
section
/-! SUPPORT. Statements made per instruction, about the instruction as syntax (LAWS.json): family EncodeMbz. -/

namespace Sys2Proof.Laws.EncodeMbz

/-- R90. The encoding of a command has its format's must-be-zero bits clear. -/
def Statement (i : Instr) : Prop := i.format.mbzClear (encode i) = true

theorem fcRun : Statement .fcRun := rfl
theorem tbBuild : Statement .tbBuild := rfl
theorem cgGen : Statement .cgGen := rfl
theorem bwBit (b : Bool) : Statement (.bwBit b) := by cases b <;> rfl
theorem bwBits : Statement .bwBits := rfl
theorem bwFlush : Statement .bwFlush := rfl
theorem brBit : Statement .brBit := rfl
theorem cfWrhdr : Statement .cfWrhdr := rfl
theorem cfRdhdr : Statement .cfRdhdr := rfl
theorem encSym (s : Byte) : Statement (.encSym s) := rfl
theorem encRun : Statement .encRun := rfl
theorem decSym : Statement .decSym := rfl
theorem decRun : Statement .decRun := rfl

end Sys2Proof.Laws.EncodeMbz
end

