-- ==== Sys2Proof/Laws/Step.lean ====
section
/-! SUPPORT. The step by the host's next transaction (spec/10_state.md R23 to R25; spec/70_reset_and_hazards.md R250). -/

namespace Sys2Proof.Machine

theorem step_of_host {s : State} {a : HostAct} {rest : List HostAct} (h : s.host = a :: rest) :
    step s = transact a (s.popHost rest) := by
  simp only [step, stepTransaction, h]

/-- A write to CMD while idle issues the word (R24). -/
theorem hostWrite_cmd {s : State} (hb : s.busy = false) (w : Word) :
    hostWrite s (.reg 0x00) (w.setWidth 264) = issue w s := by
  have hfit : fits 16 (w.setWidth 264 : HostWord) = true := by
    simp only [fits, decide_eq_true_eq, BitVec.toNat_setWidth]
    have := w.isLt
    omega
  have hw : ((w.setWidth 264 : HostWord).setWidth 16) = w := by simp
  simp only [hostWrite, hb, Bool.false_eq_true, if_false, if_true, hfit, hw]

/-- A write to any other place while idle (R23, R44). -/
theorem hostWrite_other {s : State} (hb : s.busy = false) {p : Port} (hp : p ≠ .reg 0x00) (v : HostWord) :
    hostWrite s p v = writePort s v p := by
  simp only [hostWrite, hb, Bool.false_eq_true, if_false, hp]

theorem hostWrite_busy {s : State} (hb : s.busy = true) (p : Port) (v : HostWord) :
    hostWrite s p v = .refused .hostAccessWhileBusy := by
  simp only [hostWrite, hb, if_true]

/-- A value that fits is written; one that does not is refused (log 7). -/
theorem writeField_fits {w : Nat} {v : HostWord} (h : v.toNat < 2 ^ w) (f : BitVec w → State) :
    writeField w v f = .next (f (v.setWidth w)) := by
  simp [writeField, fits, h]

theorem writeField_cases (w : Nat) (v : HostWord) (f : BitVec w → State) :
    writeField w v f = .next (f (v.setWidth w)) ∨ writeField w v f = .refused .valueTooWide := by
  unfold writeField
  split_ifs
  · exact .inl rfl
  · exact .inr rfl

theorem issue_command {w : Word} {i : Instr} (h : decode w = .command i) (s : State) : issue w s = exec i s.setBusy := by
  simp only [issue, h]

theorem issue_illegal {w : Word} {e : IllegalWord} (h : decode w = .illegal e) (s : State) :
    issue w s = .next (s.setBusy.abort .illegalCommand) := by
  simp only [issue, h]

/-- What a host write to a place other than CMD can do. -/
theorem writePort_next {s t : State} {v : HostWord} {p : Port} (h : writePort s v p = .next t) :
    t = s ∨ (∃ x, t = { s with ilen := x } ∧ x.toNat ≤ s.ibufCap.toNat) ∨ (∃ x, t = { s with origSize := x }) ∨
    (∃ x, t = { s with wbLen := x }) ∨ (∃ x, t = { s with wbVal := x }) ∨
    (∃ a x, a < s.ibufCap.toNat ∧ t = { s with ibuf := Mem.write s.ibuf a x }) ∨ (∃ f, t = { s with freq := f }) := by
  cases p with
  | reg no =>
    simp only [writePort, writeReg] at h
    split_ifs at h with h1 h2 h3 h4 h5 h6
    · rcases writeField_cases 64 v (fun x => { s with ilen := x }) with e | e
      · rw [e] at h
        obtain rfl := Host.Outcome.next.inj h
        refine .inr (.inl ⟨v.setWidth 64, rfl, ?_⟩)
        have hv : v.toNat < 2 ^ 64 := by
          unfold writeField at e
          split_ifs at e with hf
          simpa [fits] using hf
        have hc : v.toNat ≤ s.ibufCap.toNat := by
          simp only [fits, hv, decide_true, Bool.true_and, Bool.not_eq_true', decide_eq_false_iff_not,
            Decidable.not_not] at h2
          exact h2
        rw [BitVec.toNat_setWidth, Nat.mod_eq_of_lt hv]
        exact hc
      · rw [e] at h; exact absurd h (by simp)
    · rcases writeField_cases 64 v (fun x => { s with origSize := x }) with e | e
      · rw [e] at h; exact .inr (.inr (.inl ⟨_, (Host.Outcome.next.inj h).symm⟩))
      · rw [e] at h; exact absurd h (by simp)
    · rcases writeField_cases 8 v (fun x => { s with wbLen := x }) with e | e
      · rw [e] at h; exact .inr (.inr (.inr (.inl ⟨_, (Host.Outcome.next.inj h).symm⟩)))
      · rw [e] at h; exact absurd h (by simp)
    · rcases writeField_cases 255 v (fun x => { s with wbVal := x }) with e | e
      · rw [e] at h; exact .inr (.inr (.inr (.inr (.inl ⟨_, (Host.Outcome.next.inj h).symm⟩))))
      · rw [e] at h; exact absurd h (by simp)
    · exact .inl (Host.Outcome.next.inj h).symm
  | ibuf a =>
    simp only [writePort] at h
    split_ifs at h with ha
    rcases writeField_cases 8 v (fun x => { s with ibuf := Mem.write s.ibuf a x }) with e | e
    · rw [e] at h
      exact .inr (.inr (.inr (.inr (.inr (.inl ⟨a, _, ha, (Host.Outcome.next.inj h).symm⟩)))))
    · rw [e] at h; exact absurd h (by simp)
  | obuf a => simp [writePort] at h
  | freq i =>
    simp only [writePort] at h
    split_ifs at h with hi
    rcases writeField_cases 64 v (fun x => { s with freq := s.freq.setIfInBounds i x }) with e | e
    · rw [e] at h
      exact .inr (.inr (.inr (.inr (.inr (.inr ⟨_, (Host.Outcome.next.inj h).symm⟩)))))
    · rw [e] at h; exact absurd h (by simp)
  | code i =>
    simp only [writePort] at h
    split_ifs at h
    exact .inl (Host.Outcome.next.inj h).symm
  | node i =>
    simp only [writePort] at h
    split_ifs at h
    exact .inl (Host.Outcome.next.inj h).symm

/-- What any step that goes on was: idling, an answered read, the reset event, an illegal word, a command, or a write to
another place. -/
theorem step_next {s t : State} (h : step s = .next t) :
    (s.busy = false ∧ t = s) ∨
    ∃ a rest, s.host = a :: rest ∧
      (t = s.popHost rest ∨ t = resetEvent (s.popHost rest) ∨
       t = (s.popHost rest).setBusy.abort .illegalCommand ∨
       (∃ i, exec i (s.popHost rest).setBusy = .next t) ∨
       (s.busy = false ∧ ∃ v p, writePort (s.popHost rest) v p = .next t)) := by
  cases hh : s.host with
  | nil =>
    simp only [step, stepTransaction, hh, idle] at h
    split_ifs at h with hb
    exact .inl ⟨by simpa using hb, (Host.Outcome.next.inj h).symm⟩
  | cons a rest =>
    right
    refine ⟨a, rest, rfl, ?_⟩
    rw [step_of_host hh] at h
    cases a with
    | write p v =>
      simp only [transact, hostWrite] at h
      split_ifs at h with h1 h2 h3
      · cases hd : decode (v.setWidth 16) with
        | command i =>
          rw [issue_command hd] at h
          exact .inr (.inr (.inr (.inl ⟨i, h⟩)))
        | illegal e =>
          rw [issue_illegal hd] at h
          exact .inr (.inr (.inl (Host.Outcome.next.inj h).symm))
      · refine .inr (.inr (.inr (.inr ⟨?_, v, p, h⟩)))
        simpa using h1
    | read p =>
      simp only [transact] at h
      split at h
      · exact .inl (Host.Outcome.next.inj h).symm
      · simp at h
      · simp at h
    | reset =>
      simp only [transact] at h
      exact .inr (.inl (Host.Outcome.next.inj h).symm)

end Sys2Proof.Machine
end

