-- ==== Sys2Proof/Tests/Slice0.lean ====
section
/-! SUPPORT. The model's own tests: words written out from spec/30_encoding.md, examples of the command rules (one step
each), and for each obligation with hypotheses a concrete state that meets them. -/

namespace Sys2Proof.Tests

open Sys2Proof Sys2Proof.Machine

/-! ### Well-formedness: the must-be-zero bits (R90, R93) -/

theorem test_mbz_format_N : Format.mbzClear .N 0x0110#16 = false := by decide
theorem test_mbz_format_B : Format.mbzClear .B 0x0240#16 = false := by decide
theorem test_mbz_clear : Format.mbzClear .N 0x0010#16 = true ∧ Format.mbzClear .B 0x0140#16 = true := by decide
theorem test_illformed_refused : decode 0x0110#16 = .illegal (.mustBeZero 0x10#8 0x01#8) ∧
    decode 0x0240#16 = .illegal (.mustBeZero 0x40#8 0x02#8) ∧ decode 0x0043#16 = .illegal (.unknownOpcode 0x43#8) := by
  decide

/-! ### Decoding: one word per constructor, bit by bit from R90 to R92 -/

theorem test_decode_fcRun : decode 0b0000000000010000#16 = .command .fcRun := by decide
theorem test_decode_tbBuild : decode 0b0000000000100000#16 = .command .tbBuild := by decide
theorem test_decode_cgGen : decode 0b0000000000110000#16 = .command .cgGen := by decide
theorem test_decode_bwBit : decode 0b0000000101000000#16 = .command (.bwBit true) := by decide
theorem test_decode_bwBits : decode 0b0000000001000001#16 = .command .bwBits := by decide
theorem test_decode_bwFlush : decode 0b0000000001000010#16 = .command .bwFlush := by decide
theorem test_decode_brBit : decode 0b0000000001010000#16 = .command .brBit := by decide
theorem test_decode_cfWrhdr : decode 0b0000000001100000#16 = .command .cfWrhdr := by decide
theorem test_decode_cfRdhdr : decode 0b0000000001100001#16 = .command .cfRdhdr := by decide
theorem test_decode_encSym : decode 0b0110000101110000#16 = .command (.encSym 0x61#8) := by decide
theorem test_decode_encRun : decode 0b0000000001110001#16 = .command .encRun := by decide
theorem test_decode_decSym : decode 0b0000000001111000#16 = .command .decSym := by decide
theorem test_decode_decRun : decode 0b0000000001111001#16 = .command .decRun := by decide
theorem test_table_word : decodeTableWord 16 0x6170 = some (.encSym 0x61#8) ∧ decodeTableWord 16 0x0110 = none ∧
    decodeTableWord 8 0x10 = some .fcRun := by decide

/-! ### Single steps -/

/-- A value of the state a step leaves. -/
def after {α : Type} (o : Host.Outcome State Fault Refusal) (f : State → α) : Option α :=
  match o with
  | .next t => some (f t)
  | .fault _ => none
  | .refused _ => none

/-- Input bytes as the host writes them from address `a` on. -/
def memOf (a : Nat) (bs : List Byte) : Mem := bs.zipIdx.map fun p => (a + p.2, p.1)

/-- The input buffer holds exactly these bytes. -/
def withInput (bs : List Byte) : State :=
  { State.reset with ibuf := memOf 0 bs, ilen := BitVec.ofNat 64 bs.length }

/-- The example tree of R130: leaves 0x61 and 0x62 under node 2. -/
def twoLeaves : Tree :=
  { Tree.reset with
    node := ((Tree.reset.node.set 0 ⟨.leaf, 0x61#8, 0, 0, 1#64⟩).set 1 ⟨.leaf, 0x62#8, 0, 0, 1#64⟩).set 2
      ⟨.internal, 0#8, 0, 1, 2#64⟩
    nn := 3#10, root := 2, nact := 1#9 }

/-- FREQ[0x61] = 1 and FREQ[0x62] = 1 (R130's example). -/
def twoCounts : Table U64 := Table.put (Table.put (Vector.replicate 256 0#64) 0x61#8 1#64) 0x62#8 1#64

/-- FREQ[0x61] = 4 (the "aaaa" case). -/
def oneCount : Table U64 := Table.put (Vector.replicate 256 0#64) 0x61#8 4#64

/-- R120's example. -/
theorem test_fcRun : after (exec .fcRun (withInput [0x61#8, 0x61#8, 0x61#8, 0x61#8]))
    (fun t => (t.freq.at 0x61#8, t.freq.at 0x62#8, t.err)) = some (4#64, 0#64, 0#4) := by decide +kernel

/-- R130's example. -/
theorem test_tbBuild : after (exec .tbBuild { State.reset with freq := twoCounts })
    (fun t => (t.tree.nodeAt 0, t.tree.nodeAt 1, t.tree.nodeAt 2, t.tree.nn, t.tree.root, t.treeValid)) =
    some (⟨.leaf, 0x61#8, 0, 0, 1#64⟩, ⟨.leaf, 0x62#8, 0, 0, 1#64⟩, ⟨.internal, 0#8, 0, 1, 2#64⟩, 3#10, 2, true) := by
  decide +kernel

/-- R133. -/
theorem test_tbBuild_empty : after (exec .tbBuild State.reset) (fun t => (t.err, t.treeValid, t.busy)) =
    some (1#4, false, false) := by decide +kernel

/-- R150 on R130's tree: left is bit 0, right is bit 1. -/
theorem test_cgGen : after (exec .cgGen { State.reset with tree := twoLeaves, treeValid := true })
    (fun t => (t.code.at 0x61#8, t.code.at 0x62#8, t.code.at 0x63#8)) =
    some (⟨true, 1#8, 0#255⟩, ⟨true, 1#8, 1#255⟩, CodeEntry.zero) := by decide +kernel

theorem test_cgGen_noTree : after (exec .cgGen State.reset) (fun t => t.err) = some 7#4 := by decide +kernel

/-- R160's example, at its eighth bit. -/
theorem test_bwBit : after (exec (.bwBit false) { State.reset with acc := 0b1011001#8, nbits := 7#3 })
    (fun t => (t.acc, t.nbits, t.olen, Mem.read t.obuf 0)) = some (0#8, 0#3, 1#64, some 0xB2#8) := by decide +kernel

/-- R161's example, its second command. -/
theorem test_bwBits : after
    (exec .bwBits { State.reset with acc := 0x06#8, nbits := 3#3, wbVal := 0b101101#255, wbLen := 6#8 })
    (fun t => (t.acc, t.nbits, t.olen, Mem.read t.obuf 0)) = some (0x01#8, 1#3, 1#64, some 0xD6#8) := by decide +kernel

/-- R162's example. -/
theorem test_bwFlush : after (exec .bwFlush { State.reset with acc := 0x0F#8, nbits := 4#3 })
    (fun t => (t.acc, t.nbits, t.olen, Mem.read t.obuf 0)) = some (0#8, 0#3, 1#64, some 0xF0#8) := by decide +kernel

/-- R170's example, its first command. -/
theorem test_brBit : after
    (exec .brBit { State.reset with ibuf := [(2060, 0xF0#8)], ilen := 2061#64, rpos := 2060#64 })
    (fun t => (t.cur, t.rem, t.rpos, t.rbit)) = some (0xF0#8, 7#4, 2061#64, true) := by decide +kernel

theorem test_brBit_exhausted : after (exec .brBit { State.reset with ilen := 5#64, rpos := 5#64 }) (fun t => t.err) =
    some 5#4 := by decide +kernel

/-! Commands whose run is too long for one evaluation in the kernel are tested through the lemmas of Laws/. -/

theorem exec_tbBuild_eq (s : State) : exec .tbBuild s = endCommand (buildTree s) := rfl
theorem exec_cgGen_eq (s : State) : exec .cgGen s = endCommand (generateCodes s) := rfl
theorem exec_cfWrhdr_eq (s : State) : exec .cfWrhdr s = endCommand (emitAll (header s.origSize s.freq) s) := rfl
theorem exec_encRun_eq (s : State) : exec .encRun s = endCommand (compressInput s) := rfl
theorem exec_decRun_eq (s : State) : exec .decRun s = endCommand (decompressInput s) := rfl

theorem cap_reset : State.reset.obufCap.toNat = 18446744073709551615 := rfl
theorem cap_withInput (bs : List Byte) : (withInput bs).obufCap.toNat = 18446744073709551615 := rfl

/-- R180's example. -/
theorem test_cfWrhdr (s : State) (hs : s = { State.reset with origSize := 4#64, freq := oneCount }) :
    ∃ t, exec .cfWrhdr s = .next t ∧ t.olen.toNat = 2060 ∧ Mem.read t.obuf 788 = some 0x04#8 ∧
      Mem.read t.obuf 0 = some 0x48#8 := by
  have ho : s.olen.toNat = 0 := by rw [hs]; rfl
  have hcap : s.obufCap.toNat = 18446744073709551615 := by rw [hs]; rfl
  have hsz : s.origSize = 4#64 := by rw [hs]
  have hfr : s.freq = oneCount := by rw [hs]
  have hl := length_header 4#64 oneCount
  obtain ⟨t, ht, ha, -, -, -⟩ := emitAll_stage (s := s) (bs := header 4#64 oneCount) (by rw [hl, ho, hcap]; omega)
  have hb : ∀ i b, (header 4#64 oneCount)[i]? = some b → Mem.read t.obuf i = some b := by
    intro i b h
    obtain ⟨hi, h⟩ := List.getElem?_eq_some_iff.mp h
    have := ha.2.1 i hi
    rwa [ho, Nat.zero_add, h] at this
  refine ⟨t.finish, by rw [exec_cfWrhdr_eq, hsz, hfr, ht]; rfl, ?_, ?_, ?_⟩
  · show t.olen.toNat = 2060
    rw [ha.1, ho, hl]
  · refine hb 788 _ ?_
    have := header_count 4#64 oneCount 0x61#8 0 (by omega)
    rw [show 12 + 8 * (0x61#8).toNat + 0 = 788 by decide] at this
    rw [this]; decide +kernel
  · exact hb 0 _ rfl

/-- R182's example, with the bytes looked at. -/
theorem test_cfRdhdr : after
    (exec .cfRdhdr { State.reset with
      ibuf := memOf 0 [0x48#8, 0x46#8, 0x31#8, 0x01#8, 4#8, 0#8, 0#8, 0#8, 0#8, 0#8, 0#8, 0#8] ++
        memOf 788 [4#8, 0#8, 0#8, 0#8, 0#8, 0#8, 0#8, 0#8]
      ilen := 2061#64 })
    (fun t => t.origSize == 4#64 && t.freq.at 0x61#8 == 4#64 && t.rpos == 2060#64) = some true := by decide +kernel

/-- R183. -/
theorem test_cfRdhdr_short : after (exec .cfRdhdr { State.reset with ilen := 2059#64 }) (fun t => (t.err, t.rpos)) =
    some (2#4, 0#64) := by decide +kernel

/-- R190's example, its second command. -/
theorem test_encSym : after
    (exec (.encSym 0x62#8) { State.reset with
      nbits := 1#3, code := Table.put State.reset.code 0x62#8 ⟨true, 3#8, 0b110#255⟩ })
    (fun t => (t.acc, t.nbits, t.olen)) = some (0x06#8, 4#3, 0#64) := by decide +kernel

theorem test_encSym_invalid : after (exec (.encSym 0x7A#8) State.reset) (fun t => t.err) = some 4#4 := by decide +kernel

/-- R193's example as a function: the packed body is F0. -/
theorem test_encRun : pack (bodyBits (codes (build oneCount).2) [0x61#8, 0x61#8, 0x61#8, 0x61#8]) = [0xF0#8] := by
  decide +kernel

theorem test_encRun_empty : after (exec .encRun State.reset) (fun t => (t.err, t.olen, t.outValid)) =
    some (1#4, 0#64, false) := by decide +kernel

/-- R257: OUT_VALID "is not cleared by primitive commands that append to OBUF" (log 10). -/
theorem test_append_keeps_outValid : after (exec (.bwBit true) { State.reset with nbits := 7#3, outValid := true })
    (fun t => (t.outValid, t.olen)) = some (true, 1#64) := by decide +kernel

/-- R195: bit 0 goes left. -/
theorem test_decSym : after
    (exec .decSym { State.reset with
      tree := twoLeaves, treeValid := true, ibuf := [(0, 0x5F#8)], ilen := 1#64 })
    (fun t => (t.cur, t.rem, t.rpos, t.rbit, Mem.read t.obuf 0)) =
      some (0x5F#8, 7#4, 1#64, false, some 0x61#8) := by
  decide +kernel

theorem test_decSym_truncated : after (exec .decSym { State.reset with tree := twoLeaves, treeValid := true })
    (fun t => (t.err, t.olen, t.treeValid)) = some (3#4, 0#64, true) := by decide +kernel

/-- R196, R214. -/
theorem test_decRun_format : after (exec .decRun { State.reset with ibuf := [(0, 0x49#8)], ilen := 3000#64 })
    (fun t => (t.err, t.olen)) = some (2#4, 0#64) := by decide +kernel

/-! ### Witnesses: for each obligation with hypotheses, a concrete state and operands that meet them, clause by clause -/

theorem witness_DecodeEncodeAgree : (Instr.encSym 0xFF#8).wellFormed = true := rfl

/-- A word with a must-be-zero bit set, and an unknown one. -/
theorem witness_IllegalWordOnlySetsErr :
    (∀ r ∈ opcodeTable, 0x0110#16 &&& r.mask ≠ r.pattern) ∧ (∀ r ∈ opcodeTable, 0x0000#16 &&& r.mask ≠ r.pattern) ∧
    State.reset.busy = false ∧
    { State.reset with host := [.write (.reg 0x00) (BitVec.setWidth 264 0x0110#16)] }.host =
      .write (.reg 0x00) (BitVec.setWidth 264 0x0110#16) :: [] := by
  refine ⟨by decide, by decide, rfl, rfl⟩

theorem witness_StepRunsDecodedCommand : State.reset.busy = false ∧ decode 0x0071#16 = .command .encRun ∧
    { State.reset with host := [.write (.reg 0x00) (BitVec.setWidth 264 0x0071#16)] }.host =
      .write (.reg 0x00) (BitVec.setWidth 264 0x0071#16) :: [] := by
  refine ⟨rfl, by decide, rfl⟩

/-- Nothing pending; and a pending read that is answered. -/
theorem witness_IdleKeepsAllState : State.reset.busy = false ∧ State.reset.host = [] ∧
    ∃ v, hostRead State.reset (.reg 0x10) = .next v := ⟨rfl, rfl, _, rfl⟩

/-- Busy, with a CMD write, and with a read of STATUS, pending. -/
theorem witness_BusyRefusesHost :
    State.reset.setBusy.busy = true ∧ (HostAct.write (.reg 0x00) 0x10#264 ≠ .read (.reg 0x01)) ∧
    (HostAct.write (.reg 0x00) 0x10#264 ≠ .reset) := by
  refine ⟨rfl, by decide, by decide⟩

theorem witness_ResetEventClearsState : { State.reset with host := [.reset], busy := true }.host = .reset :: [] := rfl

/-- Each clause at its greatest value: ILEN at the capacity and one above it, the widths of the others. -/
theorem witness_HostWritesRegisters :
    let s := { State.reset with ibufCap := 5#64 }
    s.busy = false ∧ (5#264).toNat ≤ s.ibufCap.toNat ∧ s.ibufCap.toNat < (6#264).toNat ∧ (6#264).toNat < 2 ^ 64 ∧
    (BitVec.ofNat 264 (2 ^ 64 - 1)).toNat < 2 ^ 64 ∧ (255#264).toNat < 2 ^ 8 ∧
    (BitVec.ofNat 264 (2 ^ 255 - 1)).toNat < 2 ^ 255 := by decide

/-- The last byte of IBUF, the last entry of each window. -/
theorem witness_HostWritesBuffersAndWindows :
    let s := { State.reset with ibufCap := 5#64 }
    s.busy = false ∧ 4 < s.ibufCap.toNat ∧ (255#264).toNat < 2 ^ 8 ∧ (BitVec.ofNat 264 (2 ^ 64 - 1)).toNat < 2 ^ 64 := by
  decide

/-- A byte that is there, at the last address of the input, and at the last of the output. -/
theorem witness_HostReads :
    let s := { State.reset with ibuf := [(0, 7#8)], obuf := [(0, 9#8)], ilen := 1#64, olen := 1#64 }
    s.busy = false ∧ 0 < s.ilen.toNat ∧ 0 < s.ibufCap.toNat ∧ Mem.read s.ibuf 0 = some 7#8 ∧ 0 < s.olen.toNat ∧
    0 < s.obufCap.toNat ∧ Mem.read s.obuf 0 = some 9#8 := by decide

/-- A primitive command and a compound one that end (CommandsEndWithLegalErr, CommandsKeepHostSide,
OutValidOnlyFromCompound, TreeValidOnlyFromBuild, RposStaysWithinInput, PrimitivesOnlyAppend, FcRunSumIsLength,
EncRunNeverInvalidCode, DecRunBoundedByBody, NoTreeIsIllegalCommand). -/
theorem witness_commands_end :
    (∃ t, exec .fcRun State.reset = .next t) ∧ compound .fcRun = false ∧ (∃ t, exec .tbBuild State.reset = .next t) ∧
    (∃ t, exec .encRun State.reset = .next t) ∧ compound .encRun = true ∧ (∃ t, exec .decRun State.reset = .next t) ∧
    State.reset.rpos.toNat ≤ State.reset.ilen.toNat ∧ State.reset.olen.toNat ≤ State.reset.obufCap.toNat ∧
    State.reset.treeValid = false := by
  have h0 : State.reset.ilen = 0#64 := rfl
  have hf : formatOk State.reset.input = false := by
    rw [input_eq_nil.mpr h0]; decide
  have he : occurring State.reset.freq = [] := occurring_eq_nil.mpr fun c => by simp [State.reset]
  refine ⟨⟨_, rfl⟩, rfl, ?_, ?_, rfl, ?_, by decide, by decide, rfl⟩
  · rw [exec_tbBuild_eq, buildTree_fail (buildOver_empty State.reset.tree he)]; exact ⟨_, endCommand_raise _ _⟩
  · rw [exec_encRun_eq, compressInput_empty h0]; exact ⟨_, endCommand_raise _ _⟩
  · rw [exec_decRun_eq, decompressInput_format hf]; exact ⟨_, endCommand_raise _ _⟩

theorem witness_TbBuildEmptyInput : ∀ c, State.reset.freq.at c = 0#64 := fun c => by simp [State.reset]

theorem witness_TbBuildDegenerate : oneCount.at 0x61#8 ≠ 0#64 ∧ ∀ d, d ≠ 0x61#8 → oneCount.at d = 0#64 := by
  refine ⟨by decide +kernel, fun d hd => ?_⟩
  rw [oneCount, Table.at_put_other _ _ hd]; simp

theorem occurring_twoCounts : (occurring twoCounts).length = 2 := by decide +kernel

theorem occurring_oneCount : occurring oneCount = [0x61#8] := by decide +kernel

/-- A table with two counts, and with one (also for MergeSelectsFirstMinima's second part). -/
theorem witness_TbBuildCompletes : (∃ c, twoCounts.at c ≠ 0#64) ∧ 1 < (occurring twoCounts).length ∧
    (∃ c, oneCount.at c ≠ 0#64) ∧ (occurring oneCount).length = 1 := by
  refine ⟨⟨0x61#8, by decide +kernel⟩, by rw [occurring_twoCounts]; omega, ⟨0x61#8, by decide +kernel⟩, ?_⟩
  rw [occurring_oneCount]; rfl

/-- TB.BUILD and CG.GEN over two counts, and over one, end with success (TbBuildLeavesInSymbolOrder, TreeInvariants,
CodeValidIffCounted, KraftEquality, CodesArePrefixFree). -/
theorem witness_built (f : Table U64) (hf : f = twoCounts ∨ f = oneCount) :
    ∃ t u, exec .tbBuild { State.reset with freq := f } = .next t ∧ t.err = 0#4 ∧ exec .cgGen t = .next u := by
  have ho : occurring f ≠ [] := by
    rcases hf with rfl | rfl
    · intro e; have := occurring_twoCounts; rw [e] at this; simp at this
    · rw [occurring_oneCount]; simp
  have hb := buildOver_built Tree.reset ho
  obtain ⟨T, hT⟩ : ∃ T, T = (buildOver f Tree.reset).2 := ⟨_, rfl⟩
  have h1 : buildTree { State.reset with freq := f } =
      .ok (({ State.reset with freq := f }.setTree T).setTreeValid true) :=
    buildTree_ok (by rw [hT]; exact buildOver_eq Tree.reset ho)
  rw [← hT] at hb
  have hd : T.DescendsBelow (T.root.val + 1) := by rw [← hb.nnRoot]; exact hb.descends
  obtain ⟨t, ht⟩ : ∃ t, t = (({ State.reset with freq := f }.setTree T).setTreeValid true).finish := ⟨_, rfl⟩
  have hv : t.treeValid = true := by rw [ht]; rfl
  have htd : t.tree.DescendsBelow (t.tree.root.val + 1) := by rw [ht]; exact hd
  have h2 : exec .cgGen t = .next ({ t with code := codes t.tree, stack := [] } : State).finish := by
    rw [exec_cgGen_eq, generateCodes_ok hv htd]; rfl
  refine ⟨t, _, ?_, by rw [ht]; rfl, h2⟩
  rw [exec_tbBuild_eq, h1, endCommand_ok, ht]

/-- Two active nodes, room for one more. -/
theorem witness_MergeSelectsFirstMinima : let t := { Tree.reset with nn := 2#10, nact := 2#9 }
    2 ≤ t.nact.toNat ∧ t.nact.toNat ≤ 256 ∧ t.nn.toNat < 511 := by decide

theorem twoLeaves_descending : twoLeaves.Descending := by
  intro h hk
  by_cases h2 : h.val = 2
  · obtain rfl : h = 2 := Fin.ext h2
    decide +kernel
  · have : (twoLeaves.nodeAt h).kind = .leaf := by
      simp only [twoLeaves, Tree.nodeAt, Vector.getElem_set, Tree.reset, Vector.getElem_replicate]
      rw [if_neg (fun e => h2 e.symm)]
      split_ifs <;> rfl
    rw [this] at hk
    exact absurd hk (by simp)

/-- R130's example tree (CgGenLeavesCodes, CodesArePathsToTheirLeaves). -/
theorem witness_CodesArePathsToTheirLeaves : twoLeaves.Descending ∧ (twoLeaves.nodeAt twoLeaves.root).kind = .internal ∧
    twoLeaves.height 511 twoLeaves.root ≤ 255 ∧ ((codes twoLeaves).at 0x62#8).valid = true ∧
    { State.reset with tree := twoLeaves, treeValid := true }.treeValid = true :=
  ⟨twoLeaves_descending, by decide +kernel, by decide +kernel, by decide +kernel, rfl⟩

/-- Six bits pending; seven with room; seven and the buffer full. -/
theorem witness_BwBitResult : (6#3).toNat < 7 ∧ (7#3).toNat = 7 ∧ State.reset.olen.toNat < State.reset.obufCap.toNat ∧
    { State.reset with obufCap := 0#64 }.obufCap.toNat ≤ State.reset.olen.toNat := by decide

/-- Bits that exactly fill the buffer, and one byte too many (also EncSymResult, with WB_LEN for the code's length). -/
theorem witness_BwBitsResult : let s := { State.reset with acc := 1#8, nbits := 1#3, wbLen := 15#8, obufCap := 2#64 }
    s.acc.toNat < 2 ^ s.nbits.toNat ∧ s.olen.toNat ≤ s.obufCap.toNat ∧
    s.olen.toNat + (s.nbits.toNat + s.wbLen.toNat) / 8 ≤ s.obufCap.toNat ∧
    ({ s with obufCap := 1#64 } : State).obufCap.toNat < s.olen.toNat + (s.nbits.toNat + s.wbLen.toNat) / 8 := by decide

/-- Nothing pending; one bit pending with room, and with the buffer full. -/
theorem witness_BwFlushResult : State.reset.nbits = 0#3 ∧ 1#3 ≠ 0#3 ∧
    State.reset.olen.toNat < State.reset.obufCap.toNat ∧
    { State.reset with obufCap := 0#64 }.obufCap.toNat ≤ State.reset.olen.toNat ∧
    ∃ t, exec .bwFlush State.reset = .next t := ⟨by decide, by decide, by decide, by decide, _, rfl⟩

theorem witness_WritingBitsPacksThem : State.reset.acc = 0#8 ∧ State.reset.nbits = 0#3 ∧
    ({ State.reset with obufCap := 2#64 } : State).olen.toNat + ([true, false, true, true, false, false, true, false,
      true].length + 7) / 8 ≤ ({ State.reset with obufCap := 2#64 } : State).obufCap.toNat := by decide

/-- No bit and no byte; no bit and a byte; one bit. -/
theorem witness_BrBitResult : State.reset.rem = 0#4 ∧ State.reset.ilen.toNat ≤ State.reset.rpos.toNat ∧
    State.reset.rpos.toNat < (withInput [0xF0#8]).ilen.toNat ∧ 1#4 ≠ 0#4 ∧
    Mem.read (withInput [0xF0#8]).ibuf 0 = some 0xF0#8 := by decide

/-- The packed bits 1111 in IBUF, the last pad bit asked for. -/
theorem witness_ReaderInvertsPack : let s := withInput (pack [true, true, true, true])
    s.rpos.toNat = 0 ∧ s.rem = 0#4 ∧ 0 + (pack [true, true, true, true]).length ≤ s.ilen.toNat ∧
    (∀ j, (hj : j < (pack [true, true, true, true]).length) →
      Mem.read s.ibuf (0 + j) = some (pack [true, true, true, true])[j]) ∧
    7 < 8 * (pack [true, true, true, true]).length := by decide +kernel

theorem witness_CfWrhdrAppendsHeader :
    let s := { State.reset with obufCap := 2060#64 }
    s.olen.toNat ≤ s.obufCap.toNat ∧ s.olen.toNat + 2060 ≤ s.obufCap.toNat ∧
    ({ s with obufCap := 2059#64 } : State).obufCap.toNat < s.olen.toNat + 2060 := by decide

/-! Containers: a state whose IBUF holds given bytes. -/

theorem read_memOf (bs : List Byte) (k i : Nat) (h : i < bs.length) :
    Mem.read ((bs.zipIdx k).map fun p => (0 + p.2, p.1)) (k + i) = some bs[i] := by
  induction bs generalizing k i with
  | nil => simp at h
  | cons b bs ih =>
    rw [List.zipIdx_cons, List.map_cons, Mem.read]
    cases i with
    | zero => simp
    | succ i =>
      rw [if_neg (by omega), show k + (i + 1) = k + 1 + i by omega, ih (k + 1) i (by simpa using h)]
      simp

theorem read_withInput (bs : List Byte) (i : Nat) (h : i < bs.length) : Mem.read (withInput bs).ibuf i = some bs[i] := by
  have := read_memOf bs 0 i h
  rwa [Nat.zero_add] at this

theorem input_withInput (bs : List Byte) (h : bs.length < 2 ^ 64) : (withInput bs).input = bs := by
  have hl : (withInput bs).ilen.toNat = bs.length := by
    show (BitVec.ofNat 64 bs.length).toNat = _
    rw [BitVec.toNat_ofNat, Nat.mod_eq_of_lt h]
  apply List.ext_getElem
  · rw [length_input, hl]
  · intro i h1 h2
    rw [getElem_input, Machine.ibufByte, read_withInput bs i h2]; rfl

/-- The "aaaa" container's header with another size, and a body. -/
def container (n : Nat) (body : List Byte) : List Byte := header (BitVec.ofNat 64 n) oneCount ++ body

theorem length_container (n : Nat) (body : List Byte) : (container n body).length = 2060 + body.length := by
  rw [container, List.length_append, length_header]

/-- CF.RDHDR and HeaderRoundTrip: a good header; and a first byte that is not "H". -/
theorem witness_CfRdhdrResult : let s := withInput (container 4 [])
    2060 ≤ s.ilen.toNat ∧ ibufByte s 0 = 0x48#8 ∧ ibufByte s 1 = 0x46#8 ∧ ibufByte s 2 = 0x31#8 ∧
    ibufByte s 3 = 0x01#8 ∧ ibufByte (withInput [0x49#8]) 0 ≠ 0x48#8 := by
  intro s
  have hl := length_container 4 []
  have hb : ∀ i, (h : i < 4) → ibufByte s i = [0x48#8, 0x46#8, 0x31#8, 0x01#8][i] := by
    intro i h
    have hr := read_withInput (container 4 []) i (by rw [hl]; omega)
    have h4 : (container 4 []).take 4 = [0x48#8, 0x46#8, 0x31#8, 0x01#8] := rfl
    rw [Machine.ibufByte, hr, Option.getD_some, ← List.getElem_take (j := 4) (h := by rw [List.length_take, hl]; omega)]
    simp only [h4]
  refine ⟨?_, hb 0 (by omega), hb 1 (by omega), hb 2 (by omega), hb 3 (by omega), by decide⟩
  show 2060 ≤ (BitVec.ofNat 64 (container 4 []).length).toNat
  rw [hl]; decide

/-- CF.WRHDR from reset ends, with the header in OBUF from OLEN on, and a state with the same bytes in IBUF. -/
theorem witness_HeaderRoundTrip : ∃ t, exec .cfWrhdr State.reset = .next t ∧
    State.reset.olen.toNat ≤ State.reset.obufCap.toNat ∧
    ∀ i, i < 2060 → Mem.read (withInput (header State.reset.origSize State.reset.freq)).ibuf i =
      Mem.read t.obuf (State.reset.olen.toNat + i) := by
  have ho : State.reset.olen.toNat = 0 := rfl
  have hc : State.reset.olen.toNat + (header State.reset.origSize State.reset.freq).length ≤ State.reset.obufCap.toNat := by
    rw [length_header, cap_reset, ho]; omega
  obtain ⟨t, ht, ha, -, -, -⟩ := emitAll_stage hc
  refine ⟨t.finish, by rw [exec_cfWrhdr_eq, ht]; exact endCommand_ok _, by rw [cap_reset, ho]; omega, fun i hi => ?_⟩
  rw [read_withInput _ i (by rw [length_header]; exact hi)]
  exact (ha.2.1 i (by rw [length_header]; exact hi)).symm

/-- A symbol without a code, one with; the writer and the output as they must be. -/
theorem witness_EncSymResult :
    let s := { State.reset with
      acc := 1#8, nbits := 1#3, obufCap := 2#64, code := Table.put State.reset.code 0x62#8 ⟨true, 15#8, 0b110#255⟩ }
    (s.code.at 0x61#8).valid = false ∧ (s.code.at 0x62#8).valid = true ∧ (s.code.at 0x62#8).len ≠ 0#8 ∧
    s.acc.toNat < 2 ^ s.nbits.toNat ∧ s.olen.toNat ≤ s.obufCap.toNat ∧
    s.olen.toNat + (s.nbits.toNat + (s.code.at 0x62#8).len.toNat) / 8 ≤ s.obufCap.toNat ∧
    ({ s with obufCap := 1#64 } : State).obufCap.toNat <
      s.olen.toNat + (s.nbits.toNat + (s.code.at 0x62#8).len.toNat) / 8 := by decide +kernel

theorem witness_EncRunEmptyInput : State.reset.ilen = 0#64 := rfl

/-- A container of the input "a" that fits, one that does not (EncRunComputesCompress, CompressedLength,
DecompressCompress), and ENC.RUN on it (DecRunInvertsEncRun, with its container in IBUF; CompoundIgnoresEarlierState). -/
theorem witness_EncRun : let s := withInput [0x61#8]
    s.ilen ≠ 0#64 ∧ ∃ out t, compress s.input = .ok out ∧ out.length ≤ s.obufCap.toNat ∧ 2060 < out.length ∧
      exec .encRun s = .next t ∧ (withInput out).ilen = t.olen ∧ s.ilen.toNat ≤ (withInput out).obufCap.toNat ∧
      ∀ a, a < t.olen.toNat → Mem.read (withInput out).ibuf a = Mem.read t.obuf a := by
  intro s
  have hz : s.ilen ≠ 0#64 := by decide
  have hin : s.input = [0x61#8] := input_withInput _ (by decide)
  obtain ⟨h1, -⟩ := compressInput_spec hz
  have hbits : (bodyBits (codes (buildOver (tally s.input) s.tree).2) s.input).length = 1 := by
    rw [hin]; decide +kernel
  obtain ⟨k, hk⟩ : ∃ k, k = codes (buildOver (tally s.input) s.tree).2 := ⟨_, rfl⟩
  simp only [← hk] at h1 hbits
  obtain ⟨out, ho⟩ : ∃ out, out = header s.ilen (tally s.input) ++ pack (bodyBits k s.input) := ⟨_, rfl⟩
  have hlen : out.length = 2061 := by rw [ho, List.length_append, length_header, length_pack, hbits]
  simp only [← ho] at h1
  obtain ⟨t, ht, ha, -⟩ := h1 (by rw [hlen, cap_withInput]; omega)
  have hcomp : compress s.input = .ok out := by
    have hne : s.input ≠ [] := by rw [hin]; simp
    have hocc := occurring_tally (length_input_lt s) hne
    have hk2 : codes (build (tally s.input)).2 = k := by rw [hk]; exact (codes_buildOver s.tree hocc).symm
    rw [compress, if_neg hne]
    simp only [hk2]
    rw [ho, length_input, show BitVec.ofNat 64 s.ilen.toNat = s.ilen by simp]
  have hol : t.olen.toNat = 2061 := by
    rw [ha.1, hlen]; rfl
  refine ⟨hz, out, t.finish, hcomp, by rw [hlen, cap_withInput]; omega, by rw [hlen]; omega,
    by rw [exec_encRun_eq, ht]; exact endCommand_ok _, ?_, by rw [cap_withInput]; decide, ?_⟩
  · apply BitVec.eq_of_toNat_eq
    show (BitVec.ofNat 64 out.length).toNat = t.olen.toNat
    rw [hol, hlen]; rfl
  · intro a hlt
    have hlt' : a < out.length := by rw [hlen, ← hol]; exact hlt
    have hr := ha.2.1 a hlt'
    have h0 : s.init.olen.toNat = 0 := rfl
    rw [h0, Nat.zero_add] at hr
    rw [read_withInput out a hlt', show t.finish.obuf = t.obuf from rfl, hr]

/-- A walk that reaches a leaf, with room and without; and one that runs out of bits (DecSymResult). -/
theorem witness_DecSymResult :
    let s := { State.reset with tree := twoLeaves, treeValid := true, cur := 0#8, rem := 2#4 }
    s.treeValid = true ∧ walkBits s.tree s.tree.root s.unread = some (0x61#8, [false]) ∧
    s.olen.toNat < s.obufCap.toNat ∧ ({ s with obufCap := 0#64 } : State).obufCap.toNat ≤ s.olen.toNat ∧
    walkBits s.tree s.tree.root ({ s with rem := 0#4 } : State).unread = none := by
  refine ⟨rfl, by decide +kernel, by decide, by decide, by decide +kernel⟩

theorem formatOk_container (n : Nat) (body : List Byte) (h : body.length < 1000) :
    formatOk (withInput (container n body)).input = true := by
  rw [input_withInput _ (by rw [length_container]; omega)]; exact formatOk_header _ _ _

theorem countsOf_container (n : Nat) (body : List Byte) (h : body.length < 1000) :
    countsOf (withInput (container n body)).input = oneCount := by
  rw [input_withInput _ (by rw [length_container]; omega)]; exact countsOf_header _ _ _

/-- A bad header; a good one whose counts are all zero. -/
theorem witness_DecRunFailsBeforeOutput : formatOk State.reset.input = false ∧
    formatOk (withInput (header 0#64 (Vector.replicate 256 0#64))).input = true ∧
    ∀ c, (countsOf (withInput (header 0#64 (Vector.replicate 256 0#64))).input).at c = 0#64 := by
  have hi : (withInput (header 0#64 (Vector.replicate 256 0#64))).input =
      header 0#64 (Vector.replicate 256 0#64) ++ [] := by
    rw [input_withInput _ (by rw [length_header]; omega), List.append_nil]
  refine ⟨by rw [input_eq_nil.mpr rfl]; decide, ?_, fun c => ?_⟩
  · rw [hi]; exact formatOk_header _ _ _
  · rw [hi, countsOf_header]; simp

theorem decode_one : decodeBits (build oneCount).2 4 [true, true, true, true, false, false, false, false] =
    ([0x61#8, 0x61#8, 0x61#8, 0x61#8], true) ∧ decodeBits (build oneCount).2 1 [] = ([], false) ∧
    decodeBits (build oneCount).2 9 [true, true, true, true, false, false, false, false] =
      (List.replicate 8 0x61#8, false) := by
  have hb : (build oneCount).2 = degenerate (collect oneCount Tree.reset) := by
    rw [build, buildOver_one Tree.reset (by rw [occurring_oneCount]; rfl)]
  obtain ⟨d0, d1, d2, -, dr, -, -, -⟩ := degenerate_spec Tree.reset occurring_oneCount
  rw [hb]
  generalize degenerate (collect oneCount Tree.reset) = T at *
  refine ⟨?_, ?_, ?_⟩ <;> simp [decodeBits, walkBits, dr, d0, d1, d2, Node.internalOf, Node.leafOf, List.replicate]

/-- The "aaaa" container of R196's example; its output fits, or not. -/
theorem witness_DecRunComputesDecompress : let s := withInput (container 4 [0xF0#8])
    decompress s.input = .ok [0x61#8, 0x61#8, 0x61#8, 0x61#8] ∧ 4 ≤ s.obufCap.toNat ∧
    ({ s with obufCap := 3#64 } : State).obufCap.toNat < 4 := by
  intro s
  refine ⟨?_, by decide, by decide⟩
  have hf := formatOk_container 4 [0xF0#8] (by decide)
  have hc := countsOf_container 4 [0xF0#8] (by decide)
  have hi : s.input = container 4 [0xF0#8] := input_withInput _ (by rw [length_container]; decide)
  have hb : (build oneCount).1 = true := (buildOver_fst _ _).mpr (by rw [occurring_oneCount]; simp)
  have hs : (le64At s.input 4).toNat = 4 := by rw [hi, container, le64At_header]; rfl
  have hd : bitsOfBytes (s.input.drop 2060) = [true, true, true, true, false, false, false, false] := by
    rw [hi, container, drop_header]; decide
  obtain ⟨x, hx⟩ : ∃ x, x = s.input := ⟨_, rfl⟩
  rw [← hx] at hs hd ⊢
  have hfx : formatOk x = true := by rw [hx]; exact hf
  have hcx : countsOf x = oneCount := by rw [hx]; exact hc
  rw [decompress, hfx, if_pos rfl]
  simp only [hcx, hb, if_true, Config.sizeOffset, Config.hdrBytes, hs, hd, decode_one.1]

/-- The same header with size 1 and no body (DecRunTruncatedStream). -/
theorem witness_DecRunTruncatedStream : let s := withInput (container 1 [])
    formatOk s.input = true ∧ (∃ c, (countsOf s.input).at c ≠ 0#64) ∧
    decodeBits (build (countsOf s.input)).2 (le64At s.input 4).toNat (bitsOfBytes (s.input.drop 2060)) = ([], false) ∧
    ([] : List Byte).length ≤ s.obufCap.toNat := by
  intro s
  have hc := countsOf_container 1 [] (by decide)
  have hi : s.input = container 1 [] := input_withInput _ (by rw [length_container]; decide)
  have hs : (le64At s.input 4).toNat = 1 := by rw [hi, container, le64At_header]; rfl
  have hd : bitsOfBytes (s.input.drop 2060) = [] := by rw [hi, container, drop_header]; rfl
  refine ⟨formatOk_container 1 [] (by decide), ⟨0x61#8, ?_⟩, ?_, by decide⟩
  · rw [hc]; exact witness_TbBuildDegenerate.1
  · rw [hc, hs, hd]; exact decode_one.2.1

/-- The same header with size 9 over a body of one byte: eight symbols, then the body has run out. They fit in OBUF, or
just do not (DecRunTruncatedStream). -/
theorem witness_DecRunTruncatedStream_full : let s := withInput (container 9 [0xF0#8])
    formatOk s.input = true ∧ (∃ c, (countsOf s.input).at c ≠ 0#64) ∧
    decodeBits (build (countsOf s.input)).2 (le64At s.input 4).toNat (bitsOfBytes (s.input.drop 2060)) =
      (List.replicate 8 0x61#8, false) ∧
    (List.replicate 8 0x61#8).length ≤ s.obufCap.toNat ∧
    ({ s with obufCap := 7#64 } : State).obufCap.toNat < (List.replicate 8 0x61#8).length := by
  intro s
  have hc := countsOf_container 9 [0xF0#8] (by decide)
  have hi : s.input = container 9 [0xF0#8] := input_withInput _ (by rw [length_container]; decide)
  have hs : (le64At s.input 4).toNat = 9 := by rw [hi, container, le64At_header]; rfl
  have hd : bitsOfBytes (s.input.drop 2060) = [true, true, true, true, false, false, false, false] := by
    rw [hi, container, drop_header]; decide
  refine ⟨formatOk_container 9 [0xF0#8] (by decide), ⟨0x61#8, ?_⟩, ?_, by decide, by decide⟩
  · rw [hc]; exact witness_TbBuildDegenerate.1
  · rw [hc, hs, hd]; exact decode_one.2.2

/-- A compound command that succeeds and a primitive one after it that appends nothing (OutValidMarksTheResult). -/
theorem witness_OutValidMarksTheResult : compound .encRun = true ∧ (∀ j ∈ [Instr.fcRun], compound j = false) ∧
    ∃ t u, exec .encRun (withInput [0x61#8]) = .next t ∧ execAll [.fcRun] t = .next u ∧ AppendNothing [.fcRun] t ∧
      u.olen = t.olen := by
  obtain ⟨-, _, t, -, -, -, ht, -⟩ := witness_EncRun
  exact ⟨rfl, by decide, t, (countInput t).finish, ht, rfl, ⟨_, rfl, rfl, trivial⟩, rfl⟩

/-- A host about to write FC.RUN to CMD: the invariant holds, and the step goes on (StepKeepsInvariant,
InvariantRulesOutFaults). -/
theorem witness_StepKeepsInvariant :
    State.Inv (State.reset.withFetchWord 16 0x0010) ∧ ∃ t, step (State.reset.withFetchWord 16 0x0010) = .next t := by
  obtain ⟨s, hs⟩ : ∃ s, s = State.reset.withFetchWord 16 0x0010 := ⟨_, rfl⟩
  have hnode : ∀ h, s.tree.nodeAt h = Node.zero := fun h => by
    rw [hs]
    show Tree.reset.nodeAt h = Node.zero
    simp [Tree.reset, Tree.nodeAt]
  have hcode : ∀ c, s.code.at c = CodeEntry.zero := fun c => by
    rw [hs]
    show State.reset.code.at c = CodeEntry.zero
    simp [State.reset]
  refine ⟨?_, _, rfl⟩
  rw [← hs]
  exact {
    idle := by rw [hs]; rfl
    errLegal := by rw [hs]; decide
    writer := by rw [hs]; decide
    reader := by rw [hs]; decide
    ibufWf := by rw [hs]; exact ⟨rfl, rfl⟩
    obufWf := by rw [hs]; exact ⟨rfl, rfl⟩
    lengths := by rw [hs]; decide
    outputListed := fun a h => by rw [hs] at h; exact absurd h (Nat.not_lt_zero a)
    stackEmpty := by rw [hs]; rfl
    nodes := ⟨by rw [hs]; decide, fun h hk => by rw [hnode] at hk; exact absurd hk (by simp)⟩
    rooted := fun h => by rw [hs] at h; exact absurd h (by decide)
    codeProper := fun c => by rw [hcode]; exact ⟨by simp, fun _ => rfl⟩ }

end Sys2Proof.Tests
end

section
/-! PROOFS. What the commands keep of the state, the primitive ones and the compound ones (spec/10_state.md R27, R33, R39,
R41). -/

namespace Sys2Proof.Machine

/-! ### What a command keeps, whatever the state it starts in -/

/-- What every primitive command leaves: the host's side and OUT_VALID as they were, OBUF longer or the same, RPOS within
the input, and the tree as it was unless the command is TB.BUILD. -/
def PrimitiveKeeps (i : Instr) (s t : State) : Prop :=
  SameHostSide s t ∧ t.outValid = s.outValid ∧ OutputGrows s t ∧
  (s.rpos.toNat ≤ s.ilen.toNat → t.rpos.toNat ≤ s.ilen.toNat) ∧ (i ≠ .tbBuild → SameTree s t)

/-- What every compound command leaves: the host's side as it was, OUT_VALID 1 exactly on success, TREE_VALID 0, RPOS within
the input. -/
def CompoundKeeps (s t : State) : Prop :=
  SameHostSide s t ∧ (t.outValid = true ↔ t.err = 0#4) ∧ t.treeValid = false ∧ t.rpos.toNat ≤ s.ilen.toNat

theorem SameHostSide.refl (s : State) : SameHostSide s s := ⟨rfl, rfl, rfl, rfl, rfl, rfl, rfl, rfl⟩

theorem SameTree.refl (s : State) : SameTree s s := ⟨rfl, rfl⟩

/-- A command that only aborts. -/
theorem PrimitiveKeeps.of_abort {i : Instr} {s t : State} {e : BitVec 4} (h : t = { s with err := e, busy := false }) :
    PrimitiveKeeps i s t := by
  subst h
  exact ⟨.refl s, rfl, .of_eq rfl rfl rfl, id, fun _ => .refl s⟩

/-- A command that writes bits or bytes of output. -/
theorem PrimitiveKeeps.of_writer {i : Instr} {s t : State} (hg : OutputGrows s t) (h : t = { s with
    obuf := t.obuf, olen := t.olen, acc := t.acc, nbits := t.nbits, err := 0#4, busy := false }) :
    PrimitiveKeeps i s t := by
  rw [h] at hg ⊢
  exact ⟨.refl s, rfl, hg, id, fun _ => .refl s⟩

/-- A command that reads bits, and whatever it ends with in ERR. -/
theorem PrimitiveKeeps.of_reader {i : Instr} {s t : State} {e : BitVec 4} (hk : ReaderKept s t)
    (h : SameButReader { s with err := e, busy := false } t) : PrimitiveKeeps i s t := by
  obtain ⟨-, hpos, -⟩ := hk
  rw [h] at hpos ⊢
  exact ⟨.refl s, rfl, .of_eq rfl rfl rfl, hpos, fun _ => .refl s⟩

theorem exec_primitive_keeps {i : Instr} {s t : State} (h : exec i s = .next t) (hc : compound i = false) :
    PrimitiveKeeps i s t := by
  cases i with
  | fcRun =>
    obtain rfl := Host.Outcome.next.inj ((exec_fcRun s).symm.trans h)
    exact ⟨.refl s, rfl, .of_eq rfl rfl rfl, id, fun _ => .refl s⟩
  | tbBuild =>
    rcases exec_tbBuild_next h with ⟨-, -, -, e⟩ | ⟨-, e⟩ <;> rw [e] <;>
      exact ⟨.refl s, rfl, .of_eq rfl rfl rfl, id, fun hne => absurd rfl hne⟩
  | cgGen =>
    rcases exec_cgGen_next h with ⟨-, e⟩ | ⟨-, e⟩
    · rw [e]
      exact ⟨.refl s, rfl, .of_eq rfl rfl rfl, id, fun _ => .refl s⟩
    · exact .of_abort e
  | bwBit b => exact .of_writer (exec_bwBit_next h).1 (exec_bwBit_next h).2
  | bwBits => exact .of_writer (exec_bwBits_next h).1 (exec_bwBits_next h).2
  | bwFlush => exact .of_writer (exec_bwFlush_next h).1 (exec_bwFlush_next h).2
  | brBit =>
    obtain ⟨hk, e | e⟩ := exec_brBit_next h
    · refine .of_reader (e := 0#4) hk ?_
      unfold SameButReader
      rw [e]
    · exact .of_abort e
  | cfWrhdr =>
    obtain ⟨hg, e, -⟩ := exec_cfWrhdr_next h
    exact .of_writer hg e
  | cfRdhdr =>
    rcases exec_cfRdhdr_next h with ⟨hlen, e⟩ | e
    · rw [e]
      exact ⟨.refl s, rfl, .of_eq rfl rfl rfl, fun _ => hlen, fun _ => .refl s⟩
    · exact .of_abort e
  | encSym c =>
    rcases exec_encSym_next h with ⟨hg, e⟩ | e
    · exact .of_writer hg e
    · exact .of_abort e
  | decSym =>
    obtain ⟨hk, hg, ⟨-, e⟩ | ⟨-, e⟩ | ⟨-, e⟩⟩ := exec_decSym_next h
    · obtain ⟨-, hpos, -⟩ := hk
      rw [e] at hpos hg ⊢
      exact ⟨.refl s, rfl, hg, hpos, fun _ => .refl s⟩
    · exact .of_reader hk e
    · exact .of_abort e
  | encRun => exact absurd hc.symm Bool.false_ne_true
  | decRun => exact absurd hc.symm Bool.false_ne_true

theorem State.headerTaken_rpos_le {s : State} (hf : formatOk s.input = true) :
    s.headerTaken.rpos.toNat ≤ s.headerTaken.ilen.toNat := by
  simp only [formatOk, Bool.and_eq_true, decide_eq_true_eq, length_input] at hf
  exact hf.1

theorem ErrKind.code_ne_zero (k : ErrKind) : k.code ≠ 0#4 := by cases k <;> decide

theorem exec_compound_keeps {i : Instr} {s t : State} (h : exec i s = .next t) (hc : compound i = true) :
    CompoundKeeps s t := by
  cases i with
  | encRun =>
    rcases exec_encRun_next h with ⟨-, rfl⟩ | ⟨-, _, -, -, -, -, -, -, e⟩
    · exact ⟨.refl s, iff_of_false Bool.false_ne_true (ErrKind.code_ne_zero .emptyInput), rfl, Nat.zero_le _⟩
    · rw [e]
      exact ⟨.refl s, iff_of_true rfl rfl, rfl, Nat.zero_le _⟩
  | decRun =>
    rcases exec_decRun_next h with ⟨-, rfl⟩ | ⟨hf, -, rfl⟩ | ⟨hf, -, -, -, -, hk, -, -, -, -, -, herr, hval, e⟩
    · exact ⟨.refl s, iff_of_false Bool.false_ne_true (ErrKind.code_ne_zero .formatError), rfl, Nat.zero_le _⟩
    · exact ⟨.refl s, iff_of_false Bool.false_ne_true (ErrKind.code_ne_zero .emptyInput), rfl,
        State.headerTaken_rpos_le hf⟩
    · obtain ⟨-, hpos, -⟩ := hk
      refine ⟨?_, ?_, ?_, hpos (State.headerTaken_rpos_le hf)⟩
      · rw [e]; exact .refl s
      · rw [herr, hval]
        split_ifs with hd
        · exact iff_of_true hd rfl
        · exact iff_of_false hd (ErrKind.code_ne_zero .truncatedStream)
      · rw [e]
  | fcRun | tbBuild | cgGen | bwBit | bwBits | bwFlush | brBit | cfWrhdr | cfRdhdr | encSym | decSym =>
    exact absurd hc Bool.false_ne_true

/-- Whatever the command, the host's side is kept (R27, R37, R61). -/
theorem exec_sameHostSide {i : Instr} {s t : State} (h : exec i s = .next t) : SameHostSide s t := by
  rcases Bool.eq_false_or_eq_true (compound i) with hc | hc
  · obtain ⟨hside, -⟩ := exec_compound_keeps h hc
    exact hside
  · obtain ⟨hside, -⟩ := exec_primitive_keeps h hc
    exact hside

end Sys2Proof.Machine
end

section
/-! PROOFS. The flags, the host's side, RPOS and OBUF over every command (spec/10_state.md R27, R28, R33, R39, R41). -/

open Sys2Proof Sys2Proof.Machine

/-- Settles O14, a primitive and a compound command alike. -/
theorem commandsKeepHostSide : Obligations.CommandsKeepHostSide := fun _ _ _ h => exec_sameHostSide h

/-- Settles O15, by what each class of commands keeps. -/
theorem outValidOnlyFromCompound : Obligations.OutValidOnlyFromCompound := by
  refine ⟨fun i s t h hc => ?_, fun i s t h hc => ?_, fun _ => rfl⟩
  · obtain ⟨-, hval, -⟩ := exec_primitive_keeps h hc
    exact hval
  · obtain ⟨-, hval, -⟩ := exec_compound_keeps h hc
    exact hval

/-- Settles O16. TB.BUILD is the one primitive command that writes the tree; it ends in one of two ways. -/
theorem treeValidOnlyFromBuild : Obligations.TreeValidOnlyFromBuild := by
  refine ⟨fun s t h => ?_, fun i s t h hc => ?_, fun i s t h hc hne => ?_, fun _ => rfl⟩
  · rcases exec_tbBuild_next h with ⟨-, -, -, e⟩ | ⟨-, e⟩ <;> rw [e]
    · exact iff_of_true rfl rfl
    · exact iff_of_false Bool.false_ne_true (ErrKind.code_ne_zero .emptyInput)
  · obtain ⟨-, -, hvalid, -⟩ := exec_compound_keeps h hc
    exact hvalid
  · obtain ⟨-, -, -, -, htree⟩ := exec_primitive_keeps h hc
    exact htree hne

/-- Settles O17: a primitive command keeps RPOS within the input, a compound one starts it there. -/
theorem rposStaysWithinInput : Obligations.RposStaysWithinInput := by
  intro i s t h hpos
  obtain ⟨hilen, -⟩ := exec_sameHostSide h
  rw [hilen]
  rcases Bool.eq_false_or_eq_true (compound i) with hc | hc
  · obtain ⟨-, -, -, hend⟩ := exec_compound_keeps h hc
    exact hend
  · obtain ⟨-, -, -, hkept, -⟩ := exec_primitive_keeps h hc
    exact hkept hpos

/-- Settles O18. A primitive command appends some bytes `bs`, and these end below the capacity. -/
theorem primitivesOnlyAppend : Obligations.PrimitivesOnlyAppend := by
  intro i s t h hc hcap
  obtain ⟨hside, -, hgrows, -, -⟩ := exec_primitive_keeps h hc
  obtain ⟨-, -, -, -, -, hobufCap, -, -⟩ := hside
  obtain ⟨bs, ⟨holen, -, hother⟩, hfit⟩ := hgrows.appended
  rw [hobufCap, holen]
  refine ⟨Nat.le_add_right _ _, ?_, hother⟩
  rcases hfit with rfl | hfit
  · exact hcap
  · rwa [holen] at hfit

end

section
/-! PROOFS. Every step keeps the invariant of the machine (spec/10_state.md). -/

namespace Sys2Proof.Machine

theorem zero_errLegal : 0#4 ≠ 6#4 ∧ (0#4).toNat ≤ 7 := by decide

/-- The invariant but for BUSY and ERR, which a command writes at its end: ending here would meet it. -/
def State.Sound (s : State) : Prop := s.finish.Inv

theorem State.Inv.sound {s : State} (h : s.Inv) : s.Sound :=
  { h with idle := rfl, errLegal := zero_errLegal }

theorem ErrKind.code_legal (k : ErrKind) : k.code ≠ 6#4 ∧ k.code.toNat ≤ 7 := by cases k <;> decide

/-- A command may be aborted wherever it may end. -/
theorem State.Sound.abort {s : State} (h : s.Sound) (k : ErrKind) : (s.abort k).Inv :=
  { h with idle := rfl, errLegal := k.code_legal }

/-! ### The writer (R165) -/

/-- `ACC < 2^NBITS`. -/
def State.WriterSound (s : State) : Prop := s.acc.toNat < 2 ^ s.nbits.toNat

theorem State.Sound.writerSound {s : State} (h : s.Sound) : s.WriterSound := h.writer

theorem writeBit_writerSound {b : Bool} {s t : State} (hs : s.WriterSound) (h : writeBit b s = .ok t) :
    t.WriterSound := by
  obtain ⟨p, hp⟩ := State.exists_pending hs
  by_cases h7 : p.length = 7
  · rw [writeBit_full hp h7] at h
    obtain ⟨u, -, hu⟩ := Res.bind_eq_ok.mp h
    obtain rfl := Res.ok.inj hu
    exact u.clearWriter_pending.writer
  · have hlt : p.length < 7 := Nat.lt_of_le_of_ne (Nat.le_of_lt_succ hp.1) h7
    have hlen : (p ++ [b]).length = p.length + 1 := List.length_append
    rw [writeBit_short hp hlt, ← hlen] at h
    obtain rfl := Res.ok.inj h
    have hpb : (s.setWriter (valOf (p ++ [b])) (BitVec.ofNat 3 (p ++ [b]).length)).Pending (p ++ [b]) :=
      ⟨hlen ▸ Nat.succ_lt_succ hlt, rfl, rfl⟩
    exact hpb.writer

theorem writeBits_writerSound {bits : List Bool} {s t : State} (hs : s.WriterSound) (h : writeBits bits s = .ok t) :
    t.WriterSound := by
  induction bits generalizing s with
  | nil => obtain rfl := Res.ok.inj h; exact hs
  | cons b bs ih =>
    obtain ⟨u, hu, ht⟩ := Res.bind_eq_ok.mp h
    exact ih (writeBit_writerSound hs hu) ht

theorem flush_writerSound {s t : State} (hs : s.WriterSound) (h : flush s = .ok t) : t.WriterSound := by
  unfold flush at h
  split_ifs at h
  · obtain rfl := Res.ok.inj h; exact hs
  · obtain ⟨u, -, hu⟩ := Res.bind_eq_ok.mp h
    obtain rfl := Res.ok.inj hu
    exact u.clearWriter_pending.writer

/-- Ending a command does not touch the writer. -/
theorem endCommand_writerSound {r : Res} {t : State} (hok : ∀ u, r = .ok u → u.WriterSound)
    (hraise : ∀ k u, r = .raise k u → u.WriterSound) (h : endCommand r = .next t) : t.WriterSound := by
  rcases endCommand_eq_next.mp h with ⟨u, hu, rfl⟩ | ⟨k, u, hu, rfl⟩
  · exact hok u hu
  · exact hraise k u hu

theorem execWriteBits_writerSound {bits : List Bool} {s t : State} (hs : s.WriterSound)
    (h : endCommand (writeBits bits s) = .next t) : t.WriterSound :=
  endCommand_writerSound (fun _ => writeBits_writerSound hs)
    (fun k u hu => absurd hu (writeBits_not_raise bits s u k)) h

theorem exec_bwFlush_writerSound {s t : State} (hs : s.WriterSound) (h : exec .bwFlush s = .next t) :
    t.WriterSound := by
  refine endCommand_writerSound (fun _ => flush_writerSound hs) (fun k u hu => ?_) h
  rcases flush_cases s with ⟨v, hv, -⟩ | hr
  · rw [hv] at hu; exact absurd hu (by simp)
  · rw [hr] at hu; exact absurd hu (by simp)

theorem exec_encSym_writerSound {c : Byte} {s t : State} (hs : s.WriterSound) (h : exec (.encSym c) s = .next t) :
    t.WriterSound := by
  have e0 : exec (.encSym c) s = endCommand (encodeSymbol c s) := rfl
  rw [e0, encodeSymbol] at h
  split_ifs at h
  · obtain rfl := Host.Outcome.next.inj h; exact hs
  · exact execWriteBits_writerSound hs h

/-! ### The output (R28, R62) -/

/-- OBUF in canonical form and within its capacity, OLEN too, and every byte below OLEN emitted. -/
def State.OutputSound (s : State) : Prop :=
  (Mem.wf s.obuf = true ∧ Mem.below s.obufCap.toNat s.obuf = true) ∧ s.olen.toNat ≤ s.obufCap.toNat ∧
  ∀ a, a < s.olen.toNat → (Mem.read s.obuf a).isSome = true

theorem State.Sound.outputSound {s : State} (h : s.Sound) : s.OutputSound := ⟨h.obufWf, h.lengths.2, h.outputListed⟩

/-- An appended byte is one of those appended, or was there before. -/
theorem OutputGrows.outputSound {s t : State} (h : OutputGrows s t) (hs : s.OutputSound) : t.OutputSound := by
  have hcap : t.obufCap = s.obufCap := by obtain ⟨-, -, -, -, k⟩ := h; exact k
  obtain ⟨bs, ⟨hlen, hbytes, hother⟩, hfit⟩ := h.appended
  obtain ⟨⟨hwf, hbelow⟩, holen, hlisted⟩ := hs
  refine ⟨h.wf hwf hbelow, ?_, fun a ha => ?_⟩
  · rw [hcap]
    rcases hfit with rfl | hfit
    · rw [hlen]; exact holen
    · exact hfit
  · rcases Nat.lt_or_ge a s.olen.toNat with hlt | hge
    · rw [hother a (.inl hlt)]; exact hlisted a hlt
    · have hb := hbytes (a - s.olen.toNat) ((Nat.sub_lt_iff_lt_add' hge).mpr (hlen ▸ ha))
      rw [Nat.add_sub_of_le hge] at hb
      exact Option.isSome_of_eq_some hb

/-! ### The tree and the code table (R138, R35) -/

theorem Tree.Rooted.nn_le {t : Tree} (h : t.Rooted) : t.nn.toNat ≤ 511 := by
  obtain ⟨-, hnn, -⟩ := h
  exact hnn ▸ t.root.isLt

theorem CodeEntry.zero_proper : CodeEntry.zero.Proper := ⟨fun hv => absurd hv Bool.false_ne_true, fun _ => rfl⟩

/-- The codes of a tree that TB.BUILD may leave are at least 1 and at most 255 long (R154). -/
theorem Tree.Rooted.codes_proper {t : Tree} (h : t.Rooted) (hd : t.DescendsBelow (t.root.val + 1)) (c : Byte) :
    ((codes t).at c).Proper := by
  obtain ⟨hroot, -, hheight, -⟩ := h
  rcases codes_at t c with ⟨q, hq, -, e⟩ | ⟨-, e⟩ <;> rw [e]
  · obtain ⟨hpos, hle⟩ := leafPaths_length hd (Nat.lt_succ_self _) hheight hroot q hq
    exact proper_entryOf q.2 hle hpos
  · exact CodeEntry.zero_proper

theorem Built.codes_proper {f : Table U64} {t0 t : Tree} (h : Built f t0 t) (c : Byte) : ((codes t).at c).Proper :=
  h.rooted.codes_proper (h.nnRoot ▸ h.descends) c

/-! ### Commands: each leaves what it writes sound, and the rest as it was -/

/-- Any command of the writer. -/
theorem State.Sound.writes {s t : State} (h : s.Sound) (hg : OutputGrows s t) (hw : t.WriterSound) (e : t = { s with
    obuf := t.obuf, olen := t.olen, acc := t.acc, nbits := t.nbits, err := 0#4, busy := false }) : t.Inv := by
  obtain ⟨hwf, holen, hlisted⟩ := hg.outputSound h.outputSound
  rw [e] at hwf holen hlisted hw ⊢
  exact { h with writer := hw, obufWf := hwf, lengths := ⟨h.lengths.1, holen⟩, outputListed := hlisted }

theorem exec_tbBuild_inv {s t : State} (hs : s.Sound) (h : exec .tbBuild s = .next t) : t.Inv := by
  rcases exec_tbBuild_next h with ⟨-, hb, -, e⟩ | ⟨-, e⟩ <;> rw [e]
  · exact { hs with nodes := ⟨hb.rooted.nn_le, hb.descending hs.nodes.2⟩, rooted := fun _ => hb.rooted }
  · exact { hs with
      errLegal := ErrKind.emptyInput.code_legal
      nodes := ⟨Nat.zero_le _, hs.nodes.2⟩
      rooted := fun hv => absurd hv Bool.false_ne_true }

theorem exec_cgGen_inv {s t : State} (hs : s.Sound) (h : exec .cgGen s = .next t) : t.Inv := by
  have e0 : exec .cgGen s = endCommand (generateCodes s) := rfl
  rw [e0] at h
  cases hv : s.treeValid with
  | false =>
    rw [generateCodes_noTree hv] at h
    obtain rfl := Host.Outcome.next.inj h
    exact hs.abort _
  | true =>
    have hd : s.tree.DescendsBelow (s.tree.root.val + 1) := hs.nodes.2.below _
    rw [generateCodes_ok hv hd] at h
    obtain rfl := Host.Outcome.next.inj h
    exact { hs with stackEmpty := rfl, codeProper := (hs.rooted hv).codes_proper hd }

theorem exec_decSym_inv {s t : State} (hs : s.Sound) (h : exec .decSym s = .next t) : t.Inv := by
  obtain ⟨⟨-, -, hrem⟩, hg, ⟨-, e⟩ | ⟨-, e⟩ | ⟨-, e⟩⟩ := exec_decSym_next h
  · obtain ⟨hwf, holen, hlisted⟩ := hg.outputSound hs.outputSound
    have hr := hrem hs.reader
    rw [e] at hwf holen hlisted hr ⊢
    exact { hs with
      reader := hr, obufWf := hwf, lengths := ⟨hs.lengths.1, holen⟩, outputListed := hlisted }
  · have hr := hrem hs.reader
    rw [e] at hr ⊢
    exact { hs with errLegal := ErrKind.truncatedStream.code_legal, reader := hr }
  · rw [e]; exact hs.abort .illegalCommand

/-- What a compound command's first step leaves: the writer and the reader empty, no output, no tree (R192). -/
theorem State.Sound.init {s : State} (h : s.Sound) : s.init.Sound :=
  { h with
    writer := s.clearWriter_pending.writer
    reader := Nat.zero_le _
    lengths := ⟨h.lengths.1, Nat.zero_le _⟩
    outputListed := fun a ha => absurd ha (Nat.not_lt_zero a)
    rooted := fun hv => absurd hv Bool.false_ne_true }

theorem exec_encRun_inv {s t : State} (hs : s.Sound) (h : exec .encRun s = .next t) : t.Inv := by
  rcases exec_encRun_next h with ⟨-, rfl⟩ | ⟨-, -, -, -, -, hg, hb, hcode, e⟩
  · exact { hs.init with
      errLegal := ErrKind.emptyInput.code_legal
      nodes := ⟨Nat.zero_le _, hs.nodes.2⟩
      rooted := fun hv => absurd hv Bool.false_ne_true }
  · obtain ⟨hwf, holen, hlisted⟩ := hg.outputSound hs.init.outputSound
    have hproper := hcode ▸ hb.codes_proper
    rw [e] at hwf holen hlisted ⊢
    exact { hs.init with
      obufWf := hwf
      lengths := ⟨hs.lengths.1, holen⟩
      outputListed := hlisted
      stackEmpty := rfl
      nodes := ⟨hb.rooted.nn_le, hb.descending hs.nodes.2⟩
      rooted := fun hv => absurd hv Bool.false_ne_true
      codeProper := hproper }

theorem exec_decRun_inv {s t : State} (hs : s.Sound) (h : exec .decRun s = .next t) : t.Inv := by
  rcases exec_decRun_next h with ⟨-, rfl⟩ | ⟨-, -, rfl⟩ | ⟨-, -, -, -, hg, ⟨-, -, hrem⟩, hb, -, -, -, -, herr, -, e⟩
  · exact hs.init.abort .formatError
  · exact { hs.init with
      errLegal := ErrKind.emptyInput.code_legal
      nodes := ⟨Nat.zero_le _, hs.nodes.2⟩
      rooted := fun hv => absurd hv Bool.false_ne_true }
  · obtain ⟨hwf, holen, hlisted⟩ := hg.outputSound hs.init.outputSound
    have hr : t.rem.toNat ≤ 7 := hrem (Nat.zero_le _)
    have hlegal : t.err ≠ 6#4 ∧ t.err.toNat ≤ 7 := by rw [herr]; split_ifs <;> decide
    rw [e] at hwf holen hlisted hr hlegal ⊢
    exact { hs.init with
      errLegal := hlegal
      reader := hr
      obufWf := hwf
      lengths := ⟨hs.lengths.1, holen⟩
      outputListed := hlisted
      nodes := ⟨hb.rooted.nn_le, hb.descending hs.nodes.2⟩
      rooted := fun hv => absurd hv Bool.false_ne_true }

/-- Every command that ends meets the invariant. -/
theorem exec_inv {i : Instr} {s t : State} (hs : s.Sound) (h : exec i s = .next t) : t.Inv := by
  cases i with
  | fcRun =>
    obtain rfl := Host.Outcome.next.inj ((exec_fcRun s).symm.trans h)
    exact { hs with }
  | tbBuild => exact exec_tbBuild_inv hs h
  | cgGen => exact exec_cgGen_inv hs h
  | bwBit b =>
    obtain ⟨hg, e⟩ := exec_bwBit_next h
    refine hs.writes hg (execWriteBits_writerSound (bits := [b]) hs.writerSound ?_) e
    rw [← writeBit_eq]; exact h
  | bwBits =>
    obtain ⟨hg, e⟩ := exec_bwBits_next h
    exact hs.writes hg (execWriteBits_writerSound hs.writerSound h) e
  | bwFlush =>
    obtain ⟨hg, e⟩ := exec_bwFlush_next h
    exact hs.writes hg (exec_bwFlush_writerSound hs.writerSound h) e
  | brBit =>
    obtain ⟨⟨-, -, hrem⟩, e | e⟩ := exec_brBit_next h
    · have hr := hrem hs.reader
      rw [e] at hr ⊢
      exact { hs with reader := hr }
    · rw [e]; exact hs.abort .streamExhausted
  | cfWrhdr =>
    obtain ⟨hg, e, hacc, hnbits⟩ := exec_cfWrhdr_next h
    refine hs.writes hg ?_ e
    rw [State.WriterSound, hacc, hnbits]; exact hs.writer
  | cfRdhdr =>
    rcases exec_cfRdhdr_next h with ⟨-, e⟩ | e <;> rw [e]
    · exact { hs with reader := Nat.zero_le _ }
    · exact hs.abort .formatError
  | encSym c =>
    rcases exec_encSym_next h with ⟨hg, e⟩ | e
    · exact hs.writes hg (exec_encSym_writerSound hs.writerSound h) e
    · rw [e]; exact hs.abort .invalidCode
  | encRun => exact exec_encRun_inv hs h
  | decSym => exact exec_decSym_inv hs h
  | decRun => exact exec_decRun_inv hs h

/-! ### The host's transactions -/

theorem Tree.nodeAt_reset (h : Handle) : Tree.reset.nodeAt h = Node.zero := by simp [Tree.reset, Tree.nodeAt]

/-- The reset event: nothing listed, nothing valid, every node a leaf (R240). -/
theorem resetEvent_inv (s : State) : (resetEvent s).Inv where
  idle := rfl
  errLegal := zero_errLegal
  writer := s.clearWriter_pending.writer
  reader := Nat.zero_le _
  ibufWf := ⟨rfl, rfl⟩
  obufWf := ⟨rfl, rfl⟩
  lengths := ⟨Nat.zero_le _, Nat.zero_le _⟩
  outputListed a h := absurd h (Nat.not_lt_zero a)
  stackEmpty := rfl
  nodes := ⟨Nat.zero_le _, fun h hk => by
    have hz : (resetEvent s).tree.nodeAt h = Node.zero := Tree.nodeAt_reset h
    rw [hz] at hk; cases hk⟩
  rooted h := absurd h Bool.false_ne_true
  codeProper c := by
    have hz : (resetEvent s).code.at c = CodeEntry.zero := Table.at_replicate _ c
    rw [hz]; exact CodeEntry.zero_proper

/-- The transactions still pending are no part of the invariant (log 1). -/
theorem State.Inv.popHost {s : State} (h : s.Inv) (rest : List HostAct) : (s.popHost rest).Inv := { h with }

theorem State.Sound.setBusy {s : State} (h : s.Sound) : s.setBusy.Sound := h

/-- A host write to a place other than CMD writes at most ILEN, up to the capacity, a byte of IBUF below it, or a field
the invariant does not speak of. -/
theorem writePort_inv {s t : State} {v : HostWord} {p : Port} (hs : s.Inv) (h : writePort s v p = .next t) : t.Inv := by
  rcases writePort_next h with rfl | ⟨x, rfl, hx⟩ | ⟨x, rfl⟩ | ⟨x, rfl⟩ | ⟨x, rfl⟩ | ⟨a, x, ha, rfl⟩ | ⟨f, rfl⟩
  · exact hs
  · exact { hs with lengths := ⟨hx, hs.lengths.2⟩ }
  · exact { hs with }
  · exact { hs with }
  · exact { hs with }
  · exact { hs with ibufWf := ⟨Mem.wf_write a x hs.ibufWf.1, Mem.below_write x ha hs.ibufWf.2⟩ }
  · exact { hs with }

end Sys2Proof.Machine

open Sys2Proof Sys2Proof.Machine

/-- Settles O58, by what the step was: idling, an answered read, the reset event, an illegal word, a command, or a host
write. -/
theorem stepKeepsInvariant : Obligations.StepKeepsInvariant := by
  intro s t hs h
  rcases step_next h with ⟨-, rfl⟩ | ⟨_, rest, -, rfl | rfl | rfl | ⟨i, hi⟩ | ⟨-, v, p, hp⟩⟩
  · exact hs
  · exact hs.popHost rest
  · exact resetEvent_inv _
  · exact (hs.popHost rest).sound.setBusy.abort .illegalCommand
  · exact exec_inv (hs.popHost rest).sound.setBusy hi
  · exact writePort_inv (hs.popHost rest) hp

end

section
/-! PROOFS. One transaction of the host while HFC is idle (spec/10_state.md R23 to R25, R44; spec/20_memory.md R60). -/

namespace Sys2Proof.Machine

/-! ### Writes -/

/-- A write to CMD pending while idle: the step issues the word (R24). -/
theorem step_cmd {s : State} {w : Word} {i : Instr} {rest : List HostAct} (hb : s.busy = false)
    (hh : s.host = .write (.reg 0x00) (w.setWidth 264) :: rest) (hd : decode w = .command i) :
    step s = exec i { s with host := rest, busy := true } := by
  have hb' : (s.popHost rest).busy = false := hb
  have htaken : (s.popHost rest).setBusy = { s with host := rest, busy := true } := rfl
  rw [← htaken]
  calc step s = hostWrite (s.popHost rest) (.reg 0x00) (w.setWidth 264) := step_of_host hh
    _ = issue w (s.popHost rest) := hostWrite_cmd hb' w
    _ = exec i (s.popHost rest).setBusy := issue_command hd _

/-- The transaction that `withFetchWord` puts in front, as a write of the word (log 16). -/
theorem cmdWrite_toNat (w : Word) : cmdWrite (w.toNat % 2 ^ 16) = .write (.reg 0x00) (w.setWidth 264) := by
  rw [Nat.mod_eq_of_lt w.isLt]
  exact congrArg (HostAct.write (.reg 0x00)) (BitVec.ofNat_toNat 264 w)

theorem State.withFetchWord_host (s : State) (w : Word) :
    (s.withFetchWord 16 w.toNat).host = .write (.reg 0x00) (w.setWidth 264) :: s.host :=
  congrArg (· :: s.host) (cmdWrite_toNat w)

theorem State.withFetchWord_busy (s : State) (w : Word) : (s.withFetchWord 16 w.toNat).busy = false := rfl

/-- With that write taken the state is the one it was put in front of. -/
theorem State.withFetchWord_taken (s : State) (w : Word) :
    { s.withFetchWord 16 w.toNat with host := s.host, busy := true } = { s with busy := true } := rfl

/-- A write to any other place pending while idle. -/
theorem step_write {s : State} {p : Port} {v : HostWord} {rest : List HostAct} (hb : s.busy = false)
    (hh : s.host = .write p v :: rest) (hp : p ≠ .reg 0x00) : step s = writePort (s.popHost rest) v p :=
  (step_of_host hh).trans (hostWrite_other (s := s.popHost rest) hb hp v)

theorem writeReg_ilen {s : State} {v : HostWord} (h : v.toNat ≤ s.ibufCap.toNat) :
    writeReg s 0x03 v = .next { s with ilen := v.setWidth 64 } := by
  have hfit : v.toNat < 2 ^ 64 := lt_of_le_of_lt h s.ibufCap.isLt
  have hcap : ¬ (fits 64 v && !decide (v.toNat ≤ s.ibufCap.toNat)) = true := by simp [h]
  exact (if_neg hcap).trans (writeField_fits hfit _)

theorem writeReg_ilen_aboveCap {s : State} {v : HostWord} (h : s.ibufCap.toNat < v.toNat) (hfit : v.toNat < 2 ^ 64) :
    writeReg s 0x03 v = .refused .ilenAboveCap := by
  have hf : fits 64 v = true := decide_eq_true hfit
  have hcap : (fits 64 v && !decide (v.toNat ≤ s.ibufCap.toNat)) = true := by simp [hf, h]
  exact if_pos hcap

/-- R228: the registers that the host only reads. -/
theorem writeReg_readOnly {no : Nat} (hno : no ∈ [0x01, 0x02, 0x04, 0x05, 0x09, 0x0A, 0x0B, 0x0C, 0x0D, 0x0E, 0x0F, 0x10])
    (s : State) (v : HostWord) : writeReg s no v = .next s := by
  have hne : no ≠ 0x03 ∧ no ≠ 0x06 ∧ no ≠ 0x07 ∧ no ≠ 0x08 ∧ no ≤ 0x10 := by
    revert no; decide
  obtain ⟨h3, h6, h7, h8, hle⟩ := hne
  exact (if_neg h3).trans <| (if_neg h6).trans <| (if_neg h7).trans <| (if_neg h8).trans (if_pos hle)

/-- Entry `i` of a window written (R9, R44). -/
theorem Table.at_setIfInBounds {α : Type} (t : Table α) {i : Nat} (hi : i < 256) (x : α) (c : Byte) :
    Table.at (t.setIfInBounds i x) c = if c = BitVec.ofNat 8 i then x else t.at c := by
  have hc : c = BitVec.ofNat 8 i ↔ i = c.toNat := by
    rw [← BitVec.toNat_inj, BitVec.toNat_ofNat, Nat.mod_eq_of_lt hi, eq_comm]
  calc Table.at (t.setIfInBounds i x) c = if i = c.toNat then x else t.at c := Vector.getElem_setIfInBounds c.isLt
    _ = if c = BitVec.ofNat 8 i then x else t.at c := by simp only [hc]

/-! ### Reads -/

theorem hostRead_idle {s : State} (hb : s.busy = false) (p : Port) : hostRead s p = portValue s p := by
  have hgo : ¬ (s.busy = true ∧ p ≠ .reg 0x01) := by simp [hb]
  exact if_neg hgo

/-- R25: bit 0 of STATUS is BUSY, bit 1 TREE_VALID, bit 2 OUT_VALID. -/
theorem State.status_bits (s : State) : s.status.getLsbD 0 = s.busy ∧ s.status.getLsbD 1 = s.treeValid ∧
    s.status.getLsbD 2 = s.outValid := by
  unfold State.status
  cases s.outValid <;> cases s.treeValid <;> cases s.busy <;> decide

theorem getLsbD_toHost {w : Nat} (v : BitVec w) {i : Nat} (h : i < 264) : (toHost v).getLsbD i = v.getLsbD i := by
  rw [show toHost v = v.setWidth 264 from rfl, BitVec.getLsbD_setWidth]
  simp [h]

theorem toHost_status (s : State) : (toHost s.status).getLsbD 0 = s.busy ∧ (toHost s.status).getLsbD 1 = s.treeValid ∧
    (toHost s.status).getLsbD 2 = s.outValid ∧ (toHost s.status).toNat < 8 := by
  have hlt : (toHost s.status).toNat < 8 := (BitVec.toNat_setWidth_of_le (by decide)).trans_lt s.status.isLt
  obtain ⟨h0, h1, h2⟩ := s.status_bits
  exact ⟨(getLsbD_toHost _ (by decide)).trans h0, (getLsbD_toHost _ (by decide)).trans h1,
    (getLsbD_toHost _ (by decide)).trans h2, hlt⟩

/-- A number that fits in its field is the same number as the host's word. -/
theorem toHost_ofNat {w n : Nat} (h : n < 2 ^ w) : toHost (BitVec.ofNat w n) = BitVec.ofNat 264 n := by
  apply BitVec.eq_of_toNat_eq
  calc (toHost (BitVec.ofNat w n)).toNat = n % 2 ^ w % 2 ^ 264 := by
        rw [← BitVec.toNat_ofNat]; exact BitVec.toNat_setWidth ..
    _ = (BitVec.ofNat 264 n).toNat := by rw [Nat.mod_eq_of_lt h, BitVec.toNat_ofNat]

theorem toHost_ofBool (b : Bool) : toHost (BitVec.ofBool b) = BitVec.ofNat 264 b.toNat := by
  rw [← toHost_ofNat (w := 1) b.toNat_lt]
  cases b <;> rfl

theorem toHost_handleBits (h : Handle) : toHost (handleBits h) = BitVec.ofNat 264 h.val :=
  toHost_ofNat (lt_trans h.isLt (by decide))

theorem portValue_noSuchRegister {no : Nat} (h : 0x10 < no) (s : State) :
    portValue s (.reg no) = .refused (.noSuchRegister no) := by
  obtain ⟨k, rfl⟩ := Nat.exists_eq_add_of_le' h
  rfl

theorem portValue_ibuf {s : State} {a : Nat} {b : Byte} (hlen : a < s.ilen.toNat) (hcap : a < s.ibufCap.toNat)
    (hr : Mem.read s.ibuf a = some b) : portValue s (.ibuf a) = .next (toHost b) := by
  have hbyte : hostIbufByte s a = b := (if_pos hlen).trans (congrArg (Option.getD · _) hr)
  rw [← hbyte]
  exact if_pos hcap

theorem portValue_obuf {s : State} {a : Nat} {b : Byte} (hlen : a < s.olen.toNat) (hcap : a < s.obufCap.toNat)
    (hr : Mem.read s.obuf a = some b) : portValue s (.obuf a) = .next (toHost b) := by
  have hbyte : hostObufByte s a = b := (if_pos hlen).trans (congrArg (Option.getD · _) hr)
  rw [← hbyte]
  exact if_pos hcap

end Sys2Proof.Machine

open Sys2Proof Sys2Proof.Machine

/-- Settles O10: the step is the write to the port, which takes the value as it fits. -/
theorem hostWritesBuffersAndWindows : Obligations.HostWritesBuffersAndWindows := by
  intro s p v rest hb hh
  refine ⟨?_, ?_, ?_, ?_⟩
  · rintro a rfl hcap hfit
    refine ⟨{ s with host := rest, ibuf := Mem.write s.ibuf a (v.setWidth 8) }, ?_, Mem.read_write_same _ _ _,
      fun x hx => Mem.read_write_other _ _ hx, rfl⟩
    rw [step_write hb hh (by simp)]
    exact (if_pos hcap).trans (writeField_fits hfit _)
  · rintro i rfl hi hfit
    refine ⟨{ s with host := rest, freq := s.freq.setIfInBounds i (v.setWidth 64) }, ?_,
      Table.at_setIfInBounds _ hi _, rfl⟩
    rw [step_write hb hh (by simp)]
    exact (if_pos hi).trans (writeField_fits hfit _)
  · rintro i rfl hi
    rw [step_write hb hh (by simp)]
    exact if_pos hi
  · rintro i rfl hi
    rw [step_write hb hh (by simp)]
    exact if_pos hi

/-- Settles O5; `withFetchWord` is the same with the word's write put in front. -/
theorem stepRunsDecodedCommand : Obligations.StepRunsDecodedCommand := by
  refine ⟨fun s w i rest hb hh hd => step_cmd hb hh hd, fun s w i hd => ?_⟩
  rw [step_cmd (s.withFetchWord_busy w) (s.withFetchWord_host w) hd, State.withFetchWord_taken]

/-- Settles O9, register by register. -/
theorem hostWritesRegisters : Obligations.HostWritesRegisters := by
  intro s no v rest hb hh
  have hstep (hno : no ≠ 0x00) : step s = writeReg (s.popHost rest) no v := step_write hb hh (by simpa using hno)
  refine ⟨?_, ?_, ?_, ?_, ?_, ?_⟩
  · rintro rfl hcap
    exact (hstep (by decide)).trans (writeReg_ilen (s := s.popHost rest) hcap)
  · rintro rfl hcap hfit
    exact (hstep (by decide)).trans (writeReg_ilen_aboveCap (s := s.popHost rest) hcap hfit)
  · rintro rfl hfit
    exact (hstep (by decide)).trans (writeField_fits hfit fun x => { s with host := rest, origSize := x })
  · rintro rfl hfit
    exact (hstep (by decide)).trans (writeField_fits hfit fun x => { s with host := rest, wbLen := x })
  · rintro rfl hfit
    exact (hstep (by decide)).trans (writeField_fits hfit fun x => { s with host := rest, wbVal := x })
  · intro hno
    exact (hstep (by rintro rfl; exact absurd hno (by decide))).trans (writeReg_readOnly hno _ v)

/-- Settles O11, port by port. -/
theorem hostReads : Obligations.HostReads := by
  intro s hb
  have hread := hostRead_idle hb
  exact ⟨hread _, ⟨_, hread _, toHost_status s⟩, hread _, hread _, hread _, hread _, hread _, hread _, hread _, hread _,
    hread _, hread _, hread _, (hread _).trans (congrArg Host.Outcome.next (toHost_ofBool s.rbit)), hread _,
    (hread _).trans (congrArg Host.Outcome.next (toHost_handleBits s.tree.root)), hread _,
    fun no hno => (hread _).trans (portValue_noSuchRegister hno s), fun c => (hread _).trans (dif_pos c.isLt),
    fun c => (hread _).trans (dif_pos c.isLt), fun h => (hread _).trans (dif_pos h.isLt),
    fun a b hlen hcap hr => (hread _).trans (portValue_ibuf hlen hcap hr),
    fun a b hlen hcap hr => (hread _).trans (portValue_obuf hlen hcap hr)⟩

end

section
/-! PROOFS. The command words: the encoder and the decoder agree, and the rows of the opcode map exclude each other
(spec/30_encoding.md R90 to R93). -/

namespace Sys2Proof

/-! ### From a word to its command and back -/

/-- The decoder answers a command only for a word that selects a row, and then the row's command (R91). -/
theorem selects_of_decode {w : Word} {i : Instr} (h : decode w = .command i) :
    ∃ r ∈ opcodeTable, r.selects w = true ∧ r.make w = i := by
  by_cases hno : ∀ r ∈ opcodeTable, r.selects w = false
  · obtain ⟨e, he⟩ := (decode_illegal_iff w).mpr hno
    rw [he] at h
    cases h
  · push Not at hno
    obtain ⟨r, hr, hsel⟩ := hno
    have hsel : r.selects w = true := by simpa using hsel
    exact ⟨r, hr, hsel, Decoded.command.inj ((decode_of_selects hr hsel).symm.trans h)⟩

/-- What the mask of format B leaves out is the bit operand in its place (R90, R92). -/
theorem and_bitField (w : Word) : w &&& 0x0100#16 = (BitVec.ofBool (bitOperand w)).setWidth 16 <<< 8 := by
  show w &&& 0x0100#16 = (BitVec.ofBool (w.getLsbD 8)).setWidth 16 <<< 8
  ext k hk
  simp only [BitVec.getElem_and, BitVec.getElem_shiftLeft]
  interval_cases k <;> simp

/-- What the mask of format S leaves out is the symbol operand in its place (R90, R92). -/
theorem and_symbolField (w : Word) : w &&& 0xFF00#16 = (symbolOperand w).setWidth 16 <<< 8 := by
  show w &&& 0xFF00#16 = (w.extractLsb' 8 8).setWidth 16 <<< 8
  ext k hk
  simp only [BitVec.getElem_and, BitVec.getElem_shiftLeft]
  interval_cases k <;> simp

/-- The encoding of a row's command: the pattern, and from the word the bits that the mask leaves out. -/
theorem encode_make_eq (w : Word) : ∀ r ∈ opcodeTable, encode (r.make w) = r.pattern ||| (w &&& ~~~r.mask) := by
  have formatN (p : Word) : p = p ||| (w &&& ~~~0xFFFF#16) := by simp
  have formatB : encode (.bwBit (bitOperand w)) = 0x0040#16 ||| (w &&& ~~~0xFEFF#16) :=
    congrArg (0x0040#16 ||| ·) (and_bitField w).symm
  have formatS : encode (.encSym (symbolOperand w)) = 0x0070#16 ||| (w &&& ~~~0x00FF#16) :=
    congrArg (0x0070#16 ||| ·) (and_symbolField w).symm
  simp only [opcodeTable, List.mem_cons, List.not_mem_nil, or_false, forall_eq_or_imp, forall_eq]
  exact ⟨formatN _, formatN _, formatN _, formatB, formatN _, formatN _, formatN _, formatN _, formatN _, formatS,
    formatN _, formatN _, formatN _⟩

/-- A word that selects a row is the encoding of the row's command. -/
theorem encode_make {r : OpcodeRow} {w : Word} (hr : r ∈ opcodeTable) (h : r.selects w = true) :
    encode (r.make w) = w := by
  have hpat : w &&& r.mask = r.pattern := eq_of_beq h
  calc encode (r.make w) = (w &&& r.mask) ||| (w &&& ~~~r.mask) := by rw [encode_make_eq w r hr, hpat]
    _ = w := by rw [← BitVec.and_or_distrib_left, BitVec.or_not_self, BitVec.and_allOnes]

/-- The symbol operand of an encoded ENC.SYM is its symbol (R92). -/
theorem symbolOperand_encSym (s : Byte) : symbolOperand (encode (.encSym s)) = s := by
  show (0x0070#16 ||| s.setWidth 16 <<< 8).extractLsb' 8 8 = s
  ext k hk
  simp only [BitVec.getElem_extractLsb', BitVec.getLsbD_or, BitVec.getLsbD_shiftLeft]
  interval_cases k <;> simp

/-- The op field of an encoded ENC.SYM is the opcode (R90). -/
theorem encSym_and_mask (s : Byte) : encode (.encSym s) &&& 0x00FF#16 = 0x0070#16 := by
  show (0x0070#16 ||| s.setWidth 16 <<< 8) &&& 0x00FF#16 = 0x0070#16
  ext k hk
  simp only [BitVec.getElem_and, BitVec.getElem_or, BitVec.getElem_shiftLeft]
  interval_cases k <;> simp

theorem decode_encode (i : Instr) : decode (encode i) = .command i := by
  cases i with
  | bwBit b => cases b <;> decide
  | encSym s =>
    have hrow : ⟨"ENC.SYM", 0x0070#16, 0x00FF#16, fun w => .encSym (symbolOperand w)⟩ ∈ opcodeTable := by
      simp [opcodeTable]
    calc decode (encode (.encSym s)) = .command (.encSym (symbolOperand (encode (.encSym s)))) :=
          decode_of_selects hrow (beq_iff_eq.mpr (encSym_and_mask s))
      _ = .command (.encSym s) := by rw [symbolOperand_encSym]
  | _ => decide

theorem decode_eq_command_iff {w : Word} {i : Instr} : decode w = .command i ↔ w = encode i := by
  constructor
  · intro h
    obtain ⟨r, hr, hsel, rfl⟩ := selects_of_decode h
    exact (encode_make hr hsel).symm
  · rintro rfl
    exact decode_encode i

/-- No word selects two rows of different patterns (R91). -/
theorem OpcodeRow.selects_exclusive {r q : OpcodeRow} (hr : r ∈ opcodeTable) (hq : q ∈ opcodeTable)
    (hne : r.pattern ≠ q.pattern) (w : Word) : ¬ (r.selects w = true ∧ q.selects w = true) :=
  fun ⟨h, h'⟩ => hne ((selects_op hr h).symm.trans (selects_op hq h'))

end Sys2Proof

open Sys2Proof Sys2Proof.Machine

/-- Settles O1; every command is well-formed, so the premise is not used. -/
theorem decodeEncodeAgree : Obligations.DecodeEncodeAgree := fun _ _ _ => decode_eq_command_iff

/-- Settles O2: two rows that select a word have the word's op field as their pattern, and the patterns differ. -/
theorem opcodeRowsDisjoint : Obligations.OpcodeRowsDisjoint :=
  ⟨rfl, opcodeTable_patterns.imp_of_mem fun hr hq => OpcodeRow.selects_exclusive hr hq⟩

/-- Settles O4: the words of commands are their encodings. -/
theorem specWordsDecode : Obligations.SpecWordsDecode :=
  ⟨decode_encode .fcRun, decode_encode .tbBuild, decode_encode .cgGen, decode_encode (.bwBit false),
    decode_encode (.bwBit true), decode_encode .bwBits, decode_encode .bwFlush, decode_encode .brBit,
    decode_encode .cfWrhdr, decode_encode .cfRdhdr, decode_encode (.encSym 0x61#8), decode_encode .encRun,
    decode_encode .decSym, decode_encode .decRun, by decide, by decide, by decide⟩

end

section
/-! PROOFS. The layout of the windows' entries (spec/30_encoding.md R102, R104). -/

namespace Sys2Proof.Machine

theorem handleBits_toNat (h : Handle) : (handleBits h).toNat = h.val :=
  (BitVec.toNat_ofNat ..).trans (Nat.mod_eq_of_lt (lt_trans h.isLt (by decide)))

theorem NodeKind.bit_eq_ofBool (k : NodeKind) : k.bit = BitVec.ofBool (decide (k = .internal)) := by
  cases k <;> decide

/-- A field above the low part of a concatenation is a field of its high part. -/
theorem extractLsb'_append_above {v w : Nat} (k n : Nat) (hi : BitVec v) (lo : BitVec w) :
    (hi ++ lo).extractLsb' (w + k) n = hi.extractLsb' k n := by
  rw [BitVec.extractLsb'_append_eq_of_le (Nat.le_add_right w k), Nat.add_sub_cancel_left]

/-- The same for one bit. -/
theorem getLsbD_append_above {v w : Nat} (k : Nat) (hi : BitVec v) (lo : BitVec w) :
    (hi ++ lo).getLsbD (w + k) = hi.getLsbD k := by
  rw [BitVec.getLsbD_append, if_neg (Nat.not_lt.mpr (Nat.le_add_right w k)), Nat.add_sub_cancel_left]

theorem CodeEntry.pack_valid (e : CodeEntry) : e.pack.getLsbD 263 = e.valid :=
  calc e.pack.getLsbD 263 = (BitVec.ofBool e.valid ++ e.len).getLsbD 8 := getLsbD_append_above 8 _ _
    _ = (BitVec.ofBool e.valid).getLsbD 0 := getLsbD_append_above 0 _ _
    _ = e.valid := BitVec.getLsbD_ofBool _ _

theorem CodeEntry.pack_len (e : CodeEntry) : e.pack.extractLsb' 255 8 = e.len :=
  (extractLsb'_append_above 0 8 _ _).trans BitVec.extractLsb'_append_eq_right

theorem CodeEntry.pack_pat (e : CodeEntry) : e.pack.extractLsb' 0 255 = e.pat := BitVec.extractLsb'_append_eq_right

theorem Node.pack_kind (n : Node) : n.pack.getLsbD 90 = decide (n.kind = .internal) :=
  calc n.pack.getLsbD 90 = (n.kind.bit ++ n.sym ++ handleBits n.left ++ handleBits n.right).getLsbD 26 :=
        getLsbD_append_above 26 _ _
    _ = (n.kind.bit ++ n.sym ++ handleBits n.left).getLsbD 17 := getLsbD_append_above 17 _ _
    _ = (n.kind.bit ++ n.sym).getLsbD 8 := getLsbD_append_above 8 _ _
    _ = n.kind.bit.getLsbD 0 := getLsbD_append_above 0 _ _
    _ = decide (n.kind = .internal) := by rw [n.kind.bit_eq_ofBool]; exact BitVec.getLsbD_ofBool _ _

theorem Node.pack_sym (n : Node) : n.pack.extractLsb' 82 8 = n.sym :=
  calc n.pack.extractLsb' 82 8 = (n.kind.bit ++ n.sym ++ handleBits n.left ++ handleBits n.right).extractLsb' 18 8 :=
        extractLsb'_append_above 18 8 _ _
    _ = (n.kind.bit ++ n.sym ++ handleBits n.left).extractLsb' 9 8 := extractLsb'_append_above 9 8 _ _
    _ = (n.kind.bit ++ n.sym).extractLsb' 0 8 := extractLsb'_append_above 0 8 _ _
    _ = n.sym := BitVec.extractLsb'_append_eq_right

theorem Node.pack_left (n : Node) : n.pack.extractLsb' 73 9 = handleBits n.left :=
  calc n.pack.extractLsb' 73 9 = (n.kind.bit ++ n.sym ++ handleBits n.left ++ handleBits n.right).extractLsb' 9 9 :=
        extractLsb'_append_above 9 9 _ _
    _ = (n.kind.bit ++ n.sym ++ handleBits n.left).extractLsb' 0 9 := extractLsb'_append_above 0 9 _ _
    _ = handleBits n.left := BitVec.extractLsb'_append_eq_right

theorem Node.pack_right (n : Node) : n.pack.extractLsb' 64 9 = handleBits n.right :=
  (extractLsb'_append_above 0 9 _ _).trans BitVec.extractLsb'_append_eq_right

theorem Node.pack_weight (n : Node) : n.pack.extractLsb' 0 64 = n.weight := BitVec.extractLsb'_append_eq_right

end Sys2Proof.Machine

open Sys2Proof Sys2Proof.Machine

/-- Settles O12, field by field. -/
theorem windowLayouts : Obligations.WindowLayouts :=
  ⟨fun e => ⟨e.pack_valid, e.pack_len, e.pack_pat⟩, fun n => ⟨n.pack_kind, n.pack_sym,
    (congrArg BitVec.toNat n.pack_left).trans (handleBits_toNat _),
    (congrArg BitVec.toNat n.pack_right).trans (handleBits_toNat _), n.pack_weight⟩⟩

end

section
/-! PROOFS. Codes as paths of the tree, and that no code begins another (spec/30_encoding.md R101, R106;
spec/43_code_table_generator.md R151, R152). -/

namespace Sys2Proof.Machine

/-! ### Paths and entries -/

/-- No proper part of a leaf's path reaches a leaf: the walk would stop there on the whole path too. -/
theorem walkBits_take_leafPath {t : Tree} {q : Byte × List Bool} (hq : q ∈ leafPaths t 511 t.root []) {n : Nat}
    (hn : n < q.2.length) : walkBits t t.root (q.2.take n) = none := by
  have hwhole := walkBits_leafPath t 511 t.root [] q hq []
  rw [List.length_nil, List.drop_zero, List.append_nil] at hwhole
  rw [Option.eq_none_iff_forall_ne_some]
  rintro ⟨c, rest⟩ hpart
  have hmore := walkBits_append (more := q.2.drop n) hpart
  rw [List.take_append_drop, hwhole, Option.some.injEq, Prod.mk.injEq] at hmore
  have hnil : q.2.drop n = [] := (List.append_eq_nil_iff.mp hmore.2.symm).2
  exact absurd (List.drop_eq_nil_iff.mp hnil) (Nat.not_le.mpr hn)

/-- A valid entry is the one recorded for a leaf of its symbol. -/
theorem leafPath_of_valid {t : Tree} {c : Byte} (hv : ((codes t).at c).valid = true) :
    ∃ p, (c, p) ∈ leafPaths t 511 t.root [] ∧ (codes t).at c = entryOf p := by
  rcases codes_at t c with ⟨⟨_, p⟩, hq, rfl, he⟩ | ⟨-, he⟩
  · exact ⟨p, hq, he⟩
  · rw [he] at hv
    exact absurd hv Bool.false_ne_true

/-- Under a root that is internal and at most 255 high, a valid entry's bits are the path of a leaf of its symbol (R101). -/
theorem bits_mem_leafPaths {t : Tree} (hd : t.DescendsBelow (t.root.val + 1)) (hk : (t.nodeAt t.root).kind = .internal)
    (hh : t.height 511 t.root ≤ 255) {c : Byte} (hv : ((codes t).at c).valid = true) :
    (c, ((codes t).at c).bits) ∈ leafPaths t 511 t.root [] := by
  obtain ⟨p, hp, he⟩ := leafPath_of_valid hv
  obtain ⟨-, hle⟩ := leafPaths_length hd (Nat.lt_succ_self _) hh hk _ hp
  rwa [he, bits_entryOf p hle]

/-! ### TB.BUILD, then CG.GEN -/

/-- CG.GEN on a valid tree that descends below its root (R150, R151). -/
theorem exec_cgGen_of_descends {s : State} (hv : s.treeValid = true)
    (hd : s.tree.DescendsBelow (s.tree.root.val + 1)) :
    exec .cgGen s = .next { s with code := codes s.tree, stack := [], err := 0#4, busy := false } :=
  congrArg endCommand (generateCodes_ok hv hd)

/-- What the two commands leave when the first succeeds: a built tree and its codes. -/
theorem exec_tbBuild_cgGen {s t u : State} (ht : exec .tbBuild s = .next t) (he : t.err = 0#4)
    (hu : exec .cgGen t = .next u) :
    Built s.freq s.tree u.tree ∧ u.tree = (buildOver s.freq s.tree).2 ∧ u.code = codes u.tree := by
  rcases exec_tbBuild_next ht with ⟨-, hb, htree, e⟩ | ⟨-, e⟩
  · have hv : t.treeValid = true := by rw [e]
    rw [exec_cgGen_of_descends hv (hb.nnRoot ▸ hb.descends)] at hu
    obtain rfl := Host.Outcome.next.inj hu
    exact ⟨hb, htree, rfl⟩
  · rw [e] at he
    exact absurd he (ErrKind.code_ne_zero .emptyInput)

/-- The codes of a built tree are the paths of its leaves. -/
theorem Built.code_mem_leafPaths {f : Table U64} {t0 t : Tree} (h : Built f t0 t) {c : Byte}
    (hv : ((codes t).at c).valid = true) : (c, ((codes t).at c).bits) ∈ leafPaths t 511 t.root [] :=
  bits_mem_leafPaths (h.nnRoot ▸ h.descends) h.rootInternal h.height hv

/-! ### One symbol (R134, R152) -/

/-- A tree whose root has two leaves of one symbol `c`. -/
def Tree.TwoPaths (t : Tree) (c : Byte) : Prop := leafPaths t 511 t.root [] = [(c, [false]), (c, [true])]

/-- A build over a table with one symbol leaves such a tree. -/
theorem buildOver_twoPaths {f : Table U64} {c : Byte} (t : Tree) (h : occurring f = [c]) :
    (buildOver f t).2.TwoPaths c := by
  rw [buildOver_one t (congrArg List.length h)]
  obtain ⟨hleft, hright, hroot, -, root_eq, -⟩ := degenerate_spec t h
  simp [Tree.TwoPaths, leafPaths, root_eq, hroot, hleft, hright, Node.internalOf, Node.leafOf]

/-- The code is `1`, recorded after the `0` of the left leaf; no other symbol has one (R152). -/
theorem Tree.TwoPaths.codes_at {t : Tree} {c : Byte} (h : t.TwoPaths c) (d : Byte) :
    (codes t).at d = if d = c then ⟨true, 1#8, 1#255⟩ else CodeEntry.zero := by
  have hcodes : codes t =
      Table.put (Table.put (Vector.replicate 256 CodeEntry.zero) c (entryOf [false])) c (entryOf [true]) := by
    rw [codes_eq, h]; rfl
  have hone : entryOf [true] = ⟨true, 1#8, 1#255⟩ := by decide
  rw [hcodes, Table.at_put, Table.at_put, Table.at_replicate, hone]
  split_ifs <;> rfl

/-- Either bit decodes. -/
theorem Tree.TwoPaths.walkBits_bit {t : Tree} {c : Byte} (h : t.TwoPaths c) (b : Bool) :
    walkBits t t.root [b] = some (c, []) :=
  walkBits_leafPath t 511 t.root [] (c, [b]) (by rw [h]; cases b <;> simp) []

end Sys2Proof.Machine

open Sys2Proof Sys2Proof.Machine

/-- Settles O30: a valid entry's bits are the path of a leaf of its symbol, and every leaf's symbol is recorded. -/
theorem codesArePathsToTheirLeaves : Obligations.CodesArePathsToTheirLeaves := by
  intro t hd hk hh
  refine ⟨fun c hv => ?_, fun p hp => (codes_valid_iff t p.1).mpr (List.mem_map_of_mem hp)⟩
  have hq := bits_mem_leafPaths (hd.below _) hk hh hv
  refine ⟨?_, fun n hn => walkBits_take_leafPath hq hn⟩
  simpa using walkBits_leafPath t 511 t.root [] _ hq []

/-- Settles O33: two leaves, the path of one beginning the path of the other, are one leaf; the degenerate tree has two
paths. -/
theorem codesArePrefixFree : Obligations.CodesArePrefixFree := by
  intro s t u ht he hu
  obtain ⟨hb, htree, hcode⟩ := exec_tbBuild_cgGen ht he hu
  rw [hcode]
  refine ⟨fun _ c d hne hc hd hp => ?_, fun c hc => ?_⟩
  · have hleaf := leafPaths_prefixFree (hb.code_mem_leafPaths hc) (hb.code_mem_leafPaths hd) hp
    exact hne (congrArg Prod.fst hleaf)
  · have hpaths : u.tree.TwoPaths c := htree ▸ buildOver_twoPaths s.tree hc
    exact ⟨(hpaths.codes_at c).trans (if_pos rfl), fun d hd => (hpaths.codes_at d).trans (if_neg hd),
      hpaths.walkBits_bit⟩

end

section
/-! PROOFS. FC.RUN leaves the occurrence counts of the input (spec/41_frequency_counter.md R120 to R123). -/

namespace Sys2Proof.Machine

/-- The counts of the input are exact: ILEN is a 64-bit field, so none of them wraps (R121, R122). -/
theorem tally_input_toNat (s : State) (c : Byte) : ((tally s.input).at c).toNat = s.input.count c :=
  tally_toNat s.input c (length_input_lt s)

/-- The counts of the input add up to ILEN (R123). -/
theorem sum_tally_input (s : State) :
    (allSymbols.map fun c => ((tally s.input).at c).toNat).sum = s.ilen.toNat := by
  simp only [tally_input_toNat]
  rw [sum_count, length_input]

end Sys2Proof.Machine

open Sys2Proof Sys2Proof.Machine

/-- Settles O19: the next state is `exec_fcRun`'s, and its table is the exact tally of the input. -/
theorem fcRunCountsInput : Obligations.FcRunCountsInput :=
  fun s => ⟨_, exec_fcRun s, tally_input_toNat s, rfl⟩

/-- Settles O20: the symbols' occurrences partition the input, and a symbol is counted exactly when it occurs. -/
theorem fcRunSumIsLength : Obligations.FcRunSumIsLength := by
  intro s t h
  obtain rfl := Host.Outcome.next.inj ((exec_fcRun s).symm.trans h)
  exact ⟨sum_tally_input s, tally_ne_zero (length_input_lt s)⟩

end

section
/-! PROOFS. TB.BUILD: what it answers, what a pass of merge selects, the tree it leaves (spec/42_tree_builder.md R130 to
R138). -/

namespace Sys2Proof.Machine

/-! ### What the command answers (R130, R133) -/

theorem exec_tbBuild_of_empty {s : State} (h : occurring s.freq = []) :
    exec .tbBuild s = .next { s with
      treeValid := false, err := 1#4, busy := false
      tree := { s.tree with nn := 0#10, root := 0, nact := 0#9 } } :=
  congrArg endCommand (buildTree_fail (buildOver_empty s.tree h))

/-- The next state is named, not written out: comparing two states that hold the build's tree would run the build. -/
theorem exec_tbBuild_of_counted {s : State} (h : occurring s.freq ≠ []) :
    ∃ t, exec .tbBuild s = .next t ∧ t.tree = (buildOver s.freq s.tree).2 ∧
      t = { s with tree := t.tree, treeValid := true, err := 0#4, busy := false } := by
  have hbody := buildTree_ok (buildOver_eq s.tree h)
  generalize (buildOver s.freq s.tree).2 = u at hbody ⊢
  exact ⟨_, congrArg endCommand hbody, rfl, rfl⟩

theorem exec_tbBuild_tree {s t : State} (h : exec .tbBuild s = .next t) (ho : occurring s.freq ≠ []) :
    t.tree = (buildOver s.freq s.tree).2 := by
  rcases exec_tbBuild_next h with ⟨-, -, htree, -⟩ | ⟨hnil, -⟩
  · exact htree
  · exact absurd hnil ho

/-- The command succeeds only on a table with a nonzero count. -/
theorem occurring_ne_nil_of_success {s t : State} (h : exec .tbBuild s = .next t) (he : t.err = 0#4) :
    occurring s.freq ≠ [] := by
  rcases exec_tbBuild_next h with ⟨ho, -⟩ | ⟨-, e⟩
  · exact ho
  · rw [e] at he
    exact absurd he (ErrKind.code_ne_zero .emptyInput)

theorem occurring_ne_nil_of_many {f : Table U64} (h : 1 < (occurring f).length) : occurring f ≠ [] :=
  List.ne_nil_of_length_pos (by omega)

/-! ### One symbol (R134) -/

theorem buildOver_one_sizes {f : Table U64} (t : Tree) (h : (occurring f).length = 1) :
    (buildOver f t).2.nn.toNat = 3 ∧ (buildOver f t).2.root.val = 2 := by
  rw [buildOver_one t h]
  exact ⟨rfl, rfl⟩

/-- The two leaves, both of the one symbol, stand right under the root. -/
theorem buildOver_one_leaves {f : Table U64} (t : Tree) (h : (occurring f).length = 1) :
    (buildOver f t).2.leavesUnder 511 (buildOver f t).2.root =
      (occurring f ++ occurring f).map fun c => (c, 1) := by
  obtain ⟨c, hc⟩ := List.length_eq_one_iff.mp h
  obtain ⟨hleft, hright, hroot, -, root_eq, -⟩ := degenerate_spec t hc
  rw [buildOver_one t h, hc]
  simp [Tree.leavesUnder, root_eq, hroot, hleft, hright, Node.internalOf, Node.leafOf]

/-! ### One pass of merge (R135) -/

/-- The slots after a pass: those from `m2` on have moved down one place, and slot `m1`, wherever it went, holds the new
node. -/
theorem activeAt_mergePass {t : Tree} (h2 : 2 ≤ t.nact.toNat) (hn : t.nact.toNat ≤ 256) (hnn : t.nn.toNat < 511)
    {i : Nat} (hi : i < t.nact.toNat - 1) :
    (mergePass t).activeAt i =
      let j := if i < secondMin t (firstMin t) then i else i + 1
      if j = firstMin t then handleOf t.nn.toNat else t.activeAt j := by
  obtain ⟨-, hnact, -, -, hlist⟩ := mergePass_spec h2 hn hnn
  have hlen : i < (mergePass t).activeList.length := by rw [Tree.length_activeList]; omega
  rw [← Tree.getElem_activeList _ i hlen]
  simp only [hlist, List.getElem_eraseIdx, List.getElem_set, Tree.getElem_activeList, eq_comm (a := firstMin t)]
  split_ifs <;> rfl

/-! ### Two symbols or more (R138) -/

/-- The leaves come first, so an internal node is one that merge made, with the sum of its children's weights. -/
theorem MergeInv.weight_eq_sum {f : Table U64} {t0 t : Tree} (h : MergeInv f t0 t) {g : Handle}
    (hg : g.val < t.nn.toNat) (hk : (t.nodeAt g).kind = .internal) :
    (t.nodeAt g).weight = (t.nodeAt (t.nodeAt g).left).weight + (t.nodeAt (t.nodeAt g).right).weight := by
  rcases Nat.lt_or_ge g.val (occurring f).length with hleaf | hinner
  · rw [h.leaves g hleaf] at hk
    exact absurd hk NodeKind.noConfusion
  · obtain ⟨-, -, -, hsum⟩ := h.inner g hinner hg
    exact hsum

theorem Built.leaves_perm {f : Table U64} {t0 t : Tree} (h : Built f t0 t) (hn : 1 < (occurring f).length) :
    ((t.leavesUnder 511 t.root).map Prod.fst).Perm (occurring f) := by
  have hleaves := h.leaves
  rwa [if_neg (by omega)] at hleaves

/-- The root is internal, so no leaf is at depth 0; the height is below the number of leaves, which is that of the
symbols. -/
theorem Built.leaf_depth {f : Table U64} {t0 t : Tree} (h : Built f t0 t) (hn : 1 < (occurring f).length)
    {p : Byte × Nat} (hp : p ∈ t.leavesUnder 511 t.root) : 1 ≤ p.2 ∧ p.2 ≤ (occurring f).length - 1 := by
  have hroot : t.root.val < t.nn.toNat := by have := h.nnRoot; omega
  obtain ⟨hheight, hdepth⟩ := Tree.height_lt_leaves h.descends t.root hroot
  have hcount := (h.leaves_perm hn).length_eq
  rw [List.length_map] at hcount
  have := hdepth p hp
  exact ⟨Tree.leaves_depth_pos h.descends hroot h.rootInternal p hp, by omega⟩

end Sys2Proof.Machine

open Sys2Proof Sys2Proof.Machine

/-- Settles O27: a built tree has one root over all its handles; the loop's invariant gives the weights, the height
the depths. -/
theorem treeInvariants : Obligations.TreeInvariants := by
  intro s t h he
  have ho := occurring_ne_nil_of_success h he
  have hb := buildOver_built s.tree ho
  rw [exec_tbBuild_tree h ho]
  refine ⟨hb.handles, hb.rootInternal, hb.descends, fun hn => ?_, buildOver_one_leaves s.tree⟩
  obtain ⟨-, hinv, -⟩ := buildOver_many_spec s.tree hn
  exact ⟨hb.leaves_perm hn, fun _ => hinv.weight_eq_sum, fun _ => hb.leaf_depth hn⟩

/-- Settles O21: no symbol occurs, so the build fails. -/
theorem tbBuildEmptyInput : Obligations.TbBuildEmptyInput :=
  fun _ h => exec_tbBuild_of_empty (occurring_eq_nil.mpr h)

/-- Settles O22: the one symbol is all that occurs, so the build ends with phase degenerate. -/
theorem tbBuildDegenerate : Obligations.TbBuildDegenerate := by
  intro s c hc hother
  have ho : occurring s.freq = [c] := occurring_eq_singleton hc hother
  obtain ⟨t, hexec, htree, hframe⟩ := exec_tbBuild_of_counted (s := s) (by rw [ho]; exact List.cons_ne_nil _ _)
  have hdegenerate : t.tree = degenerate (collect s.freq s.tree) := by
    rw [htree, buildOver_one s.tree (congrArg List.length ho)]
  obtain ⟨hleft, hright, hroot, nn_eq, root_eq, nact_eq, active_eq, hothers⟩ := degenerate_spec s.tree ho
  rw [← hdegenerate] at hleft hright hroot nn_eq root_eq nact_eq active_eq hothers
  exact ⟨t, hexec, hleft, hright, hroot, nn_eq, root_eq, active_eq, nact_eq, hothers, hframe⟩

/-- Settles O23: some symbol occurs, so the build leaves a built tree, of the sizes of its last phase. -/
theorem tbBuildCompletes : Obligations.TbBuildCompletes := by
  rintro s ⟨c, hc⟩
  have ho : occurring s.freq ≠ [] := List.ne_nil_of_mem (mem_occurring.mpr hc)
  obtain ⟨t, hexec, htree, hframe⟩ := exec_tbBuild_of_counted ho
  have hb : Built s.freq s.tree t.tree := htree ▸ buildOver_built s.tree ho
  refine ⟨t, hexec, fun hn => ?_, fun hone => ?_, hb.nact, hb.active, hb.others, hframe⟩
  · obtain ⟨-, -, nn_eq, root_eq, -⟩ := buildOver_many_spec s.tree hn
    exact htree ▸ ⟨nn_eq, root_eq⟩
  · exact htree ▸ buildOver_one_sizes s.tree hone

/-- Settles O24: the merge loop's invariant keeps collect's leaves and says that the nodes above them are internal. -/
theorem tbBuildLeavesInSymbolOrder : Obligations.TbBuildLeavesInSymbolOrder := by
  intro s t h hn g
  obtain ⟨-, hinv, -⟩ := buildOver_many_spec s.tree hn
  rw [exec_tbBuild_tree h (occurring_ne_nil_of_many hn)]
  exact ⟨hinv.leaves g, fun hge hlt => (hinv.inner g hge hlt).1⟩

/-- Settles O25: two builds over one table agree on all that is in use. -/
theorem buildDependsOnTableOnly : Obligations.BuildDependsOnTableOnly := by
  intro f t u
  obtain ⟨hagree, hroot⟩ := buildOver_agree f t u
  have hfst : (buildOver f t).1 = (buildOver f u).1 :=
    Bool.eq_iff_iff.mpr ((buildOver_fst f t).trans (buildOver_fst f u).symm)
  exact ⟨hfst, hagree.nn, hroot, hagree.nact, hagree.node⟩

/-- Settles O26: the slots are those of the two scans, and the loop is `n - 1` passes. -/
theorem mergeSelectsFirstMinima : Obligations.MergeSelectsFirstMinima := by
  refine ⟨fun t h2 hn hnn => ?_, fun f t hn => ?_⟩
  · obtain ⟨m1_lt, m1_min, m1_first⟩ := firstMin_spec (t := t) (by omega)
    obtain ⟨m2_lt, m2_ne, m2_min, m2_first⟩ := secondMin_spec (m1 := firstMin t) h2
    obtain ⟨nn_eq, nact_eq, -, hnode, -⟩ := mergePass_spec h2 hn hnn
    refine ⟨firstMin t, secondMin t (firstMin t), m1_lt, m2_lt, m2_ne.symm, m1_min, m1_first, m2_min, m2_first, hnode,
      nn_eq, by omega, fun i hi => ?_⟩
    rw [activeAt_mergePass h2 hn hnn hi]
    simp only [apply_ite Fin.val, handleOf_val hnn]
  · rw [buildOver_many t hn]
    exact ⟨rfl, rfl⟩

end

section
/-! PROOFS. CG.GEN completes, and the table it leaves after TB.BUILD: which entries are valid, and Kraft's equality
(spec/43_code_table_generator.md R150, R151, R154, R155). -/

namespace Sys2Proof.Machine

/-- TB.BUILD succeeds on a table with a nonzero count (R133). -/
theorem exec_tbBuild_success {s t : State} (h : exec .tbBuild s = .next t) (ho : occurring s.freq ≠ []) :
    t.err = 0#4 := by
  rcases exec_tbBuild_next h with ⟨-, -, -, e⟩ | ⟨hnil, -⟩
  · rw [e]
  · exact absurd hnil ho

section
variable {f : Table U64} {t0 t : Tree} (h : Built f t0 t)
include h

/-- The leaves of a built tree carry the symbols with a nonzero count (R154). -/
theorem Built.code_valid_iff (c : Byte) : ((codes t).at c).valid = true ↔ f.at c ≠ 0#64 :=
  (codes_valid_iff t c).trans (h.mem_leaves c)

/-- A sum over the valid entries is one over the symbols with a nonzero count. -/
theorem Built.sum_valid (w : Byte → Nat) :
    (allSymbols.map fun c => if ((codes t).at c).valid then w c else 0).sum = ((occurring f).map w).sum := by
  simp only [h.code_valid_iff]
  rw [List.sum_map_ite]
  simp [occurring]

/-- With two or more symbols no symbol has a second leaf, so the entry of a leaf's symbol has the length of that leaf's
path. -/
theorem Built.code_len {q : Byte × List Bool} (hn : 1 < (occurring f).length)
    (hq : q ∈ leafPaths t 511 t.root []) : ((codes t).at q.1).len.toNat = q.2.length := by
  have hsym : q.1 ∈ (t.leavesUnder 511 t.root).map Prod.fst := leafPaths_syms t ▸ List.mem_map_of_mem hq
  have hcode := h.code_mem_leafPaths ((codes_valid_iff t q.1).mpr hsym)
  have hnodup : ((leafPaths t 511 t.root []).map Prod.fst).Nodup := by
    rw [leafPaths_syms]
    exact (h.leaves_perm hn).nodup_iff.mpr (nodup_occurring f)
  have hpath : ((codes t).at q.1).bits = q.2 := congrArg Prod.snd (List.inj_on_of_nodup_map hnodup hcode hq rfl)
  rw [← hpath]
  exact (length_bitsMsbFirst _ _).symm

/-- Kraft's equality for a built tree of two or more symbols: its leaves' paths satisfy it, and their lengths are those
of the valid entries. -/
theorem Built.kraft (hn : 1 < (occurring f).length) :
    (allSymbols.map fun c => if ((codes t).at c).valid then 2 ^ (255 - ((codes t).at c).len.toNat) else 0).sum =
      2 ^ 255 := by
  have hroot : t.root.val < t.nn.toNat := by have := h.nnRoot; omega
  have hsyms : ((leafPaths t 511 t.root []).map Prod.fst).Perm (occurring f) := by
    rw [leafPaths_syms]
    exact h.leaves_perm hn
  calc _ = ((occurring f).map fun c => 2 ^ (255 - ((codes t).at c).len.toNat)).sum := h.sum_valid _
    _ = (((leafPaths t 511 t.root []).map Prod.fst).map fun c => 2 ^ (255 - ((codes t).at c).len.toNat)).sum :=
      (hsyms.map _).sum_eq.symm
    _ = ((leafPaths t 511 t.root []).map fun q => 2 ^ (255 - q.2.length)).sum := by
      rw [List.map_map]
      refine congrArg List.sum (List.map_congr_left fun q hq => ?_)
      rw [Function.comp_apply, h.code_len hn hq]
    _ = 2 ^ 255 := kraft_leafPaths h.descends 511 t.root hroot t.root.isLt [] 255 (by simpa using h.height)

end

end Sys2Proof.Machine

open Sys2Proof Sys2Proof.Machine

/-- Settles O32: the build succeeds, so the table is that of a built tree. -/
theorem kraftEquality : Obligations.KraftEquality := by
  intro s t u ht hu hn
  obtain ⟨hb, -, hcode⟩ := exec_tbBuild_cgGen ht (exec_tbBuild_success ht (occurring_ne_nil_of_many hn)) hu
  rw [hcode]
  exact hb.kraft hn

/-- Settles O29: children below their parents is more than the traversal needs. -/
theorem cgGenLeavesCodes : Obligations.CgGenLeavesCodes :=
  fun _ hv hd => exec_cgGen_of_descends hv (hd.below _)

/-- Settles O31: the leaves of the built tree carry the counted symbols, and its paths have 1 to 255 branches. -/
theorem codeValidIffCounted : Obligations.CodeValidIffCounted := by
  intro s t u ht he hu c
  obtain ⟨hb, -, hcode⟩ := exec_tbBuild_cgGen ht he hu
  rw [hcode]
  exact ⟨hb.code_valid_iff c, hb.codes_proper c⟩

end

section
/-! PROOFS. The bit-stream writer: what BW.BIT, BW.BITS and BW.FLUSH do, and that writing bits one by one packs them
(spec/44_bitstream_writer.md R160 to R164). -/

namespace Sys2Proof.Machine

/-! ### A byte appended and the writer emptied (R160, R162) -/

/-- How BW.BIT ends at the eighth bit, and BW.FLUSH with bits pending. -/
def emitAndClear (b : Byte) (s : State) : Res := (emit b s).bind fun s => .ok s.clearWriter

theorem emitAndClear_ok {s : State} (h : s.olen.toNat < s.obufCap.toNat) (b : Byte) :
    emitAndClear b s = .ok (s.append b).clearWriter := by
  rw [emitAndClear, emit_ok h, Res.bind_ok]

theorem emitAndClear_full {s : State} (h : s.obufCap.toNat ≤ s.olen.toNat) (b : Byte) :
    emitAndClear b s = .refused .obufFull := by
  rw [emitAndClear, emit_full h, Res.bind_refused]

theorem emitAndClear_eq_ok {b : Byte} {s t : State} (h : emitAndClear b s = .ok t) :
    s.olen.toNat < s.obufCap.toNat ∧ t = (s.append b).clearWriter := by
  rcases Nat.lt_or_ge s.olen.toNat s.obufCap.toNat with hc | hc
  · rw [emitAndClear_ok hc] at h
    exact ⟨hc, (Res.ok.inj h).symm⟩
  · rw [emitAndClear_full hc] at h
    exact absurd h (by simp)

theorem endCommand_emitAndClear {s : State} (h : s.olen.toNat < s.obufCap.toNat) (b : Byte) :
    ∃ t, endCommand (emitAndClear b s) = .next t ∧ Appended s t [b] ∧
      t = { s with obuf := t.obuf, olen := t.olen, acc := 0#8, nbits := 0#3, err := 0#4, busy := false } :=
  ⟨_, congrArg endCommand (emitAndClear_ok h b), State.appendAll_appended (bs := [b]) h, rfl⟩

/-! ### One bit (R160), whatever ACC holds -/

theorem shiftIn_eq (a : Byte) (b : Bool) : shiftIn a b = BitVec.ofNat 8 (2 * a.toNat + b.toNat) := by
  simpa using shiftIn_ofNat a.toNat b

theorem writeBit_of_lt {s : State} (h : s.nbits.toNat < 7) (b : Bool) :
    writeBit b s = .ok (s.setWriter (shiftIn s.acc b) (s.nbits + 1#3)) := by
  have hn : BitVec.ofNat 3 (s.nbits.toNat + 1) = s.nbits + 1#3 := by simp [BitVec.ofNat_add]
  unfold writeBit
  rw [if_neg (by omega), hn]

theorem writeBit_of_seven {s : State} (h : s.nbits.toNat = 7) (b : Bool) :
    writeBit b s = emitAndClear (shiftIn s.acc b) s := if_pos (by rw [h])

/-- Writing a bit sees neither ERR nor BUSY. -/
theorem writeBit_finish {b : Bool} {s t : State} (h : writeBit b s = .ok t) :
    writeBit b s.finish = .ok t.finish := by
  rcases Nat.lt_or_eq_of_le (Nat.le_of_lt_succ s.nbits.isLt) with h7 | h7
  · rw [writeBit_of_lt h7] at h
    obtain rfl := Res.ok.inj h
    exact writeBit_of_lt (s := s.finish) h7 b
  · rw [writeBit_of_seven h7] at h
    obtain ⟨hc, rfl⟩ := emitAndClear_eq_ok h
    exact (writeBit_of_seven (s := s.finish) h7 b).trans (emitAndClear_ok (s := s.finish) hc _)

theorem writeBits_finish {bits : List Bool} {s t : State} (h : writeBits bits s = .ok t) :
    writeBits bits s.finish = .ok t.finish := by
  induction bits generalizing s with
  | nil => obtain rfl := Res.ok.inj h; rfl
  | cons b bits ih =>
    obtain ⟨u, hu, ht⟩ := Res.bind_eq_ok.mp h
    rw [writeBits, writeBit_finish hu, Res.bind_ok]
    exact ih ht

/-- One BW.BIT per bit does what writing the bits in one command does, but for ERR and BUSY, which only a command writes. -/
theorem execAll_bwBit {bits : List Bool} {s t : State} (h : writeBits bits s = .ok t) :
    ∃ u, execAll (bits.map Instr.bwBit) s = .next u ∧ u.finish = t.finish := by
  induction bits generalizing s t with
  | nil => obtain rfl := Res.ok.inj h; exact ⟨s, rfl, rfl⟩
  | cons b bits ih =>
    obtain ⟨v, hv, ht⟩ := Res.bind_eq_ok.mp h
    have hexec : exec (.bwBit b) s = .next v.finish := congrArg endCommand hv
    obtain ⟨u, hu, hut⟩ := ih (writeBits_finish ht)
    exact ⟨u, by rw [List.map_cons, execAll, hexec]; exact hu, hut⟩

/-! ### Flush (R162) -/

theorem padded_eq (a : Byte) (n : Nat) : padded a n = BitVec.ofNat 8 (a.toNat * 2 ^ (8 - n)) :=
  BitVec.eq_of_toNat_eq (by simp [padded, Nat.shiftLeft_eq])

theorem flush_of_pending {s : State} (h : s.nbits ≠ 0#3) :
    flush s = emitAndClear (padded s.acc s.nbits.toNat) s := if_neg h

theorem flush_nbits {s t : State} (h : flush s = .ok t) : t.nbits = 0#3 := by
  by_cases h0 : s.nbits = 0#3
  · rw [flush_empty h0] at h
    obtain rfl := Res.ok.inj h
    exact h0
  · rw [flush_of_pending h0] at h
    obtain ⟨-, rfl⟩ := emitAndClear_eq_ok h
    rfl

theorem exec_bwFlush_empty {s : State} (h : s.nbits = 0#3) : exec .bwFlush s = .next s.finish :=
  congrArg endCommand (flush_empty h)

/-- What a BW.FLUSH leaves, a second one leaves as it is. -/
theorem exec_bwFlush_idempotent {s t : State} (h : exec .bwFlush s = .next t) : exec .bwFlush t = .next t := by
  rcases flush_cases s with ⟨u, hu, -⟩ | hr
  · obtain rfl := Host.Outcome.next.inj ((congrArg endCommand hu).symm.trans h)
    have hn : u.finish.nbits = 0#3 := (flush_nbits hu : u.nbits = 0#3)
    exact exec_bwFlush_empty hn
  · exact absurd ((congrArg endCommand hr).symm.trans h) (by simp)

/-! ### The packed bits (R164) -/

/-- Bit `8 j + i` of a byte sequence is bit `7 - i` of its byte `j` (R105). -/
theorem getD_bitsOfBytes (bs : List Byte) {i : Nat} (hi : i < 8) (j : Nat) (hj : j < bs.length) :
    (bitsOfBytes bs).getD (8 * j + i) false = bs[j].getLsbD (7 - i) := by
  induction bs generalizing j with
  | nil => exact absurd hj (Nat.not_lt_zero j)
  | cons b bs ih =>
    have hb : ((List.range 8).map fun i => b.getLsbD (7 - i)).length = 8 := by simp
    rw [bitsOfBytes, List.flatMap_cons, ← bitsOfBytes]
    cases j with
    | zero =>
      rw [List.getD_append _ _ _ _ (by rw [hb]; omega)]
      simp [hi]
    | succ j =>
      rw [List.getD_append_right _ _ _ _ (by rw [hb]; omega), hb, show 8 * (j + 1) + i - 8 = 8 * j + i by omega]
      exact ih j (Nat.lt_of_succ_lt_succ hj)

/-- Zeros after a bit string do not show where it reads as zero beyond its end. -/
theorem getD_append_zeros {l pad : List Bool} (h : ∀ b ∈ pad, b = false) (k : Nat) :
    (l ++ pad).getD k false = l.getD k false := by
  rw [List.eq_replicate_of_mem h, List.getD_eq_getElem?_getD, List.getD_eq_getElem?_getD]
  rcases Nat.lt_or_ge k l.length with hk | hk
  · rw [List.getElem?_append_left hk]
  · rw [List.getElem?_append_right hk, List.getElem?_eq_none hk, List.getElem?_replicate]
    split_ifs <;> rfl

theorem getLsbD_pack (bits : List Bool) {i j : Nat} (hj : j < (pack bits).length) (hi : i < 8) :
    (pack bits)[j].getLsbD (7 - i) = bits.getD (8 * j + i) false := by
  obtain ⟨pad, hpad, hzero⟩ := bits_pack bits
  rw [← getD_bitsOfBytes (pack bits) hi j hj, hpad, getD_append_zeros hzero]

theorem take_pack (bits : List Bool) : (pack bits).take (bits.length / 8) = wholeBytes bits := by
  rw [pack_eq, List.take_left' (length_wholeBytes bits)]

/-- Bits written to an empty writer and flushed: the whole bytes first, the rest with the flush (R164). -/
theorem writeBits_flush_packs {s t : State} {bits : List Bool}
    (hcap : s.olen.toNat + (bits.length + 7) / 8 ≤ s.obufCap.toNat) (ha : Appended s t (wholeBytes bits))
    (hp : t.Pending (tailBits bits)) (hc : t.obufCap = s.obufCap) :
    ∃ u, exec .bwFlush t = .next u ∧ Appended s u (pack bits) ∧ u.acc = 0#8 ∧ u.nbits = 0#3 := by
  have hlen := congrArg List.length (pack_eq bits)
  have hroom : t.olen.toNat + (if tailBits bits = [] then 0 else 1) ≤ t.obufCap.toNat := by
    rw [length_pack, List.length_append, apply_ite List.length] at hlen
    rw [hc, ha.1, Nat.add_assoc]
    exact hlen ▸ hcap
  obtain ⟨u, hu, hua, ⟨-, hacc, hnb⟩, -⟩ := flush_stage hp hroom
  exact ⟨u.finish, congrArg endCommand hu, pack_eq bits ▸ ha.trans hua, hacc, hnb⟩

end Sys2Proof.Machine

open Sys2Proof Sys2Proof.Machine

/-- Settles O34: `write_bit` before and at the eighth bit, and the one byte that may not fit. -/
theorem bwBitResult : Obligations.BwBitResult := by
  intro s b
  rw [← shiftIn_eq]
  refine ⟨fun h => congrArg endCommand (writeBit_of_lt h b), fun h hc => ?_, fun h hc => ?_⟩
  · rw [show exec (.bwBit b) s = endCommand (writeBit b s) from rfl, writeBit_of_seven h]
    exact endCommand_emitAndClear hc _
  · exact congrArg endCommand ((writeBit_of_seven h b).trans (emitAndClear_full hc _))

/-- Settles O35: BW.BITS writes the WB_LEN low bits of WB_VAL, first bit most significant. -/
theorem bwBitsResult : Obligations.BwBitsResult := fun s hw hl => writeBits_arith hw hl s.wbVal s.wbLen.toNat

/-- Settles O36: `flush` with nothing and with something pending; whatever it does, nothing is pending afterwards. -/
theorem bwFlushResult : Obligations.BwFlushResult := by
  intro s
  rw [← padded_eq]
  refine ⟨exec_bwFlush_empty, fun h hc => ?_, fun h hc => ?_, fun _ => exec_bwFlush_idempotent⟩
  · rw [show exec .bwFlush s = endCommand (flush s) from rfl, flush_of_pending h]
    exact endCommand_emitAndClear hc _
  · exact congrArg endCommand ((flush_of_pending h).trans (emitAndClear_full hc _))

/-- Settles O37: the bytes of `pack` by the bits they stand for; the commands by the bits they write, whole bytes while
they are written and the rest at the flush. -/
theorem writingBitsPacksThem : Obligations.WritingBitsPacksThem := by
  refine ⟨fun bits => ⟨length_pack bits, fun j i hj hi => getLsbD_pack bits hj hi⟩, fun s bits hacc hnb hcap => ?_⟩
  have hempty : s.Pending [] := ⟨by simp, hacc, hnb⟩
  obtain ⟨v, hv, hva, hvp, hvs⟩ := writeBits_stage hempty bits (by rw [List.length_nil]; omega)
  rw [List.nil_append] at hva hvp
  obtain ⟨t, ht, htv⟩ := execAll_bwBit hv
  have hta : Appended s t.finish (wholeBytes bits) := htv ▸ hva
  have htp : t.finish.Pending (tailBits bits) := htv ▸ hvp
  have htc : t.finish.obufCap = s.obufCap := htv ▸ hvs.obufCap
  obtain ⟨u, hu, hua, huw⟩ := writeBits_flush_packs (t := t) hcap hta htp htc
  exact ⟨t, u, ht, hu, take_pack bits ▸ hta, htp.nbits_toNat.trans (length_tailBits bits), hua, huw⟩

end

section
/-! PROOFS. The bit-stream reader: what BR.BIT does, and that reading packed bits one by one delivers them
(spec/45_bitstream_reader.md R170 to R172). -/

namespace Sys2Proof.Machine

/-! ### One bit (R170) -/

theorem ibufByte_of_read {s : State} {a : Nat} {b : Byte} (h : Mem.read s.ibuf a = some b) : ibufByte s a = b := by
  rw [ibufByte, h, Option.getD_some]

theorem readBit_exhausted {s : State} (hr : s.rem = 0#4) (hl : s.ilen.toNat ≤ s.rpos.toNat) :
    readBit s = .raise .streamExhausted s := by
  rw [readBit, if_pos hr, if_pos hl]

/-- Of a byte just pulled, seven bits are held after the first is taken. -/
theorem State.pullByte_takeBit (s : State) : s.pullByte.takeBit = { s with
    cur := ibufByte s s.rpos.toNat, rpos := s.rpos + 1#64, rem := 7#4
    rbit := (ibufByte s s.rpos.toNat).getLsbD 7 } := by
  have hrem : 8#4 - 1#4 = 7#4 := rfl
  rw [State.takeBit, State.pullByte_rem, hrem]
  rfl

theorem readBit_pull {s : State} (hr : s.rem = 0#4) (hl : s.rpos.toNat < s.ilen.toNat) :
    readBit s = .ok s.pullByte.takeBit := by
  rw [readBit, if_pos hr, if_neg (Nat.not_le_of_lt hl)]

theorem readBit_held {s : State} (hr : s.rem ≠ 0#4) : readBit s = .ok s.takeBit := if_neg hr

/-! ### BR.BIT again and again -/

/-- With a bit left BR.BIT delivers it and succeeds. -/
theorem exec_brBit_reads {s : State} (h : 0 < s.unread.length) :
    ∃ t, exec .brBit s = .next t ∧ t.err = 0#4 ∧ Reads s t 1 ∧ ∀ a, ibufByte t a = ibufByte s a := by
  obtain ⟨b, bs, hu⟩ := List.exists_cons_of_length_pos h
  obtain ⟨t, ht, -, -, hs, -⟩ := readBit_cons hu
  exact ⟨t.finish, congrArg endCommand ht, rfl,
    (readBit_reads ht).congr ⟨rfl, rfl, rfl, rfl, rfl, rfl, rfl⟩ ⟨rfl, rfl, rfl, rfl, rfl, rfl, rfl⟩, hs.ibufByte⟩

/-- As many BR.BITs as there are bits left, or fewer, deliver that many bits, and the last of them clears ERR. -/
theorem execAll_brBit {n : Nat} {s : State} (h : n ≤ s.unread.length) :
    ∃ t, execAll (List.replicate n .brBit) s = .next t ∧ Reads s t n ∧ t.err = if n = 0 then s.err else 0#4 := by
  induction n generalizing s with
  | zero => exact ⟨s, rfl, .of_same ⟨rfl, rfl, rfl, rfl, rfl, rfl, rfl⟩, rfl⟩
  | succ n ih =>
    obtain ⟨u, hu, hue, hsu, hb⟩ := exec_brBit_reads (Nat.zero_lt_of_lt h)
    have ⟨_, hdrop, _⟩ := hsu
    have hleft : u.unread.length = s.unread.length - 1 := by rw [hdrop, List.length_drop]
    obtain ⟨t, ht, hut, hte⟩ := ih (s := u) (by omega)
    refine ⟨t, by rw [List.replicate_succ, execAll, hu]; exact ht, Nat.add_comm 1 n ▸ hsu.trans hut hb, ?_⟩
    rw [hte, hue, ite_self, if_neg n.succ_ne_zero]

/-! ### Where reading packed bits leads (R171, R172) -/

theorem Reads.rbit_eq {s t : State} {k : Nat} (h : Reads s t (k + 1)) : t.rbit = s.unread.getD k false := by
  obtain ⟨hlen, -, -, hbit⟩ := h
  rw [hbit, List.getLastD_eq_getLast?, List.getLast?_take, if_neg k.succ_ne_zero, Nat.add_sub_cancel,
    List.getD_eq_getElem?_getD, List.getElem?_eq_getElem hlen]
  rfl

/-- With no bits held before, `8 (RPOS - p) - REM` counts the bits read (R172). -/
theorem Reads.count {s t : State} {n : Nat} (h : Reads s t n) (hr : s.rem = 0#4) :
    8 * (t.rpos.toNat - s.rpos.toNat) = n + t.rem.toNat ∧ t.rem.toNat ≤ 7 := by
  obtain ⟨-, -, ⟨hpos, hrem, hle, -⟩, -⟩ := h
  have hz : s.rem.toNat = 0 := congrArg BitVec.toNat hr
  omega

/-- Bytes that stand in IBUF from `p` on, below ILEN, are the next of the input from `p` on. -/
theorem prefix_drop_input {s : State} {p : Nat} {bs : List Byte} (hlen : p + bs.length ≤ s.ilen.toNat)
    (hbs : ∀ j, (hj : j < bs.length) → Mem.read s.ibuf (p + j) = some bs[j]) : bs <+: s.input.drop p := by
  rw [List.prefix_iff_getElem]
  refine ⟨by rw [List.length_drop, length_input]; omega, fun j hj => ?_⟩
  rw [List.getElem_drop, getElem_input, ibufByte_of_read (hbs j hj)]

/-- A reader started at packed bits has them left, then the pad zeros (R171). -/
theorem getD_unread_pack {s : State} {bits : List Bool} {k : Nat} (hr : s.rem = 0#4)
    (hpre : pack bits <+: s.input.drop s.rpos.toNat) (hk : k < 8 * (pack bits).length) :
    k < s.unread.length ∧ s.unread.getD k false = bits.getD k false := by
  obtain ⟨rest, hrest⟩ := hpre
  obtain ⟨pad, hpad, hzero⟩ := bits_pack bits
  have hu : s.unread = bitsOfBytes (pack bits) ++ bitsOfBytes rest := by
    rw [unread_started hr, ← hrest, bitsOfBytes_append]
  rw [← length_bitsOfBytes] at hk
  constructor
  · rw [hu, List.length_append]; omega
  · rw [hu, List.getD_append _ _ _ _ hk, hpad, getD_append_zeros hzero]

end Sys2Proof.Machine

open Sys2Proof Sys2Proof.Machine

/-- Settles O38: `read_bit` with nothing left, with a byte to pull, and with bits held. -/
theorem brBitResult : Obligations.BrBitResult := by
  refine ⟨fun _ _ _ => ibufByte_of_read, fun s => ⟨fun hr hl => ?_, fun hr hl => ?_, fun hr => ?_⟩⟩
  · exact congrArg endCommand (readBit_exhausted hr hl)
  · exact congrArg endCommand ((readBit_pull hr hl).trans (congrArg Res.ok s.pullByte_takeBit))
  · exact congrArg endCommand (readBit_held hr)

/-- Settles O39: the packed bits are the next ones left to the reader, and BR.BIT delivers what is left in order. -/
theorem readerInvertsPack : Obligations.ReaderInvertsPack := by
  rintro s bits _ k rfl hr hlen hbs hk
  obtain ⟨hleft, hbit⟩ := getD_unread_pack hr (prefix_drop_input hlen hbs) hk
  obtain ⟨t, ht, hreads, herr⟩ := execAll_brBit (n := k + 1) hleft
  exact ⟨t, ht, herr, hreads.rbit_eq.trans hbit, hreads.count hr⟩

end

section
/-! PROOFS. The container formatter: the header's layout, what CF.WRHDR and CF.RDHDR do, and that the one reads back what
the other wrote (spec/46_container_formatter.md R180 to R184). -/

namespace Sys2Proof.Machine

/-! ### CF.WRHDR (R180) -/

/-- Appending the header writes OBUF and OLEN only. -/
theorem exec_cfWrhdr_fits {s : State} (h : s.olen.toNat + 2060 ≤ s.obufCap.toNat) :
    ∃ t, exec .cfWrhdr s = .next t ∧ Appended s t (header s.origSize s.freq) ∧
      t = { s with obuf := t.obuf, olen := t.olen, err := 0#4, busy := false } := by
  rw [← length_header s.origSize s.freq] at h
  obtain ⟨u, hu⟩ : ∃ u, u = s.appendAll (header s.origSize s.freq) := ⟨_, rfl⟩
  have hrun : emitAll (header s.origSize s.freq) s = .ok u := hu ▸ emitAll_ok h
  have happ : Appended s u (header s.origSize s.freq) := hu ▸ State.appendAll_appended h
  have hframe : u = { s with obuf := u.obuf, olen := u.olen } := hu ▸ s.appendAll_eq _
  exact ⟨u.finish, congrArg endCommand hrun, happ, congrArg State.finish hframe⟩

theorem exec_cfWrhdr_full {s : State} (hl : s.olen.toNat ≤ s.obufCap.toNat)
    (h : s.obufCap.toNat < s.olen.toNat + 2060) : exec .cfWrhdr s = .refused .obufFull := by
  rw [← length_header s.origSize s.freq] at h
  exact congrArg endCommand (emitAll_full hl h)

/-- A CF.WRHDR that ends has appended the whole header (R180). -/
theorem appended_of_exec_cfWrhdr {s t : State} (hl : s.olen.toNat ≤ s.obufCap.toNat)
    (h : exec .cfWrhdr s = .next t) : Appended s t (header s.origSize s.freq) := by
  rcases Nat.lt_or_ge s.obufCap.toNat (s.olen.toNat + 2060) with hc | hc
  · rw [exec_cfWrhdr_full hl hc] at h
    exact absurd h (by simp)
  · obtain ⟨u, hrun, happ, -⟩ := exec_cfWrhdr_fits hc
    obtain rfl := Host.Outcome.next.inj (hrun.symm.trans h)
    exact happ

/-! ### CF.RDHDR (R182, R183) -/

/-- The three checks: length, magic, version (R182). -/
theorem headerOk_iff (s : State) : headerOk s = true ↔ 2060 ≤ s.ilen.toNat ∧ ibufByte s 0 = 0x48#8 ∧
    ibufByte s 1 = 0x46#8 ∧ ibufByte s 2 = 0x31#8 ∧ ibufByte s 3 = 0x01#8 := by
  simp only [headerOk, Bool.and_eq_true, decide_eq_true_eq, beq_iff_eq, and_assoc]

theorem exec_cfRdhdr_good {s : State} (h : headerOk s = true) : exec .cfRdhdr s = .next (loadHeader s).finish :=
  congrArg endCommand (if_pos h)

theorem exec_cfRdhdr_bad {s : State} (h : ¬ headerOk s = true) : exec .cfRdhdr s = .next (s.abort .formatError) :=
  congrArg endCommand (if_neg h)

/-! ### Reading a header back (R184) -/

/-- What CF.RDHDR loads from an input that begins with a header. -/
theorem loadHeader_of_input {u : State} {n : U64} {f : Table U64} {rest : List Byte}
    (h : u.input = header n f ++ rest) : (loadHeader u).origSize = n ∧ (loadHeader u).freq = f := by
  have hlen : 2060 ≤ u.ilen.toNat := by
    rw [← length_input, h, List.length_append, length_header]
    exact Nat.le_add_right _ _
  constructor
  · calc ibufWord64 u Config.sizeOffset = le64At u.input Config.sizeOffset :=
          ibufWord64_eq (show 4 + 7 < u.ilen.toNat by omega)
      _ = n := by rw [h, le64At_header]
  · calc storedCounts u = countsOf u.input := storedCounts_eq hlen
      _ = f := by rw [h, countsOf_header]

/-- CF.RDHDR on an input that begins with a header. -/
theorem exec_cfRdhdr_of_input {u : State} {n : U64} {f : Table U64} (h : header n f <+: u.input) :
    ∃ v, exec .cfRdhdr u = .next v ∧ v.err = 0#4 ∧ v.origSize = n ∧ v.freq = f := by
  obtain ⟨rest, hrest⟩ := h
  have hok : headerOk u = true := by rw [headerOk_eq, ← hrest, formatOk_header]
  exact ⟨_, exec_cfRdhdr_good hok, rfl, loadHeader_of_input hrest.symm⟩

end Sys2Proof.Machine

open Sys2Proof Sys2Proof.Machine

/-- Settles O40: the fields one by one, and the header determines each of their bytes. -/
theorem headerLayout : Obligations.HeaderLayout :=
  ⟨fun n f => ⟨length_header n f, take_header n f, header_size n f, header_count n f⟩,
    fun _ _ _ _ => header_injective⟩

/-- Settles O41: the 2060 bytes fit in OBUF or they do not. -/
theorem cfWrhdrAppendsHeader : Obligations.CfWrhdrAppendsHeader :=
  fun _ hl => ⟨exec_cfWrhdr_fits, exec_cfWrhdr_full hl⟩

/-- Settles O42: a checked header is loaded byte by byte, and a failed check leaves only ERR. -/
theorem cfRdhdrResult : Obligations.CfRdhdrResult := by
  intro s good
  have hgood : headerOk s = true ↔ good := headerOk_iff s
  refine ⟨fun h => ⟨_, exec_cfRdhdr_good (hgood.mpr h), fun k hk => ?_, fun c k hk => ?_, rfl⟩,
    fun h => exec_cfRdhdr_bad (mt hgood.mp h)⟩
  · exact extract_ibufWord64 s 4 k hk
  · rw [← extract_ibufWord64 s _ k hk, ← storedCounts_at]
    rfl

/-- Settles O43: the bytes placed in IBUF are the header, so the input begins with it. -/
theorem headerRoundTrip : Obligations.HeaderRoundTrip := by
  intro s t u ht hl hlen hcopy
  obtain ⟨-, hbytes, -⟩ := appended_of_exec_cfWrhdr hl ht
  have hsize := length_header s.origSize s.freq
  refine exec_cfRdhdr_of_input (prefix_drop_input (p := 0) (by omega) fun j hj => ?_)
  rw [Nat.zero_add, hcopy j (hsize ▸ hj), hbytes j hj]

end

section
/-! PROOFS. How commands end: words that are no command, the kinds each command may raise, CG.GEN and DEC.SYM without a
tree, and the validity of the output (spec/60_exceptions.md R210 to R222, R233). -/

namespace Sys2Proof

/-! ### The words that are commands (R93) -/

/-- There are 269 commands: eleven without an operand, BW.BIT with either bit, ENC.SYM with each symbol. -/
theorem exists_list_of_instrs : ∃ l : List Instr, l.Nodup ∧ l.length = 269 ∧ ∀ i, i ∈ l := by
  have hsyms : (Machine.allSymbols.map Instr.encSym).Nodup :=
    Machine.nodup_allSymbols.map fun _ _ h => Instr.encSym.inj h
  refine ⟨.fcRun :: .tbBuild :: .cgGen :: .bwBits :: .bwFlush :: .brBit :: .cfWrhdr :: .cfRdhdr :: .encRun :: .decSym ::
    .decRun :: .bwBit false :: .bwBit true :: Machine.allSymbols.map .encSym, ?_, ?_, fun i => ?_⟩
  · simp [hsyms]
  · simp [Machine.length_allSymbols]
  · cases i with
    | encSym c => simp [Machine.mem_allSymbols]
    | bwBit b => cases b <;> simp
    | _ => simp

theorem encode_injective : Function.Injective encode := fun i j h =>
  Decoded.command.inj ((decode_encode i).symm.trans ((congrArg decode h).trans (decode_encode j)))

/-- R93. The legal words are the encodings of the commands. -/
theorem exists_list_of_legalWords :
    ∃ l : List Word, l.Nodup ∧ l.length = 269 ∧ ∀ w, w ∈ l ↔ ∃ i, decode w = .command i := by
  obtain ⟨l, hnodup, hlength, hmem⟩ := exists_list_of_instrs
  refine ⟨l.map encode, hnodup.map encode_injective, by rw [List.length_map, hlength], fun w => ?_⟩
  simp only [List.mem_map, hmem, true_and, decode_eq_command_iff, eq_comm]

/-- A word that matches no row is illegal, for one of the reasons of R93. -/
theorem decode_illegal_of_noRow {w : Word} (h : ∀ r ∈ opcodeTable, w &&& r.mask ≠ r.pattern) :
    ∃ e, decode w = .illegal e :=
  (decode_illegal_iff w).mpr fun r hr => beq_eq_false_iff_ne.mpr (h r hr)

theorem noRow_iff (w : Word) :
    (∀ r ∈ opcodeTable, w &&& r.mask ≠ r.pattern) ↔ ∀ i, decode w ≠ .command i := by
  constructor
  · intro h i hi
    obtain ⟨e, he⟩ := decode_illegal_of_noRow h
    exact absurd (he.symm.trans hi) (by simp)
  · intro h r hr hsel
    exact h _ (decode_of_selects hr (beq_iff_eq.mpr hsel))

end Sys2Proof

namespace Sys2Proof.Machine

/-- An illegal word written to CMD while idle (R218). -/
theorem step_illegal {s : State} {w : Word} {e : IllegalWord} {rest : List HostAct} (hb : s.busy = false)
    (hh : s.host = .write (.reg 0x00) (w.setWidth 264) :: rest) (hd : decode w = .illegal e) :
    step s = .next ((s.popHost rest).setBusy.abort .illegalCommand) :=
  calc step s = hostWrite (s.popHost rest) (.reg 0x00) (w.setWidth 264) := step_of_host hh
    _ = issue w (s.popHost rest) := hostWrite_cmd (s := s.popHost rest) hb w
    _ = .next ((s.popHost rest).setBusy.abort .illegalCommand) := issue_illegal hd _

/-- Raising BUSY and aborting leaves an idle state as it was, but for ERR. -/
theorem State.setBusy_abort {s : State} (hb : s.busy = false) (k : ErrKind) :
    s.setBusy.abort k = { s with err := k.code } := by
  simp [State.abort, State.setBusy, hb]

/-! ### The kinds a command may raise (R211) -/

/-- How a command may leave BUSY and ERR (R210, R211). -/
def EndsLegally (i : Instr) (t : State) : Prop :=
  t.busy = false ∧ (t.err = 0#4 ∨ ∃ k ∈ raisedBy i, t.err = k.code)

/-- An end in success. -/
theorem EndsLegally.success {i : Instr} {t : State} (hb : t.busy = false) (he : t.err = 0#4) : EndsLegally i t :=
  ⟨hb, .inl he⟩

/-- An end by an abort of a kind the command may raise. -/
theorem EndsLegally.raised {i : Instr} {t : State} {k : ErrKind} (hk : k ∈ raisedBy i) (hb : t.busy = false)
    (he : t.err = k.code) : EndsLegally i t :=
  ⟨hb, .inr ⟨k, hk, he⟩⟩

/-- A command of the writer ends in success. -/
theorem EndsLegally.of_writer {i : Instr} {s t : State} (e : t = { s with
    obuf := t.obuf, olen := t.olen, acc := t.acc, nbits := t.nbits, err := 0#4, busy := false }) : EndsLegally i t := by
  rw [e]
  exact .success rfl rfl

theorem exec_endsLegally {i : Instr} {s t : State} (h : exec i s = .next t) : EndsLegally i t := by
  cases i with
  | fcRun =>
    obtain rfl := Host.Outcome.next.inj ((exec_fcRun s).symm.trans h)
    exact .success rfl rfl
  | tbBuild =>
    rcases exec_tbBuild_next h with ⟨-, -, -, e⟩ | ⟨-, e⟩ <;> rw [e]
    · exact .success rfl rfl
    · exact .raised (k := .emptyInput) (by decide) rfl rfl
  | cgGen =>
    rcases exec_cgGen_next h with ⟨-, e⟩ | ⟨-, e⟩ <;> rw [e]
    · exact .success rfl rfl
    · exact .raised (k := .illegalCommand) (by decide) rfl rfl
  | bwBit b => exact .of_writer (exec_bwBit_next h).2
  | bwBits => exact .of_writer (exec_bwBits_next h).2
  | bwFlush => exact .of_writer (exec_bwFlush_next h).2
  | brBit =>
    obtain ⟨-, e | e⟩ := exec_brBit_next h <;> rw [e]
    · exact .success rfl rfl
    · exact .raised (k := .streamExhausted) (by decide) rfl rfl
  | cfWrhdr =>
    obtain ⟨-, e, -⟩ := exec_cfWrhdr_next h
    exact .of_writer e
  | cfRdhdr =>
    rcases exec_cfRdhdr_next h with ⟨-, e⟩ | e <;> rw [e]
    · exact .success rfl rfl
    · exact .raised (k := .formatError) (by decide) rfl rfl
  | encSym c =>
    rcases exec_encSym_next h with ⟨-, e⟩ | e
    · exact .of_writer e
    · rw [e]
      exact .raised (k := .invalidCode) (List.mem_singleton_self _) rfl rfl
  | encRun =>
    rcases exec_encRun_next h with ⟨-, rfl⟩ | ⟨-, _, -, -, -, -, -, -, e⟩
    · exact .raised (k := .emptyInput) (by decide) rfl rfl
    · rw [e]
      exact .success rfl rfl
  | decSym =>
    obtain ⟨-, -, ⟨-, e⟩ | ⟨-, e⟩ | ⟨-, e⟩⟩ := exec_decSym_next h <;> rw [e]
    · exact .success rfl rfl
    · exact .raised (k := .truncatedStream) (by decide) rfl rfl
    · exact .raised (k := .illegalCommand) (by decide) rfl rfl
  | decRun =>
    rcases exec_decRun_next h with ⟨-, rfl⟩ | ⟨-, -, rfl⟩ | ⟨-, -, -, -, -, -, -, -, -, -, -, herr, -, e⟩
    · exact .raised (k := .formatError) (by decide) rfl rfl
    · exact .raised (k := .emptyInput) (by decide) rfl rfl
    · have hbusy : t.busy = false := by rw [e]
      split_ifs at herr
      · exact .success hbusy herr
      · exact .raised (k := .truncatedStream) (by decide) hbusy herr

/-- ERR 6 stands for no kind, and 7 is the greatest code (R26, R212). -/
theorem EndsLegally.err_legal {i : Instr} {t : State} (h : EndsLegally i t) : t.err ≠ 6#4 ∧ t.err.toNat ≤ 7 := by
  obtain ⟨-, he | ⟨k, -, he⟩⟩ := h <;> rw [he]
  · exact zero_errLegal
  · exact k.code_legal

/-! ### A missing tree (R219) -/

/-- IllegalCommand is the one kind whose code is 7. -/
theorem ErrKind.code_eq_seven {k : ErrKind} (h : k.code = 7#4) : k = .illegalCommand := by
  revert h
  cases k <;> decide

/-- Only the two commands that need a tree raise IllegalCommand. -/
theorem illegalCommand_mem_raisedBy {i : Instr} (h : .illegalCommand ∈ raisedBy i) : i = .cgGen ∨ i = .decSym := by
  cases i with
  | cgGen => exact .inl rfl
  | decSym => exact .inr rfl
  | _ => simp [raisedBy] at h

theorem EndsLegally.err_ne_seven {i : Instr} {t : State} (h : EndsLegally i t) (hcg : i ≠ .cgGen) (hdec : i ≠ .decSym) :
    t.err ≠ 7#4 := by
  obtain ⟨-, he | ⟨k, hk, he⟩⟩ := h <;> rw [he]
  · decide
  · intro h7
    rw [ErrKind.code_eq_seven h7] at hk
    exact (illegalCommand_mem_raisedBy hk).elim hcg hdec

theorem requireTree_noTree {s : State} (hv : s.treeValid = false) : requireTree s = .raise .illegalCommand s := by
  simp [requireTree, hv]

theorem exec_cgGen_noTree {s : State} (hv : s.treeValid = false) :
    exec .cgGen s = .next (s.abort .illegalCommand) :=
  congrArg endCommand (generateCodes_noTree hv)

theorem exec_decSym_noTree {s : State} (hv : s.treeValid = false) :
    exec .decSym s = .next (s.abort .illegalCommand) :=
  congrArg (fun r => endCommand (Res.bind r decodeSymbol)) (requireTree_noTree hv)

/-! ### The output after primitive commands (R222) -/

theorem OutputGrows.olen_le {s t : State} (h : OutputGrows s t) : s.olen.toNat ≤ t.olen.toNat := by
  obtain ⟨bs, ⟨holen, -⟩, -⟩ := h.appended
  omega

theorem OutputGrows.read_below {s t : State} (h : OutputGrows s t) {a : Nat} (ha : a < s.olen.toNat) :
    Mem.read t.obuf a = Mem.read s.obuf a := by
  obtain ⟨bs, ⟨-, -, hother⟩, -⟩ := h.appended
  exact hother a (.inl ha)

/-- With OLEN unchanged no byte was appended, so OBUF reads as before everywhere. -/
theorem OutputGrows.read_of_olen_eq {s t : State} (h : OutputGrows s t) (ho : t.olen = s.olen) (a : Nat) :
    Mem.read t.obuf a = Mem.read s.obuf a := by
  obtain ⟨bs, ⟨holen, -, hother⟩, -⟩ := h.appended
  rw [ho] at holen
  exact hother a (by omega)

theorem execAll_cons_next {i : Instr} {is : List Instr} {s u : State} (h : execAll (i :: is) s = .next u) :
    ∃ t, exec i s = .next t ∧ execAll is t = .next u := by
  rw [execAll] at h
  cases hi : exec i s with
  | next t => exact ⟨t, rfl, by rwa [hi] at h⟩
  | fault f => rw [hi] at h; cases h
  | refused r => rw [hi] at h; cases h

/-- Primitive commands only append to OBUF, and leave OUT_VALID as it was (R28, R41). -/
theorem execAll_primitives_keep {is : List Instr} {s u : State} (hc : ∀ j ∈ is, compound j = false)
    (h : execAll is s = .next u) : OutputGrows s u ∧ u.outValid = s.outValid := by
  induction is generalizing s with
  | nil =>
    obtain rfl := Host.Outcome.next.inj h
    exact ⟨.refl s, rfl⟩
  | cons i is ih =>
    obtain ⟨hci, hcis⟩ := List.forall_mem_cons.mp hc
    obtain ⟨t, hi, his⟩ := execAll_cons_next h
    obtain ⟨-, hval, hgrows, -⟩ := exec_primitive_keeps hi hci
    obtain ⟨hgrows', hval'⟩ := ih hcis his
    exact ⟨hgrows.trans hgrows', hval'.trans hval⟩

/-- OLEN never falls over primitive commands, so it ends where it began exactly if each of them left it alone. -/
theorem appendNothing_iff {is : List Instr} {s u : State} (hc : ∀ j ∈ is, compound j = false)
    (h : execAll is s = .next u) : AppendNothing is s ↔ u.olen = s.olen := by
  induction is generalizing s with
  | nil =>
    obtain rfl := Host.Outcome.next.inj h
    exact iff_of_true trivial rfl
  | cons i is ih =>
    obtain ⟨hci, hcis⟩ := List.forall_mem_cons.mp hc
    obtain ⟨t, hi, his⟩ := execAll_cons_next h
    have hrest : AppendNothing is t ↔ u.olen = t.olen := ih hcis his
    constructor
    · rintro ⟨t', hi', ht, hnone⟩
      obtain rfl := Host.Outcome.next.inj (hi.symm.trans hi')
      exact (hrest.mp hnone).trans ht
    · intro hu
      have hle : s.olen.toNat ≤ t.olen.toNat := by
        obtain ⟨-, -, hgrows, -⟩ := exec_primitive_keeps hi hci
        exact hgrows.olen_le
      have hle' : t.olen.toNat ≤ u.olen.toNat := (execAll_primitives_keep hcis his).1.olen_le
      have ht : t.olen = s.olen := BitVec.eq_of_toNat_eq (by rw [hu] at hle'; omega)
      exact ⟨t, hi, ht, hrest.mpr (hu.trans ht.symm)⟩

end Sys2Proof.Machine

open Sys2Proof Sys2Proof.Machine

/-- Settles O3: the legal words are the encodings of the commands, and a word that matches no row is aborted at once. -/
theorem illegalWordOnlySetsErr : Obligations.IllegalWordOnlySetsErr := by
  refine ⟨exists_list_of_legalWords, noRow_iff, fun s w rest hb hno hh => ?_⟩
  obtain ⟨e, he⟩ := decode_illegal_of_noRow hno
  rw [step_illegal hb hh he, State.setBusy_abort (s := s.popHost rest) hb]
  rfl

/-- Settles O13, command by command. -/
theorem commandsEndWithLegalErr : Obligations.CommandsEndWithLegalErr := by
  intro i s t h
  obtain ⟨hbusy, herr⟩ := exec_endsLegally h
  exact ⟨hbusy, herr, (exec_endsLegally h).err_legal⟩

/-- Settles O28: without a tree both commands abort, and 7 is the code of a kind that no other command raises. -/
theorem noTreeIsIllegalCommand : Obligations.NoTreeIsIllegalCommand :=
  ⟨fun _ hv => ⟨exec_cgGen_noTree hv, exec_decSym_noTree hv⟩,
    fun _ _ _ hcg hdec h => (exec_endsLegally h).err_ne_seven hcg hdec⟩

/-- Settles O60. Primitive commands keep OUT_VALID and only append, so an unchanged OLEN says that nothing was appended. -/
theorem outValidMarksTheResult : Obligations.OutValidMarksTheResult := by
  intro i is s t u hci hcis hi his
  obtain ⟨-, hsuccess, -⟩ := exec_compound_keeps hi hci
  obtain ⟨hgrows, hval⟩ := execAll_primitives_keep hcis his
  have hvalid : u.outValid = true ↔ t.err = 0#4 := by rw [hval, hsuccess]
  refine ⟨and_congr hvalid (appendNothing_iff hcis his).symm, ?_, hvalid, hgrows.olen_le, ?_, ?_⟩
  · rintro ⟨-, holen⟩
    exact hgrows.read_of_olen_eq holen
  · exact fun _ => hgrows.read_below
  · exact hgrows.read_of_olen_eq

/-- Settles O6: idling and an answered read go on with the state as they found it, the read taken. -/
theorem idleKeepsAllState : Obligations.IdleKeepsAllState := by
  constructor
  · intro s hb hh
    simp [step, stepTransaction, hh, idle, hb]
  · intro s p v rest hh hread
    have hread' : hostRead (s.popHost rest) p = .next v := hread
    simp only [step_of_host hh, transact, hread']
    rfl

end
